-- ==== Sys2Proof/Word.lean ====
section
/-! DEFINITION. The word types of CAHPv3: 16-bit words, 8-bit bytes, register numbers, and an
instruction word of one of the two lengths. -/

namespace Sys2Proof

/-- A register value, an address or a pc: `XLEN = PCLEN = 16` (R7). -/
abbrev Word := BitVec 16

/-- The unit of addressing (R9). -/
abbrev Byte := BitVec 8

/-- A register number 0 to 15: `NREG = 16` (R7, R20). -/
abbrev Reg := Fin 16

/-- The link register `ra` is `x0` (R21). -/
abbrev Reg.ra : Reg := 0

/-- The stack pointer `sp` is `x1` (R21). -/
abbrev Reg.sp : Reg := 1

/-- A fetched instruction word, of 16 or 24 bits: the only two lengths (R70). -/
inductive InstWord where
  /-- A 16-bit instruction word. -/
  | half (w : BitVec 16)
  /-- A 24-bit instruction word. -/
  | full (w : BitVec 24)
  deriving DecidableEq, Repr

end Sys2Proof
end

