-- ==== Sys2Proof/Config.lean ====
section
/-! DEFINITION. The implementation parameters of R8 that the source leaves open, as plain data, with the
defaults the spec takes; and the one free value, the link of JAL. `BYTE_ORDER = little`,
`MISALIGNED_WORD = refuse` and `HALT_CONVENTION = js0` are adopted as R8's defaults and are no
arguments here (log 6, log 9, log 18). -/

namespace Sys2Proof

/-- `MEM_ORG` (R8, R40, R41). -/
inductive MemOrg where
  /-- Instruction memory and data memory are two spaces, each addressed from 0 (R40). -/
  | harvard
  /-- One space for code and data; `CODE_LO..CODE_HI` (inclusive) holds the program (R41). -/
  | unified (codeLo codeHi : Word)
  deriving DecidableEq, Repr

/-- `SHIFT_AMOUNT`: what a register shift does with its 16-bit distance operand (R101, D7). -/
inductive ShiftAmount where
  /-- The distance is the operand's low four bits: the default. -/
  | low4
  /-- An operand above 15 is the stop `ShiftDistanceOutOfRange`. -/
  | refuse
  /-- An operand above 15 shifts everything out: 0 for the logical shifts, sign fill for the arithmetic one. -/
  | saturate
  deriving DecidableEq, Repr

/-- The six unused odd 6-bit values, the only ones `SB_OPCODE` may take (R91, R99, D13). -/
inductive SbOpcode where
  /-- `000111` -/
  | b000111
  /-- `001011` -/
  | b001011
  /-- `011101` -/
  | b011101
  /-- `100111` -/
  | b100111
  /-- `101101` -/
  | b101101
  /-- `111101` -/
  | b111101
  deriving DecidableEq, Repr

/-- The launch parameters: every row of R8's table that the model takes as an argument. They are a
parameter of the step relation (R33); State carries them and no step changes them (log 3). -/
structure Params where
  /-- `MEM_ORG`, with `CODE_LO` and `CODE_HI` under `unified`. -/
  memOrg : MemOrg
  /-- `IMEM_SIZE` in bytes (R42). -/
  imemSize : Nat
  /-- `DMEM_SIZE` in bytes (R42); under `unified`, the size of the one memory (log 7). -/
  dmemSize : Nat
  /-- `RESET_PC` (R34). -/
  resetPc : Word
  /-- `SHIFT_AMOUNT` (R101). -/
  shiftAmount : ShiftAmount
  /-- `SB_OPCODE`; `none` while it is not supplied (D13). -/
  sbOpcode : Option SbOpcode
  /-- `J_OPCODE`, 8 bits in the probable layout of R79; `none` while it is not supplied (D14). -/
  jOpcode : Option (BitVec 8)
  /-- `JAL_OPCODE`, likewise. -/
  jalOpcode : Option (BitVec 8)
  deriving DecidableEq, Repr

/-- The defaults of R8's table. The two sizes are open there; the model takes the whole 16-bit
address space for each (DESIGN CHOICE, log 4). -/
def Params.default : Params where
  memOrg := .harvard
  imemSize := 65536
  dmemSize := 65536
  resetPc := 0
  shiftAmount := .low4
  sbOpcode := none
  jOpcode := none
  jalOpcode := none

/-- FREE VALUE (log 15). The value JAL links, as a function of the JAL's own address: the source prints
`pc + 4`, its length says `pc + 3`, and "a reader must not assume either" (R141, C9). It has no body:
nothing can be proved of it. -/
opaque Config.jalLink : Word → Word

end Sys2Proof
end

