-- ==== Sys2Proof/Machine/State.lean ====
section
/-! DEFINITION. The state of CAHPv3 as plain data, its stops, and the state after reset. The hardware has
sixteen registers, a pc and its memories, and nothing else (R33): no flags (R28), no control or
status registers (R29), no other register files (R30), no hidden state (R31), no mode, no saved pc, no
cause (R200, R208), no counters (R210). -/

namespace Sys2Proof.Machine

/-- Memory: pairs of an address and the byte it holds, addresses strictly rising. An address that is
not listed holds nothing: neither the launch image nor a store has set it (R35). -/
abbrev Memory := List Host.Cell

/-- What an address that is not listed reads as: no value (R35, log 5), so a read of it stops. -/
def Memory.unlisted : Option Byte := none

/-- The stops of R203 that a step answers as a fault. Each is the model declining to give a meaning
where the source gives none; nothing has been written (R203). -/
inductive Fault where
  /-- `FetchOutOfRange(pc)`: a byte of the instruction lies outside the memory that can be fetched, or
  beyond `0xFFFF` (R56; R41 under `unified`). Raised by the fetch. Safe: a chip does something there. -/
  | fetchOutOfRange (pc : Word)
  /-- `MisalignedAccess(a)`: a word access at an odd address (R49). Raised by LW, SW, LWSP, SWSP. Safe. -/
  | misalignedAccess (a : Word)
  /-- `AccessOutOfRange(a)`: a byte of a data access lies at or beyond `DMEM_SIZE` (R50). Raised by
  LW, LB, LBU, SW, SB, LWSP, SWSP. Safe. -/
  | accessOutOfRange (a : Word)
  /-- `StoreToCode(a)`: under `unified`, a stored byte lies in `CODE_LO..CODE_HI` (R41). Raised by SW, SB,
  SWSP. Safe. -/
  | storeToCode (a : Word)
  /-- `ShiftDistanceOutOfRange(v)`: under `SHIFT_AMOUNT = refuse`, a register shift distance above 15
  (R101). Raised by LSL, LSR, ASR, LSL2, LSR2, ASR2. Safe. -/
  | shiftDistanceOutOfRange (v : Word)
  /-- `UnwrittenMemory(a)`: the byte was set neither by the image nor by a store (R35). Raised by the
  fetch and by LW, LB, LBU, LWSP. Safe. -/
  | unwrittenMemory (a : Word)
  deriving DecidableEq, Repr

/-- The stops a step answers as a refusal: no meaning for the instruction. -/
inductive Refusal where
  /-- `ReservedInstruction(pc, inst)`: no row matches the fetched word (R91, R92). Raised by the decode of
  a step. Safe: a chip may execute the word as something. -/
  | reservedInstruction (pc : Word) (inst : InstWord)
  /-- An arm of `exec` that has no meaning yet, by its mnemonic. No arm raises it. Safe. -/
  | notModelled (mnemonic : String)
  deriving DecidableEq, Repr

/-- The whole state (R33), with the launch parameters (log 3) and the record of which registers hold
a value (log 2). -/
structure State where
  /-- `x0` to `x15` (R20). -/
  regs : Vector Word 16
  /-- The program counter: the address of the instruction being executed (R24, R25). -/
  pc : Word
  /-- Data memory `DMem` (R40); under `unified`, the one memory (R41). -/
  dmem : Memory
  /-- Instruction memory `IMem` (R40), which nothing writes after launch; empty under `unified`. -/
  imem : Memory
  /-- The launch parameters of R8. No step changes them. -/
  params : Params
  /-- The registers an instruction has written since reset: those that hold a value in the sense of R35.
  The model's own record: no meaning reads it; Safety.lean does. -/
  written : Vector Bool 16
  deriving DecidableEq, Repr

/-- The state after reset with R8's default parameters and nothing loaded (R34, R230): the pc at
`RESET_PC`, no register written, nothing in either memory. The spec gives the registers no value; each
is 0 here (DESIGN CHOICE, log 1). -/
def State.reset : State where
  regs := Vector.replicate 16 0
  pc := Params.default.resetPc
  dmem := []
  imem := []
  params := Params.default
  written := Vector.replicate 16 false

end Sys2Proof.Machine
end

