-- ==== Sys2Proof/Machine/Operands.lean ====
section
/-! DEFINITION. The operand forms: extensions (R12), effective addresses (R51, R150, R190), targets (R131,
R181), shift distances (R101) and the right shift that keeps the sign (R11). -/

namespace Sys2Proof.Machine

/-- `sext_16` of an n-bit field (R12). -/
def sext16 {n : Nat} (v : BitVec n) : Word := v.signExtend 16

/-- `zext_16` of an n-bit field (R12). -/
def zext16 {n : Nat} (v : BitVec n) : Word := v.setWidth 16

/-- The effective address of a load or store: base plus sign-extended displacement, modulo 2^16
(R51, R150). -/
def effectiveAddress (base : Word) (simm10 : BitVec 10) : Word := base + sext16 simm10

/-- The effective address of LWSP and SWSP: sp plus zero-extended displacement, modulo 2^16 (R51, R190). -/
def spAddress (sp : Word) (uimm7 : BitVec 7) : Word := sp + zext16 uimm7

/-- The target of a taken branch, from the branch's own address (R25, R131). -/
def branchTarget (pc : Word) (simm10 : BitVec 10) : Word := pc + sext16 simm10

/-- The target of JS and JSAL, from the jump's own address (R25, R181). -/
def jumpTarget (pc : Word) (simm11 : BitVec 11) : Word := pc + sext16 simm11

/-- The target of J and JAL in the reading R140 and R141 record. -/
def longJumpTarget (pc : Word) (simm16 : BitVec 16) : Word := pc + simm16

/-- What LUI writes: `sext_16(simm6) << 10` (R176). -/
def upperImmediate (simm6 : BitVec 6) : Word := sext16 simm6 <<< 10

/-- `shamt` of R101 under each value of `SHIFT_AMOUNT`; `none` is the stop of `refuse`. Under `saturate` a
distance of 16 shifts every bit out. -/
def shamt : ShiftAmount → Word → Option Nat
  | .low4, v => some (v.extractLsb' 0 4).toNat
  | .refuse, v => if v.toNat ≤ 15 then some v.toNat else none
  | .saturate, v => some (min v.toNat 16)

/-- `a << n`, zeros from the right (R11, R102). -/
def shiftLeft (a : Word) (n : Nat) : Word := a <<< n

/-- `a >>u n`, zeros from the left (R11, R102). -/
def shiftRightLogical (a : Word) (n : Nat) : Word := a >>> n

/-- `a >>s n`, copies of bit 15 from the left (R11, R102). -/
def shiftRightArith (a : Word) (n : Nat) : Word := a.sshiftRight n

/-- The distance of an immediate shift: `uimm4`, 0 to 15 (R101). -/
def immShamt (uimm4 : BitVec 4) : Nat := uimm4.toNat

end Sys2Proof.Machine
end

