-- ==== Sys2Proof/Machine/Ops.lean ====
section
/-! DEFINITION. The named operations over registers, pc and memories that the meanings share. The hardware
takes no exception and returns from none (R200, R205, R206): there is no such operation. -/

namespace Sys2Proof.Machine

/-- The outcome of an instruction. -/
abbrev Res := Host.Outcome State Fault Refusal

/-! ## Registers and pc -/

/-- `x[r]` (R13). No register is hardwired (R22). -/
def State.reg (s : State) (r : Reg) : Word := s.regs[r.val]

/-- Whether an instruction has written `x[r]` since reset (R35). -/
def State.isWritten (s : State) (r : Reg) : Bool := s.written[r.val]

/-- `x[r] <- v` (R13). -/
def State.setReg (s : State) (r : Reg) (v : Word) : State :=
  { s with regs := s.regs.set r.val v, written := s.written.set r.val true }

/-- `pc <- t` (R13). -/
def State.setPc (s : State) (t : Word) : State := { s with pc := t }

/-- `DMem` replaced. -/
def State.setDmem (s : State) (m : Memory) : State := { s with dmem := m }

/-- Write a destination register and go on to the next instruction, `len` bytes on (R26, R100, R160). -/
def State.writeback (s : State) (rd : Reg) (v : Word) (len : Word) : State :=
  (s.setReg rd v).setPc (s.pc + len)

/-- Continue with a value, or end in the stop that came instead of it. -/
def andThen {α : Type} (e : Except Fault α) (k : α → Res) : Res :=
  match e with
  | .ok v => k v
  | .error f => .fault f

/-! ## Memory as data -/

/-- The byte at an address; what is not listed reads as `Memory.unlisted`. -/
def Memory.read : Memory → Nat → Option Byte
  | [], _ => Memory.unlisted
  | (k, v) :: m, a => if a = k then some v else Memory.read m a

/-- Put a byte at an address, keeping the addresses strictly rising. -/
def Memory.write : Memory → Nat → Byte → Memory
  | [], a, b => [(a, b)]
  | (k, v) :: m, a, b =>
    if a < k then (a, b) :: (k, v) :: m
    else if a = k then (a, b) :: m
    else (k, v) :: Memory.write m a b

/-- The addresses of `m` rise strictly and all lie above `lo`. -/
def Memory.risingFrom : Nat → Memory → Bool
  | _, [] => true
  | lo, (k, _) :: m => decide (lo ≤ k) && Memory.risingFrom (k + 1) m

/-- The canonical form: addresses strictly rising. (An unlisted address reads as no value, so no entry
can equal what it reads as.) -/
def Memory.wf (m : Memory) : Bool := Memory.risingFrom 0 m

/-- Every listed address is below `size`. -/
def Memory.within (size : Nat) (m : Memory) : Bool := m.all (fun c => decide (c.1 < size))

/-- Load image cells in order into a memory of `size` bytes; a cell outside the memory is dropped, a
later cell at an address replaces an earlier one (R230, log 17). -/
def Memory.load (size : Nat) (m : Memory) (image : List Host.Cell) : Memory :=
  image.foldl (fun m c => if c.1 < size then m.write c.1 c.2 else m) m

/-- Bytes put at consecutive addresses from `a`, up to the top of the address space. -/
def Memory.place : Memory → Nat → List Byte → Memory
  | m, _, [] => m
  | m, a, b :: bs => Memory.place (if a < 65536 then m.write a b else m) (a + 1) bs

/-! ## Data accesses: `MemRead` and `MemWrite` (R46, R47) -/

/-- The two access sizes (R52). -/
inductive AccessSize where
  /-- One byte. -/
  | byte
  /-- A word: two bytes (R44). -/
  | word
  deriving DecidableEq, Repr

/-- The number of bytes an access moves. -/
def AccessSize.bytes : AccessSize → Nat
  | .byte => 1
  | .word => 2

/-- A word access at an odd address (R49). -/
def misaligned (size : AccessSize) (a : Word) : Bool :=
  match size with
  | .byte => false
  | .word => a.getLsbD 0

/-- Every byte of the access lies below `DMEM_SIZE` (R50). -/
def inDmem (p : Params) (size : AccessSize) (a : Word) : Bool :=
  decide (a.toNat + size.bytes ≤ p.dmemSize)

/-- Byte address `a` lies in the code range of the unified organisation (R41); harvard has none. -/
def inCodeRange (p : Params) (a : Nat) : Bool :=
  match p.memOrg with
  | .harvard => false
  | .unified lo hi => decide (lo.toNat ≤ a ∧ a ≤ hi.toNat)

/-- A stored byte would fall in the code range (R41). -/
def hitsCode (p : Params) (size : AccessSize) (a : Word) : Bool :=
  match size with
  | .byte => inCodeRange p a.toNat
  | .word => inCodeRange p a.toNat || inCodeRange p (a.toNat + 1)

/-- The checks every data access makes, alignment before range (R49, R50, R151, R204). -/
def checkAccess (p : Params) (size : AccessSize) (a : Word) : Except Fault Unit :=
  if misaligned size a then .error (.misalignedAccess a)
  else if inDmem p size a then .ok ()
  else .error (.accessOutOfRange a)

/-- The checks a store makes: those of every access, then the code range (R41, R204). -/
def checkStore (p : Params) (size : AccessSize) (a : Word) : Except Fault Unit :=
  match checkAccess p size a with
  | .error f => .error f
  | .ok () => if hitsCode p size a then .error (.storeToCode a) else .ok ()

/-- One byte of a memory, or the stop `UnwrittenMemory` (R35). -/
def readByteOf (m : Memory) (a : Nat) : Except Fault Byte :=
  match m.read a with
  | some b => .ok b
  | none => .error (.unwrittenMemory (BitVec.ofNat 16 a))

/-- `MemRead(a, 1)` (R46). -/
def memReadByte (s : State) (a : Word) : Except Fault Byte :=
  match checkAccess s.params .byte a with
  | .error f => .error f
  | .ok () => readByteOf s.dmem a.toNat

/-- `MemRead(a, 2)`: `DMem[a]` in bits 7 to 0, `DMem[a + 1]` in bits 15 to 8 (R45, R46). -/
def memReadWord (s : State) (a : Word) : Except Fault Word :=
  match checkAccess s.params .word a with
  | .error f => .error f
  | .ok () =>
    match readByteOf s.dmem a.toNat with
    | .error f => .error f
    | .ok lo =>
      match readByteOf s.dmem (a.toNat + 1) with
      | .error f => .error f
      | .ok hi => .ok (hi ++ lo)

/-- `MemWrite(a, 1, v)` (R47). -/
def memWriteByte (s : State) (a : Word) (v : Byte) : Except Fault State :=
  match checkStore s.params .byte a with
  | .error f => .error f
  | .ok () => .ok (s.setDmem (s.dmem.write a.toNat v))

/-- `MemWrite(a, 2, v)`: bits 7 to 0 at `a`, bits 15 to 8 at `a + 1` (R45, R47). -/
def memWriteWord (s : State) (a : Word) (v : Word) : Except Fault State :=
  match checkStore s.params .word a with
  | .error f => .error f
  | .ok () =>
    .ok (s.setDmem ((s.dmem.write a.toNat (v.extractLsb' 0 8)).write (a.toNat + 1) (v.extractLsb' 8 8)))

end Sys2Proof.Machine
end

