-- ==== Sys2Proof/Machine/Alu16.lean ====
section
/-! DEFINITION. The 16-bit integer computational instructions (43_alu16.md). Flags: none (R28, R160). -/

namespace Sys2Proof.Machine

/-- Write `x[rd]` and go on past a 16-bit instruction (R160). -/
def next16 (s : State) (rd : Reg) (v : Word) : Res := .next (s.writeback rd v 2)

/-- A register shift of 16 bits: `rd` shifted by `dist`, the distance taken by `SHIFT_AMOUNT` (R101,
R160, R161). -/
def shift16 (s : State) (rd : Reg) (a dist : Word) (op : Word → Nat → Word) : Res :=
  match shamt s.params.shiftAmount dist with
  | some n => next16 s rd (op a n)
  | none => .fault (.shiftDistanceOutOfRange dist)

/-- MOV (R164); it does not read the old `x[rd]`. -/
def execMov (rd rs : Reg) (s : State) : Res :=
  next16 s rd (s.reg rs)

/-- ADD2 (R165). -/
def execAdd2 (rd rs : Reg) (s : State) : Res :=
  next16 s rd (s.reg rd + s.reg rs)

/-- SUB2 (R166, R161). -/
def execSub2 (rd rs : Reg) (s : State) : Res :=
  next16 s rd (s.reg rd - s.reg rs)

/-- AND2 (R167). -/
def execAnd2 (rd rs : Reg) (s : State) : Res :=
  next16 s rd (s.reg rd &&& s.reg rs)

/-- XOR2 (R168). -/
def execXor2 (rd rs : Reg) (s : State) : Res :=
  next16 s rd (s.reg rd ^^^ s.reg rs)

/-- OR2 (R169). -/
def execOr2 (rd rs : Reg) (s : State) : Res :=
  next16 s rd (s.reg rd ||| s.reg rs)

/-- LSL2 (R170). -/
def execLsl2 (rd rs : Reg) (s : State) : Res :=
  shift16 s rd (s.reg rd) (s.reg rs) shiftLeft

/-- LSR2 (R171). -/
def execLsr2 (rd rs : Reg) (s : State) : Res :=
  shift16 s rd (s.reg rd) (s.reg rs) shiftRightLogical

/-- ASR2 (R172). -/
def execAsr2 (rd rs : Reg) (s : State) : Res :=
  shift16 s rd (s.reg rd) (s.reg rs) shiftRightArith

/-- ADDI2 (R173). -/
def execAddi2 (rd : Reg) (simm6 : BitVec 6) (s : State) : Res :=
  next16 s rd (s.reg rd + sext16 simm6)

/-- ANDI2 (R174). -/
def execAndi2 (rd : Reg) (simm6 : BitVec 6) (s : State) : Res :=
  next16 s rd (s.reg rd &&& sext16 simm6)

/-- LSI (R175). -/
def execLsi (rd : Reg) (simm6 : BitVec 6) (s : State) : Res :=
  next16 s rd (sext16 simm6)

/-- LUI (R176). -/
def execLui (rd : Reg) (simm6 : BitVec 6) (s : State) : Res :=
  next16 s rd (upperImmediate simm6)

/-- LSLI2 (R177). -/
def execLsli2 (rd : Reg) (uimm4 : BitVec 4) (s : State) : Res :=
  next16 s rd (shiftLeft (s.reg rd) (immShamt uimm4))

/-- LSRI2 (R178). -/
def execLsri2 (rd : Reg) (uimm4 : BitVec 4) (s : State) : Res :=
  next16 s rd (shiftRightLogical (s.reg rd) (immShamt uimm4))

/-- ASRI2 (R179). -/
def execAsri2 (rd : Reg) (uimm4 : BitVec 4) (s : State) : Res :=
  next16 s rd (shiftRightArith (s.reg rd) (immShamt uimm4))

end Sys2Proof.Machine
end

