-- ==== Sys2Proof/Machine/Alu24.lean ====
section
/-! DEFINITION. The 24-bit integer computational instructions (40_alu24.md). Flags: none (R28, R100). -/

namespace Sys2Proof.Machine

/-- Write `x[rd]` and go on past a 24-bit instruction (R100). -/
def next24 (s : State) (rd : Reg) (v : Word) : Res := .next (s.writeback rd v 3)

/-- A register shift of 24 bits: the distance comes from `dist` by `SHIFT_AMOUNT`, or the stop of
`refuse` (R101). -/
def shift24 (s : State) (rd : Reg) (a dist : Word) (op : Word → Nat → Word) : Res :=
  match shamt s.params.shiftAmount dist with
  | some n => next24 s rd (op a n)
  | none => .fault (.shiftDistanceOutOfRange dist)

/-- ADD (R110). -/
def execAdd (rd rs1 rs2 : Reg) (s : State) : Res :=
  next24 s rd (s.reg rs1 + s.reg rs2)

/-- SUB (R111). -/
def execSub (rd rs1 rs2 : Reg) (s : State) : Res :=
  next24 s rd (s.reg rs1 - s.reg rs2)

/-- AND (R112). -/
def execAnd (rd rs1 rs2 : Reg) (s : State) : Res :=
  next24 s rd (s.reg rs1 &&& s.reg rs2)

/-- XOR (R113). -/
def execXor (rd rs1 rs2 : Reg) (s : State) : Res :=
  next24 s rd (s.reg rs1 ^^^ s.reg rs2)

/-- OR (R114). -/
def execOr (rd rs1 rs2 : Reg) (s : State) : Res :=
  next24 s rd (s.reg rs1 ||| s.reg rs2)

/-- LSL (R115). -/
def execLsl (rd rs1 rs2 : Reg) (s : State) : Res :=
  shift24 s rd (s.reg rs1) (s.reg rs2) shiftLeft

/-- LSR (R116). -/
def execLsr (rd rs1 rs2 : Reg) (s : State) : Res :=
  shift24 s rd (s.reg rs1) (s.reg rs2) shiftRightLogical

/-- ASR (R117). -/
def execAsr (rd rs1 rs2 : Reg) (s : State) : Res :=
  shift24 s rd (s.reg rs1) (s.reg rs2) shiftRightArith

/-- ADDI (R118). -/
def execAddi (rd rs1 : Reg) (simm10 : BitVec 10) (s : State) : Res :=
  next24 s rd (s.reg rs1 + sext16 simm10)

/-- ANDI (R119). -/
def execAndi (rd rs1 : Reg) (simm10 : BitVec 10) (s : State) : Res :=
  next24 s rd (s.reg rs1 &&& sext16 simm10)

/-- XORI (R120). -/
def execXori (rd rs1 : Reg) (simm10 : BitVec 10) (s : State) : Res :=
  next24 s rd (s.reg rs1 ^^^ sext16 simm10)

/-- ORI (R121). -/
def execOri (rd rs1 : Reg) (simm10 : BitVec 10) (s : State) : Res :=
  next24 s rd (s.reg rs1 ||| sext16 simm10)

/-- LI (R122); it reads no register. -/
def execLi (rd : Reg) (simm10 : BitVec 10) (s : State) : Res :=
  next24 s rd (sext16 simm10)

/-- LSLI (R123). -/
def execLsli (rd rs1 : Reg) (uimm4 : BitVec 4) (s : State) : Res :=
  next24 s rd (shiftLeft (s.reg rs1) (immShamt uimm4))

/-- LSRI (R124). -/
def execLsri (rd rs1 : Reg) (uimm4 : BitVec 4) (s : State) : Res :=
  next24 s rd (shiftRightLogical (s.reg rs1) (immShamt uimm4))

/-- ASRI (R125). -/
def execAsri (rd rs1 : Reg) (uimm4 : BitVec 4) (s : State) : Res :=
  next24 s rd (shiftRightArith (s.reg rs1) (immShamt uimm4))

end Sys2Proof.Machine
end

