-- ==== Sys2Proof/Machine/Flags.lean ====
section
/-! DEFINITION. The hardware has no flags (R28): no instruction writes one and no carry, overflow, zero or
sign result is kept. What stands here are the six conditions that the conditional branches evaluate
on two registers inside the one instruction (R130, R133). -/

namespace Sys2Proof.Machine

/-- BEQ's condition: equal bit patterns (R133, R134). -/
def condEq (a b : Word) : Bool := a == b

/-- BNE's condition (R135). -/
def condNe (a b : Word) : Bool := a != b

/-- BLT's condition: less, as signed numbers (R133, R136). -/
def condLt (a b : Word) : Bool := a.slt b

/-- BLTU's condition: less, as unsigned numbers (R133, R137). -/
def condLtu (a b : Word) : Bool := a.ult b

/-- BLE's condition: less or equal, as signed numbers (R133, R138). -/
def condLe (a b : Word) : Bool := a.sle b

/-- BLEU's condition: less or equal, as unsigned numbers (R133, R139). -/
def condLeu (a b : Word) : Bool := a.ule b

end Sys2Proof.Machine
end

