-- ==== Sys2Proof/Machine/Branch24.lean ====
section
/-! DEFINITION. The 24-bit conditional branches, and J and JAL (41_branch24.md). Flags: none (R28, R130). -/

namespace Sys2Proof.Machine

/-- A conditional branch: to the target if taken, else past the 24-bit instruction; nothing but the pc is
written (R130, R131). -/
def branchOn (s : State) (taken : Bool) (simm10 : BitVec 10) : Res :=
  .next (s.setPc (if taken then branchTarget s.pc simm10 else s.pc + 3))

/-- BEQ (R134). -/
def execBeq (rs1 rs2 : Reg) (simm10 : BitVec 10) (s : State) : Res :=
  branchOn s (condEq (s.reg rs1) (s.reg rs2)) simm10

/-- BNE (R135). -/
def execBne (rs1 rs2 : Reg) (simm10 : BitVec 10) (s : State) : Res :=
  branchOn s (condNe (s.reg rs1) (s.reg rs2)) simm10

/-- BLT (R136). -/
def execBlt (rs1 rs2 : Reg) (simm10 : BitVec 10) (s : State) : Res :=
  branchOn s (condLt (s.reg rs1) (s.reg rs2)) simm10

/-- BLTU (R137). -/
def execBltu (rs1 rs2 : Reg) (simm10 : BitVec 10) (s : State) : Res :=
  branchOn s (condLtu (s.reg rs1) (s.reg rs2)) simm10

/-- BLE (R138). -/
def execBle (rs1 rs2 : Reg) (simm10 : BitVec 10) (s : State) : Res :=
  branchOn s (condLe (s.reg rs1) (s.reg rs2)) simm10

/-- BLEU (R139). -/
def execBleu (rs1 rs2 : Reg) (simm10 : BitVec 10) (s : State) : Res :=
  branchOn s (condLeu (s.reg rs1) (s.reg rs2)) simm10

/-- J over the decoded instruction, in the reading R140 records: `pc <- pc + sext_16(simm16)` (DEDUCED, log 14).
Under the default parameters no word decodes to it (log 13). -/
def execJ (simm16 : BitVec 16) (s : State) : Res :=
  .next (s.setPc (longJumpTarget s.pc simm16))

/-- JAL over the decoded instruction, in the reading R141 records. The link value is in doubt and stands as a
free value (DESIGN CHOICE, log 15); the jump itself is J's (DEDUCED, log 14). -/
def execJal (simm16 : BitVec 16) (s : State) : Res :=
  .next ((s.setReg Reg.ra (Config.jalLink s.pc)).setPc (longJumpTarget s.pc simm16))

end Sys2Proof.Machine
end

