-- ==== Sys2Proof/Machine/Jump16.lean ====
section
/-! DEFINITION. The 16-bit unconditional jumps (44_jump16.md). Targets are used as they are (R182). Flags: none (R28). -/

namespace Sys2Proof.Machine

/-- JALR (R184): the target is read before the link is written (R27; log 24). -/
def execJalr (rs : Reg) (s : State) : Res :=
  .next ((s.setReg Reg.ra (s.pc + 2)).setPc (s.reg rs))

/-- JR (R185). -/
def execJr (rs : Reg) (s : State) : Res :=
  .next (s.setPc (s.reg rs))

/-- JS (R186). `JS 0` leaves the state as it is; reaching it is the end of a run (R213, log 18). -/
def execJs (simm11 : BitVec 11) (s : State) : Res :=
  .next (s.setPc (jumpTarget s.pc simm11))

/-- JSAL (R187): link and target both from the JSAL's own address. -/
def execJsal (simm11 : BitVec 11) (s : State) : Res :=
  .next ((s.setReg Reg.ra (s.pc + 2)).setPc (jumpTarget s.pc simm11))

end Sys2Proof.Machine
end

