-- ==== Sys2Proof/Machine/LoadStore24.lean ====
section
/-! DEFINITION. The 24-bit loads and stores (42_loadstore24.md), and the load and store operations that LWSP and
SWSP share. Flags: none (R28). -/

namespace Sys2Proof.Machine

/-- A word load into `rd` from `ea`, by an instruction of `len` bytes (R151, R190). -/
def loadWordInto (s : State) (rd : Reg) (ea : Word) (len : Word) : Res :=
  andThen (memReadWord s ea) fun v => .next (s.writeback rd v len)

/-- A byte load into `rd` from `ea`, widened by `ext` (R151, R152). -/
def loadByteInto (s : State) (rd : Reg) (ea : Word) (ext : Byte → Word) : Res :=
  andThen (memReadByte s ea) fun b => .next (s.writeback rd (ext b) 3)

/-- A word store of `v` at `ea`, by an instruction of `len` bytes (R151, R190). -/
def storeWordAt (s : State) (ea v : Word) (len : Word) : Res :=
  andThen (memWriteWord s ea v) fun t => .next (t.setPc (s.pc + len))

/-- A byte store of `b` at `ea` (R151, R152). -/
def storeByteAt (s : State) (ea : Word) (b : Byte) : Res :=
  andThen (memWriteByte s ea b) fun t => .next (t.setPc (s.pc + 3))

/-- LW (R154). -/
def execLw (rd : Reg) (simm10 : BitVec 10) (rs : Reg) (s : State) : Res :=
  loadWordInto s rd (effectiveAddress (s.reg rs) simm10) 3

/-- LB (R155): the byte sign-extended. -/
def execLb (rd : Reg) (simm10 : BitVec 10) (rs : Reg) (s : State) : Res :=
  loadByteInto s rd (effectiveAddress (s.reg rs) simm10) sext16

/-- LBU (R156): the byte zero-extended. -/
def execLbu (rd : Reg) (simm10 : BitVec 10) (rs : Reg) (s : State) : Res :=
  loadByteInto s rd (effectiveAddress (s.reg rs) simm10) zext16

/-- SW (R157): `rs` is stored, `rd` is the base. -/
def execSw (rs : Reg) (simm10 : BitVec 10) (rd : Reg) (s : State) : Res :=
  storeWordAt s (effectiveAddress (s.reg rd) simm10) (s.reg rs) 3

/-- SB (R158): the low byte of `rs` is stored, `rd` is the base. -/
def execSb (rs : Reg) (simm10 : BitVec 10) (rd : Reg) (s : State) : Res :=
  storeByteAt s (effectiveAddress (s.reg rd) simm10) ((s.reg rs).extractLsb' 0 8)

end Sys2Proof.Machine
end

