-- ==== Sys2Proof/Machine/LoadStore16.lean ====
section
/-! DEFINITION. The 16-bit stack-pointer loads and stores, and NOP (45_loadstore16_misc.md). Flags: none (R28). -/

namespace Sys2Proof.Machine

/-- LWSP (R192); the address uses the old sp. -/
def execLwsp (rd : Reg) (uimm7 : BitVec 7) (s : State) : Res :=
  loadWordInto s rd (spAddress (s.reg Reg.sp) uimm7) 2

/-- SWSP (R193). -/
def execSwsp (rs : Reg) (uimm7 : BitVec 7) (s : State) : Res :=
  storeWordAt s (spAddress (s.reg Reg.sp) uimm7) (s.reg rs) 2

/-- NOP (R194). -/
def execNop (s : State) : Res :=
  .next (s.setPc (s.pc + 2))

end Sys2Proof.Machine
end

