-- ==== Sys2Proof/Syntax.lean ====
section
/-! DEFINITION. The instructions of CAHPv3: one constructor for each of the 52 rows of
spec/opcode_table.json, operands in the order of the assembly syntax (R95). -/

namespace Sys2Proof

/-- An instruction. Register operands are numbers 0 to 15; an immediate is the value of its field
(R87, R97), as wide as its name says. -/
inductive Instr where
  -- format R24 (R73)
  | add (rd rs1 rs2 : Reg)
  | sub (rd rs1 rs2 : Reg)
  | and (rd rs1 rs2 : Reg)
  | xor (rd rs1 rs2 : Reg)
  | or (rd rs1 rs2 : Reg)
  | lsl (rd rs1 rs2 : Reg)
  | lsr (rd rs1 rs2 : Reg)
  | asr (rd rs1 rs2 : Reg)
  -- format I24 (R74)
  | addi (rd rs1 : Reg) (simm10 : BitVec 10)
  | andi (rd rs1 : Reg) (simm10 : BitVec 10)
  | xori (rd rs1 : Reg) (simm10 : BitVec 10)
  | ori (rd rs1 : Reg) (simm10 : BitVec 10)
  | li (rd : Reg) (simm10 : BitVec 10)
  -- format S24 (R75)
  | lsli (rd rs1 : Reg) (uimm4 : BitVec 4)
  | lsri (rd rs1 : Reg) (uimm4 : BitVec 4)
  | asri (rd rs1 : Reg) (uimm4 : BitVec 4)
  -- format B24 (R76)
  | beq (rs1 rs2 : Reg) (simm10 : BitVec 10)
  | bne (rs1 rs2 : Reg) (simm10 : BitVec 10)
  | blt (rs1 rs2 : Reg) (simm10 : BitVec 10)
  | bltu (rs1 rs2 : Reg) (simm10 : BitVec 10)
  | ble (rs1 rs2 : Reg) (simm10 : BitVec 10)
  | bleu (rs1 rs2 : Reg) (simm10 : BitVec 10)
  -- format J24 (R79)
  | j (simm16 : BitVec 16)
  | jal (simm16 : BitVec 16)
  -- format L24 (R77)
  | lw (rd : Reg) (simm10 : BitVec 10) (rs : Reg)
  | lb (rd : Reg) (simm10 : BitVec 10) (rs : Reg)
  | lbu (rd : Reg) (simm10 : BitVec 10) (rs : Reg)
  -- format M24 (R78): `rs` is the register stored, `rd` the base
  | sw (rs : Reg) (simm10 : BitVec 10) (rd : Reg)
  | sb (rs : Reg) (simm10 : BitVec 10) (rd : Reg)
  -- format R16 (R80)
  | mov (rd rs : Reg)
  | add2 (rd rs : Reg)
  | sub2 (rd rs : Reg)
  | and2 (rd rs : Reg)
  | xor2 (rd rs : Reg)
  | or2 (rd rs : Reg)
  | lsl2 (rd rs : Reg)
  | lsr2 (rd rs : Reg)
  | asr2 (rd rs : Reg)
  -- format I16 (R81)
  | addi2 (rd : Reg) (simm6 : BitVec 6)
  | andi2 (rd : Reg) (simm6 : BitVec 6)
  | lsi (rd : Reg) (simm6 : BitVec 6)
  | lui (rd : Reg) (simm6 : BitVec 6)
  -- format S16 (R82)
  | lsli2 (rd : Reg) (uimm4 : BitVec 4)
  | lsri2 (rd : Reg) (uimm4 : BitVec 4)
  | asri2 (rd : Reg) (uimm4 : BitVec 4)
  -- format JR16 (R83)
  | jalr (rs : Reg)
  | jr (rs : Reg)
  -- format JS16 (R84)
  | js (simm11 : BitVec 11)
  | jsal (simm11 : BitVec 11)
  -- format SP16 (R85)
  | lwsp (rd : Reg) (uimm7 : BitVec 7)
  | swsp (rs : Reg) (uimm7 : BitVec 7)
  -- format N16 (R86)
  | nop
  deriving DecidableEq, Repr

/-- `len` of R13: the length in bytes of an instruction (R70). -/
def Instr.length : Instr → Nat
  | .add .. | .sub .. | .and .. | .xor .. | .or .. | .lsl .. | .lsr .. | .asr .. => 3
  | .addi .. | .andi .. | .xori .. | .ori .. | .li .. | .lsli .. | .lsri .. | .asri .. => 3
  | .beq .. | .bne .. | .blt .. | .bltu .. | .ble .. | .bleu .. | .j .. | .jal .. => 3
  | .lw .. | .lb .. | .lbu .. | .sw .. | .sb .. => 3
  | .mov .. | .add2 .. | .sub2 .. | .and2 .. | .xor2 .. | .or2 .. | .lsl2 .. | .lsr2 .. | .asr2 .. => 2
  | .addi2 .. | .andi2 .. | .lsi .. | .lui .. | .lsli2 .. | .lsri2 .. | .asri2 .. => 2
  | .jalr .. | .jr .. | .js .. | .jsal .. | .lwsp .. | .swsp .. | .nop => 2

end Sys2Proof
end

