-- ==== Sys2Proof/Machine/Dispatch.lean ====
section
/-! DEFINITION. The meaning of every instruction: one arm for each constructor. -/

namespace Sys2Proof.Machine

/-- What a decoded instruction does, the pc holding its own address (R25). -/
def exec (i : Instr) (s : State) : Host.Outcome State Fault Refusal :=
  match i with
  | .add rd rs1 rs2 => Sys2Proof.Machine.execAdd rd rs1 rs2 s
  | .sub rd rs1 rs2 => Sys2Proof.Machine.execSub rd rs1 rs2 s
  | .and rd rs1 rs2 => Sys2Proof.Machine.execAnd rd rs1 rs2 s
  | .xor rd rs1 rs2 => Sys2Proof.Machine.execXor rd rs1 rs2 s
  | .or rd rs1 rs2 => Sys2Proof.Machine.execOr rd rs1 rs2 s
  | .lsl rd rs1 rs2 => Sys2Proof.Machine.execLsl rd rs1 rs2 s
  | .lsr rd rs1 rs2 => Sys2Proof.Machine.execLsr rd rs1 rs2 s
  | .asr rd rs1 rs2 => Sys2Proof.Machine.execAsr rd rs1 rs2 s
  | .addi rd rs1 simm10 => Sys2Proof.Machine.execAddi rd rs1 simm10 s
  | .andi rd rs1 simm10 => Sys2Proof.Machine.execAndi rd rs1 simm10 s
  | .xori rd rs1 simm10 => Sys2Proof.Machine.execXori rd rs1 simm10 s
  | .ori rd rs1 simm10 => Sys2Proof.Machine.execOri rd rs1 simm10 s
  | .li rd simm10 => Sys2Proof.Machine.execLi rd simm10 s
  | .lsli rd rs1 uimm4 => Sys2Proof.Machine.execLsli rd rs1 uimm4 s
  | .lsri rd rs1 uimm4 => Sys2Proof.Machine.execLsri rd rs1 uimm4 s
  | .asri rd rs1 uimm4 => Sys2Proof.Machine.execAsri rd rs1 uimm4 s
  | .beq rs1 rs2 simm10 => Sys2Proof.Machine.execBeq rs1 rs2 simm10 s
  | .bne rs1 rs2 simm10 => Sys2Proof.Machine.execBne rs1 rs2 simm10 s
  | .blt rs1 rs2 simm10 => Sys2Proof.Machine.execBlt rs1 rs2 simm10 s
  | .bltu rs1 rs2 simm10 => Sys2Proof.Machine.execBltu rs1 rs2 simm10 s
  | .ble rs1 rs2 simm10 => Sys2Proof.Machine.execBle rs1 rs2 simm10 s
  | .bleu rs1 rs2 simm10 => Sys2Proof.Machine.execBleu rs1 rs2 simm10 s
  | .j simm16 => Sys2Proof.Machine.execJ simm16 s
  | .jal simm16 => Sys2Proof.Machine.execJal simm16 s
  | .lw rd simm10 rs => Sys2Proof.Machine.execLw rd simm10 rs s
  | .lb rd simm10 rs => Sys2Proof.Machine.execLb rd simm10 rs s
  | .lbu rd simm10 rs => Sys2Proof.Machine.execLbu rd simm10 rs s
  | .sw rs simm10 rd => Sys2Proof.Machine.execSw rs simm10 rd s
  | .sb rs simm10 rd => Sys2Proof.Machine.execSb rs simm10 rd s
  | .mov rd rs => Sys2Proof.Machine.execMov rd rs s
  | .add2 rd rs => Sys2Proof.Machine.execAdd2 rd rs s
  | .sub2 rd rs => Sys2Proof.Machine.execSub2 rd rs s
  | .and2 rd rs => Sys2Proof.Machine.execAnd2 rd rs s
  | .xor2 rd rs => Sys2Proof.Machine.execXor2 rd rs s
  | .or2 rd rs => Sys2Proof.Machine.execOr2 rd rs s
  | .lsl2 rd rs => Sys2Proof.Machine.execLsl2 rd rs s
  | .lsr2 rd rs => Sys2Proof.Machine.execLsr2 rd rs s
  | .asr2 rd rs => Sys2Proof.Machine.execAsr2 rd rs s
  | .addi2 rd simm6 => Sys2Proof.Machine.execAddi2 rd simm6 s
  | .andi2 rd simm6 => Sys2Proof.Machine.execAndi2 rd simm6 s
  | .lsi rd simm6 => Sys2Proof.Machine.execLsi rd simm6 s
  | .lui rd simm6 => Sys2Proof.Machine.execLui rd simm6 s
  | .lsli2 rd uimm4 => Sys2Proof.Machine.execLsli2 rd uimm4 s
  | .lsri2 rd uimm4 => Sys2Proof.Machine.execLsri2 rd uimm4 s
  | .asri2 rd uimm4 => Sys2Proof.Machine.execAsri2 rd uimm4 s
  | .jalr rs => Sys2Proof.Machine.execJalr rs s
  | .jr rs => Sys2Proof.Machine.execJr rs s
  | .js simm11 => Sys2Proof.Machine.execJs simm11 s
  | .jsal simm11 => Sys2Proof.Machine.execJsal simm11 s
  | .lwsp rd uimm7 => Sys2Proof.Machine.execLwsp rd uimm7 s
  | .swsp rs uimm7 => Sys2Proof.Machine.execSwsp rs uimm7 s
  | .nop => Sys2Proof.Machine.execNop s

end Sys2Proof.Machine
end

