-- ==== Sys2Proof/WellFormed.lean ====
section
/-! DEFINITION. Which launch parameters are legal, and which instructions can stand in a program
under them. -/

namespace Sys2Proof

/-- The six bits an `SbOpcode` stands for (D13). -/
def SbOpcode.bits : SbOpcode → BitVec 6
  | .b000111 => 0b000111
  | .b001011 => 0b001011
  | .b011101 => 0b011101
  | .b100111 => 0b100111
  | .b101101 => 0b101101
  | .b111101 => 0b111101

/-- The six unused odd 6-bit opcode values (R91). -/
def unusedOpcodes6 : List (BitVec 6) :=
  [0b000111, 0b001011, 0b011101, 0b100111, 0b101101, 0b111101]

/-- The low six opcode bits of the rows whose opcode has 8 bits, bits 7:6 being `00` (R89). -/
def opcodes8Low6 : List (BitVec 6) :=
  [0b000001, 0b001001, 0b010001, 0b011001, 0b100001, 0b101001, 0b110001, 0b111001,
   0b101011, 0b110011, 0b111011]

/-- An 8-bit value `inst[7:0]` of a 24-bit word that no decodable row of the table uses: all words
that end in it are reserved encodings (R91), so it can be `J_OPCODE` or `JAL_OPCODE`. -/
def opcode8Free (o : BitVec 8) : Bool :=
  unusedOpcodes6.contains (o.extractLsb' 0 6)
    || (opcodes8Low6.contains (o.extractLsb' 0 6) && o.extractLsb' 6 2 != 0)

/-- A supplied `J_OPCODE` or `JAL_OPCODE` leaves the opcode map unambiguous (R99, R140): it uses no
decodable row's words and not SB's. -/
def Params.openOpcodeWf (p : Params) (o : BitVec 8) : Bool :=
  opcode8Free o && (p.sbOpcode.map SbOpcode.bits != some (o.extractLsb' 0 6))

/-- Legal launch parameters: sizes 1 to 65536 (R42), a code range that is a range (R41), open opcodes
that collide with nothing (R99). -/
def Params.wf (p : Params) : Bool :=
  decide (1 ≤ p.imemSize ∧ p.imemSize ≤ 65536)
    && decide (1 ≤ p.dmemSize ∧ p.dmemSize ≤ 65536)
    && (match p.memOrg with
        | .harvard => true
        | .unified lo hi => decide (lo.toNat ≤ hi.toNat ∧ hi.toNat < p.dmemSize))
    && (match p.jOpcode with | none => true | some o => p.openOpcodeWf o)
    && (match p.jalOpcode with | none => true | some o => p.openOpcodeWf o)
    && (p.jOpcode.isNone || p.jOpcode != p.jalOpcode)

/-- The instruction can stand in a program: an odd `uimm7` "cannot be encoded" (R97), and SB, J, JAL
have a word only when the launch supplies their opcode (R158, R140, R141). Every other operand is
in range by its type. -/
def Instr.wf (p : Params) : Instr → Bool
  | .lwsp _ uimm7 => !uimm7.getLsbD 0
  | .swsp _ uimm7 => !uimm7.getLsbD 0
  | .sb _ _ _ => p.sbOpcode.isSome
  | .j _ => p.jOpcode.isSome
  | .jal _ => p.jalOpcode.isSome
  | .add .. | .sub .. | .and .. | .xor .. | .or .. | .lsl .. | .lsr .. | .asr .. => true
  | .addi .. | .andi .. | .xori .. | .ori .. | .li .. | .lsli .. | .lsri .. | .asri .. => true
  | .beq .. | .bne .. | .blt .. | .bltu .. | .ble .. | .bleu .. => true
  | .lw .. | .lb .. | .lbu .. | .sw .. => true
  | .mov .. | .add2 .. | .sub2 .. | .and2 .. | .xor2 .. | .or2 .. | .lsl2 .. | .lsr2 .. | .asr2 .. => true
  | .addi2 .. | .andi2 .. | .lsi .. | .lui .. | .lsli2 .. | .lsri2 .. | .asri2 .. => true
  | .jalr .. | .jr .. | .js .. | .jsal .. | .nop => true

end Sys2Proof
end

