-- ==== Sys2Proof/Decode.lean ====
section
/-! DEFINITION. The decoder and the encoder of CAHPv3 (30_encoding.md), both written from the formats
R73 to R86 and the opcode maps R89 and R90. The decoder is total on any bytes: a word no row
matches is rejected as reserved (R91, R92), a byte stream that ends too early as truncated. -/

namespace Sys2Proof

/-- The masks and matches of the decodable 24-bit rows of spec/opcode_table.json, in its order (R88). -/
def rows24 : List (BitVec 24 × BitVec 24) :=
  [(0xF000FF, 0x000001),  -- ADD (R110)
   (0xF000FF, 0x000009),  -- SUB (R111)
   (0xF000FF, 0x000011),  -- AND (R112)
   (0xF000FF, 0x000019),  -- XOR (R113)
   (0xF000FF, 0x000021),  -- OR (R114)
   (0xF000FF, 0x000029),  -- LSL (R115)
   (0xF000FF, 0x000031),  -- LSR (R116)
   (0xF000FF, 0x000039),  -- ASR (R117)
   (0x00003F, 0x000003),  -- ADDI (R118)
   (0x00003F, 0x000013),  -- ANDI (R119)
   (0x00003F, 0x00001B),  -- XORI (R120)
   (0x00003F, 0x000023),  -- ORI (R121)
   (0x00F03F, 0x000035),  -- LI (R122)
   (0xF000FF, 0x00002B),  -- LSLI (R123)
   (0xF000FF, 0x000033),  -- LSRI (R124)
   (0xF000FF, 0x00003B),  -- ASRI (R125)
   (0x00003F, 0x00000F),  -- BEQ (R134)
   (0x00003F, 0x00002F),  -- BNE (R135)
   (0x00003F, 0x000037),  -- BLT (R136)
   (0x00003F, 0x000017),  -- BLTU (R137)
   (0x00003F, 0x00003F),  -- BLE (R138)
   (0x00003F, 0x00001F),  -- BLEU (R139)
   (0x00003F, 0x000015),  -- LW (R154)
   (0x00003F, 0x000025),  -- LB (R155)
   (0x00003F, 0x000005),  -- LBU (R156)
   (0x00003F, 0x00000D)]  -- SW (R157)

/-- The masks and matches of the 16-bit rows of spec/opcode_table.json, in its order (R88). -/
def rows16 : List (BitVec 16 × BitVec 16) :=
  [(0x00FF, 0x00C0),  -- MOV (R164)
   (0x00FF, 0x0080),  -- ADD2 (R165)
   (0x00FF, 0x0088),  -- SUB2 (R166)
   (0x00FF, 0x0090),  -- AND2 (R167)
   (0x00FF, 0x0098),  -- XOR2 (R168)
   (0x00FF, 0x00A0),  -- OR2 (R169)
   (0x00FF, 0x00A8),  -- LSL2 (R170)
   (0x00FF, 0x00B0),  -- LSR2 (R171)
   (0x00FF, 0x00B8),  -- ASR2 (R172)
   (0x003F, 0x0002),  -- ADDI2 (R173)
   (0x003F, 0x0012),  -- ANDI2 (R174)
   (0x003F, 0x0034),  -- LSI (R175)
   (0x003F, 0x0004),  -- LUI (R176)
   (0x00FF, 0x002A),  -- LSLI2 (R177)
   (0x00FF, 0x0032),  -- LSRI2 (R178)
   (0x00FF, 0x003A),  -- ASRI2 (R179)
   (0xF0FF, 0x0016),  -- JALR (R184)
   (0xF0FF, 0x0006),  -- JR (R185)
   (0x001F, 0x000E),  -- JS (R186)
   (0x001F, 0x001E),  -- JSAL (R187)
   (0x003F, 0x0014),  -- LWSP (R192)
   (0x003F, 0x001C),  -- SWSP (R193)
   (0xFFFF, 0x0000)]  -- NOP (R194)

/-- The register a 4-bit field names (R20). -/
def regOf (f : BitVec 4) : Reg := f.toFin

/-- The 4-bit field that names a register (R20). -/
def regBits (r : Reg) : BitVec 4 := BitVec.ofFin r

/-- `simm10 = {inst[7:6], inst[23:16]}` (R87), `d` and `c` being `inst[23:20]` and `inst[19:16]`. -/
def simm10Of (hi : BitVec 2) (d c : BitVec 4) : BitVec 10 := hi ++ d ++ c

/-- `simm6 = {inst[7:6], inst[15:12]}` (R87). -/
def simm6Of (hi : BitVec 2) (b : BitVec 4) : BitVec 6 := hi ++ b

/-- `uimm7 = {inst[7:6], inst[15:12], 0}` (R85, R87). -/
def uimm7Of (hi : BitVec 2) (b : BitVec 4) : BitVec 7 := hi ++ b ++ 0#1

/-- `simm11 = inst[15:5]` (R84, R87), `top` being `inst[5]`. -/
def simm11Of (b a : BitVec 4) (hi : BitVec 2) (top : BitVec 1) : BitVec 11 := b ++ a ++ hi ++ top

/-- The 24-bit rows of the opcode table (R73 to R78, R89), over the fields of the word:
`d = inst[23:20]`, `c = inst[19:16]`, `b = inst[15:12]`, `a = inst[11:8]`, `hi = inst[7:6]`,
`op = inst[5:0]`. -/
def decodeRow24 (d c b a : BitVec 4) (hi : BitVec 2) (op : BitVec 6) : Option Instr :=
  match op with
  | 0b000001#6 => if hi = 0 ∧ d = 0 then some (.add (regOf a) (regOf b) (regOf c)) else none
  | 0b001001#6 => if hi = 0 ∧ d = 0 then some (.sub (regOf a) (regOf b) (regOf c)) else none
  | 0b010001#6 => if hi = 0 ∧ d = 0 then some (.and (regOf a) (regOf b) (regOf c)) else none
  | 0b011001#6 => if hi = 0 ∧ d = 0 then some (.xor (regOf a) (regOf b) (regOf c)) else none
  | 0b100001#6 => if hi = 0 ∧ d = 0 then some (.or (regOf a) (regOf b) (regOf c)) else none
  | 0b101001#6 => if hi = 0 ∧ d = 0 then some (.lsl (regOf a) (regOf b) (regOf c)) else none
  | 0b110001#6 => if hi = 0 ∧ d = 0 then some (.lsr (regOf a) (regOf b) (regOf c)) else none
  | 0b111001#6 => if hi = 0 ∧ d = 0 then some (.asr (regOf a) (regOf b) (regOf c)) else none
  | 0b000011#6 => some (.addi (regOf a) (regOf b) (simm10Of hi d c))
  | 0b010011#6 => some (.andi (regOf a) (regOf b) (simm10Of hi d c))
  | 0b011011#6 => some (.xori (regOf a) (regOf b) (simm10Of hi d c))
  | 0b100011#6 => some (.ori (regOf a) (regOf b) (simm10Of hi d c))
  | 0b110101#6 => if b = 0 then some (.li (regOf a) (simm10Of hi d c)) else none
  | 0b101011#6 => if hi = 0 ∧ d = 0 then some (.lsli (regOf a) (regOf b) c) else none
  | 0b110011#6 => if hi = 0 ∧ d = 0 then some (.lsri (regOf a) (regOf b) c) else none
  | 0b111011#6 => if hi = 0 ∧ d = 0 then some (.asri (regOf a) (regOf b) c) else none
  | 0b001111#6 => some (.beq (regOf b) (regOf a) (simm10Of hi d c))
  | 0b101111#6 => some (.bne (regOf b) (regOf a) (simm10Of hi d c))
  | 0b110111#6 => some (.blt (regOf b) (regOf a) (simm10Of hi d c))
  | 0b010111#6 => some (.bltu (regOf b) (regOf a) (simm10Of hi d c))
  | 0b111111#6 => some (.ble (regOf b) (regOf a) (simm10Of hi d c))
  | 0b011111#6 => some (.bleu (regOf b) (regOf a) (simm10Of hi d c))
  | 0b010101#6 => some (.lw (regOf a) (simm10Of hi d c) (regOf b))
  | 0b100101#6 => some (.lb (regOf a) (simm10Of hi d c) (regOf b))
  | 0b000101#6 => some (.lbu (regOf a) (simm10Of hi d c) (regOf b))
  | 0b001101#6 => some (.sw (regOf a) (simm10Of hi d c) (regOf b))
  | _ => none

/-- SB, J and JAL, when the launch supplies their opcodes (R158, R140, R141; the layout of J and JAL
is R79's probable one, log 13). Without them these words are reserved. -/
def decodeOpen24 (p : Params) (d c b a : BitVec 4) (hi : BitVec 2) (op : BitVec 6) : Option Instr :=
  if p.sbOpcode.map SbOpcode.bits = some op then some (.sb (regOf a) (simm10Of hi d c) (regOf b))
  else if p.jOpcode = some (hi ++ op) then some (.j (d ++ c ++ b ++ a))
  else if p.jalOpcode = some (hi ++ op) then some (.jal (d ++ c ++ b ++ a))
  else none

/-- Decode over the fields of a 24-bit word: the table's rows first, so that no open opcode takes a
row's word (R99). -/
def decodeFields24 (p : Params) (d c b a : BitVec 4) (hi : BitVec 2) (op : BitVec 6) : Option Instr :=
  (decodeRow24 d c b a hi op).or (decodeOpen24 p d c b a hi op)

/-- The 16-bit rows of the opcode table (R80 to R86, R90), over the fields of the word:
`b = inst[15:12]`, `a = inst[11:8]`, `hi = inst[7:6]`, `op = inst[5:0]`. -/
def decodeFields16 (b a : BitVec 4) (hi : BitVec 2) (op : BitVec 6) : Option Instr :=
  match op with
  | 0b000000#6 =>
    if hi = 0b11 then some (.mov (regOf a) (regOf b))
    else if hi = 0b10 then some (.add2 (regOf a) (regOf b))
    else if b = 0 ∧ a = 0 ∧ hi = 0 then some .nop
    else none
  | 0b001000#6 => if hi = 0b10 then some (.sub2 (regOf a) (regOf b)) else none
  | 0b010000#6 => if hi = 0b10 then some (.and2 (regOf a) (regOf b)) else none
  | 0b011000#6 => if hi = 0b10 then some (.xor2 (regOf a) (regOf b)) else none
  | 0b100000#6 => if hi = 0b10 then some (.or2 (regOf a) (regOf b)) else none
  | 0b101000#6 => if hi = 0b10 then some (.lsl2 (regOf a) (regOf b)) else none
  | 0b110000#6 => if hi = 0b10 then some (.lsr2 (regOf a) (regOf b)) else none
  | 0b111000#6 => if hi = 0b10 then some (.asr2 (regOf a) (regOf b)) else none
  | 0b000010#6 => some (.addi2 (regOf a) (simm6Of hi b))
  | 0b010010#6 => some (.andi2 (regOf a) (simm6Of hi b))
  | 0b110100#6 => some (.lsi (regOf a) (simm6Of hi b))
  | 0b000100#6 => some (.lui (regOf a) (simm6Of hi b))
  | 0b101010#6 => if hi = 0 then some (.lsli2 (regOf a) b) else none
  | 0b110010#6 => if hi = 0 then some (.lsri2 (regOf a) b) else none
  | 0b111010#6 => if hi = 0 then some (.asri2 (regOf a) b) else none
  | 0b010110#6 => if hi = 0 ∧ b = 0 then some (.jalr (regOf a)) else none
  | 0b000110#6 => if hi = 0 ∧ b = 0 then some (.jr (regOf a)) else none
  | 0b001110#6 => some (.js (simm11Of b a hi 0))
  | 0b101110#6 => some (.js (simm11Of b a hi 1))
  | 0b011110#6 => some (.jsal (simm11Of b a hi 0))
  | 0b111110#6 => some (.jsal (simm11Of b a hi 1))
  | 0b010100#6 => some (.lwsp (regOf a) (uimm7Of hi b))
  | 0b011100#6 => some (.swsp (regOf a) (uimm7Of hi b))
  | _ => none

/-- Decode of a 24-bit word (R88). -/
def decode24 (p : Params) (w : BitVec 24) : Option Instr :=
  decodeFields24 p (w.extractLsb' 20 4) (w.extractLsb' 16 4) (w.extractLsb' 12 4)
    (w.extractLsb' 8 4) (w.extractLsb' 6 2) (w.extractLsb' 0 6)

/-- Decode of a 16-bit word (R88). -/
def decode16 (w : BitVec 16) : Option Instr :=
  decodeFields16 (w.extractLsb' 12 4) (w.extractLsb' 8 4) (w.extractLsb' 6 2) (w.extractLsb' 0 6)

/-- Decode of a fetched word (R88); `none` is a reserved encoding (R91). -/
def decodeWord (p : Params) : InstWord → Option Instr
  | .half w => decode16 w
  | .full w => decode24 p w

/-- Why a byte stream is no instruction. -/
inductive DecodeError where
  /-- The stream ends before the instruction its first byte announces does. -/
  | truncated
  /-- No row matches the word: a reserved encoding (R91, R92). -/
  | reserved (w : InstWord)
  deriving DecidableEq, Repr

/-- The length in bytes that the first byte tells: its bit 0 is 0 for 16 bits, 1 for 24 bits (R72). -/
def lengthOfFirstByte (b0 : Byte) : Nat := if b0.getLsbD 0 then 3 else 2

/-- Two bytes as a 16-bit instruction word, lowest address first (R45, R55). -/
def halfOfBytes (b0 b1 : Byte) : InstWord := .half (b1 ++ b0)

/-- Three bytes as a 24-bit instruction word, lowest address first (R45, R55). -/
def fullOfBytes (b0 b1 b2 : Byte) : InstWord := .full (b2 ++ b1 ++ b0)

/-- The bytes of an instruction word as they lie in instruction memory, lowest address first (R45). -/
def InstWord.bytes : InstWord → List Byte
  | .half w => [w.extractLsb' 0 8, w.extractLsb' 8 8]
  | .full w => [w.extractLsb' 0 8, w.extractLsb' 8 8, w.extractLsb' 16 8]

/-- The word's own bit 0 tells its length (R72): a fetch produces no other word. -/
def InstWord.lengthBitOk : InstWord → Bool
  | .half w => !w.getLsbD 0
  | .full w => w.getLsbD 0

/-- One instruction from a byte stream: the instruction and the rest of the stream, or why not. -/
def decodeBytes (p : Params) : List Byte → Except DecodeError (Instr × List Byte)
  | b0 :: b1 :: rest =>
    if b0.getLsbD 0 then
      match rest with
      | b2 :: rest' =>
        match decodeWord p (fullOfBytes b0 b1 b2) with
        | some i => .ok (i, rest')
        | none => .error (.reserved (fullOfBytes b0 b1 b2))
      | [] => .error .truncated
    else
      match decodeWord p (halfOfBytes b0 b1) with
      | some i => .ok (i, rest)
      | none => .error (.reserved (halfOfBytes b0 b1))
  | _ => .error .truncated

/-- A table word's three bytes, lowest first: the bits of `w` below `nbits`, zeros above. -/
def tableBytes (nbits w : Nat) : List Byte :=
  let n := w % 2 ^ nbits
  [BitVec.ofNat 8 n, BitVec.ofNat 8 (n / 256), BitVec.ofNat 8 (n / 65536)]

/-- The instruction the decoder reads from a word numbered as spec/opcode_table.json numbers it,
under the default parameters (no open opcode supplied). -/
def decodeTableWord (nbits w : Nat) : Option Instr :=
  match decodeBytes Params.default (tableBytes nbits w) with
  | .ok (i, _) => some i
  | .error _ => none

/-! ## The encoder, from the same formats -/

/-- A 24-bit word from its fields, `inst[23:20]` first. -/
def word24 (d c b a : BitVec 4) (hi : BitVec 2) (op : BitVec 6) : InstWord :=
  .full (d ++ c ++ b ++ a ++ hi ++ op)

/-- A 16-bit word from its fields, `inst[15:12]` first. -/
def word16 (b a : BitVec 4) (hi : BitVec 2) (op : BitVec 6) : InstWord :=
  .half (b ++ a ++ hi ++ op)

/-- Format R24 (R73); the opcode's bits 7:6 are 0. -/
def encodeR24 (op : BitVec 6) (rd rs1 rs2 : Reg) : InstWord :=
  word24 0 (regBits rs2) (regBits rs1) (regBits rd) 0 op

/-- The formats with a `simm10` (I24, B24, L24, M24: R74, R76 to R78), `f15` and `f11` being the
fields at 15:12 and 11:8. -/
def encodeImm24 (op : BitVec 6) (f15 f11 : BitVec 4) (simm10 : BitVec 10) : InstWord :=
  word24 (simm10.extractLsb' 4 4) (simm10.extractLsb' 0 4) f15 f11 (simm10.extractLsb' 8 2) op

/-- Format S24 (R75). -/
def encodeS24 (op : BitVec 6) (rd rs1 : Reg) (uimm4 : BitVec 4) : InstWord :=
  word24 0 uimm4 (regBits rs1) (regBits rd) 0 op

/-- Format J24 in R79's probable layout. -/
def encodeJ24 (opcode : BitVec 8) (simm16 : BitVec 16) : InstWord :=
  word24 (simm16.extractLsb' 12 4) (simm16.extractLsb' 8 4) (simm16.extractLsb' 4 4)
    (simm16.extractLsb' 0 4) (opcode.extractLsb' 6 2) (opcode.extractLsb' 0 6)

/-- Format R16 (R80), `hi` being the opcode's bits 7:6. -/
def encodeR16 (hi : BitVec 2) (op : BitVec 6) (rd rs : Reg) : InstWord :=
  word16 (regBits rs) (regBits rd) hi op

/-- Format I16 (R81). -/
def encodeI16 (op : BitVec 6) (rd : Reg) (simm6 : BitVec 6) : InstWord :=
  word16 (simm6.extractLsb' 0 4) (regBits rd) (simm6.extractLsb' 4 2) op

/-- Format S16 (R82). -/
def encodeS16 (op : BitVec 6) (rd : Reg) (uimm4 : BitVec 4) : InstWord :=
  word16 uimm4 (regBits rd) 0 op

/-- Format JR16 (R83). -/
def encodeJR16 (op : BitVec 6) (rs : Reg) : InstWord :=
  word16 0 (regBits rs) 0 op

/-- Format JS16 (R84), the opcode having 5 bits. -/
def encodeJS16 (op5 : BitVec 5) (simm11 : BitVec 11) : InstWord :=
  word16 (simm11.extractLsb' 7 4) (simm11.extractLsb' 3 4) (simm11.extractLsb' 1 2)
    (simm11.extractLsb' 0 1 ++ op5)

/-- Format SP16 (R85): bit 0 of `uimm7` is not encoded. -/
def encodeSP16 (op : BitVec 6) (r : Reg) (uimm7 : BitVec 7) : InstWord :=
  word16 (uimm7.extractLsb' 1 4) (regBits r) (uimm7.extractLsb' 5 2) op

/-- The word of an instruction (R89, R90); `none` where the instruction has none: SB, J or JAL without
its opcode, an odd `uimm7` (R97). -/
def encode (p : Params) : Instr → Option InstWord
  | .add rd rs1 rs2 => some (encodeR24 0b000001 rd rs1 rs2)
  | .sub rd rs1 rs2 => some (encodeR24 0b001001 rd rs1 rs2)
  | .and rd rs1 rs2 => some (encodeR24 0b010001 rd rs1 rs2)
  | .xor rd rs1 rs2 => some (encodeR24 0b011001 rd rs1 rs2)
  | .or rd rs1 rs2 => some (encodeR24 0b100001 rd rs1 rs2)
  | .lsl rd rs1 rs2 => some (encodeR24 0b101001 rd rs1 rs2)
  | .lsr rd rs1 rs2 => some (encodeR24 0b110001 rd rs1 rs2)
  | .asr rd rs1 rs2 => some (encodeR24 0b111001 rd rs1 rs2)
  | .addi rd rs1 simm10 => some (encodeImm24 0b000011 (regBits rs1) (regBits rd) simm10)
  | .andi rd rs1 simm10 => some (encodeImm24 0b010011 (regBits rs1) (regBits rd) simm10)
  | .xori rd rs1 simm10 => some (encodeImm24 0b011011 (regBits rs1) (regBits rd) simm10)
  | .ori rd rs1 simm10 => some (encodeImm24 0b100011 (regBits rs1) (regBits rd) simm10)
  | .li rd simm10 => some (encodeImm24 0b110101 0 (regBits rd) simm10)
  | .lsli rd rs1 uimm4 => some (encodeS24 0b101011 rd rs1 uimm4)
  | .lsri rd rs1 uimm4 => some (encodeS24 0b110011 rd rs1 uimm4)
  | .asri rd rs1 uimm4 => some (encodeS24 0b111011 rd rs1 uimm4)
  | .beq rs1 rs2 simm10 => some (encodeImm24 0b001111 (regBits rs1) (regBits rs2) simm10)
  | .bne rs1 rs2 simm10 => some (encodeImm24 0b101111 (regBits rs1) (regBits rs2) simm10)
  | .blt rs1 rs2 simm10 => some (encodeImm24 0b110111 (regBits rs1) (regBits rs2) simm10)
  | .bltu rs1 rs2 simm10 => some (encodeImm24 0b010111 (regBits rs1) (regBits rs2) simm10)
  | .ble rs1 rs2 simm10 => some (encodeImm24 0b111111 (regBits rs1) (regBits rs2) simm10)
  | .bleu rs1 rs2 simm10 => some (encodeImm24 0b011111 (regBits rs1) (regBits rs2) simm10)
  | .j simm16 => p.jOpcode.map (encodeJ24 · simm16)
  | .jal simm16 => p.jalOpcode.map (encodeJ24 · simm16)
  | .lw rd simm10 rs => some (encodeImm24 0b010101 (regBits rs) (regBits rd) simm10)
  | .lb rd simm10 rs => some (encodeImm24 0b100101 (regBits rs) (regBits rd) simm10)
  | .lbu rd simm10 rs => some (encodeImm24 0b000101 (regBits rs) (regBits rd) simm10)
  | .sw rs simm10 rd => some (encodeImm24 0b001101 (regBits rd) (regBits rs) simm10)
  | .sb rs simm10 rd => p.sbOpcode.map (fun o => encodeImm24 o.bits (regBits rd) (regBits rs) simm10)
  | .mov rd rs => some (encodeR16 0b11 0b000000 rd rs)
  | .add2 rd rs => some (encodeR16 0b10 0b000000 rd rs)
  | .sub2 rd rs => some (encodeR16 0b10 0b001000 rd rs)
  | .and2 rd rs => some (encodeR16 0b10 0b010000 rd rs)
  | .xor2 rd rs => some (encodeR16 0b10 0b011000 rd rs)
  | .or2 rd rs => some (encodeR16 0b10 0b100000 rd rs)
  | .lsl2 rd rs => some (encodeR16 0b10 0b101000 rd rs)
  | .lsr2 rd rs => some (encodeR16 0b10 0b110000 rd rs)
  | .asr2 rd rs => some (encodeR16 0b10 0b111000 rd rs)
  | .addi2 rd simm6 => some (encodeI16 0b000010 rd simm6)
  | .andi2 rd simm6 => some (encodeI16 0b010010 rd simm6)
  | .lsi rd simm6 => some (encodeI16 0b110100 rd simm6)
  | .lui rd simm6 => some (encodeI16 0b000100 rd simm6)
  | .lsli2 rd uimm4 => some (encodeS16 0b101010 rd uimm4)
  | .lsri2 rd uimm4 => some (encodeS16 0b110010 rd uimm4)
  | .asri2 rd uimm4 => some (encodeS16 0b111010 rd uimm4)
  | .jalr rs => some (encodeJR16 0b010110 rs)
  | .jr rs => some (encodeJR16 0b000110 rs)
  | .js simm11 => some (encodeJS16 0b01110 simm11)
  | .jsal simm11 => some (encodeJS16 0b11110 simm11)
  | .lwsp rd uimm7 => if uimm7.getLsbD 0 then none else some (encodeSP16 0b010100 rd uimm7)
  | .swsp rs uimm7 => if uimm7.getLsbD 0 then none else some (encodeSP16 0b011100 rs uimm7)
  | .nop => some (word16 0 0 0 0)

/-- The bytes of an instruction, lowest address first (R45). -/
def encodeBytes (p : Params) (i : Instr) : Option (List Byte) := (encode p i).map InstWord.bytes

end Sys2Proof
end

