-- ==== Sys2Proof/Machine/Fetch.lean ====
section
/-! DEFINITION. Instruction fetch (R55 to R57), the launch that builds the first state of a run (R230), and
the placing of an instruction where fetch reads it. -/

namespace Sys2Proof.Machine

/-- The memory that fetch reads: `IMem`, or the one memory under `unified` (R40, R41). -/
def State.codeMem (s : State) : Memory :=
  match s.params.memOrg with
  | .harvard => s.imem
  | .unified _ _ => s.dmem

/-- The memory that fetch reads, replaced. -/
def State.setCodeMem (s : State) (m : Memory) : State :=
  match s.params.memOrg with
  | .harvard => { s with imem := m }
  | .unified _ _ => { s with dmem := m }

/-- Every byte from `a` on, `n` of them, can be fetched: below the size and below 2^16 with no
wrap-around (R56), and in the code range under `unified` (R41). -/
def fetchable (p : Params) (a n : Nat) : Bool :=
  decide (a + n ≤ 65536) &&
    (match p.memOrg with
     | .harvard => decide (a + n ≤ p.imemSize)
     | .unified lo hi => decide (lo.toNat ≤ a ∧ a + n ≤ hi.toNat + 1 ∧ a + n ≤ p.dmemSize))

/-- Fetch at the pc (R55). Whatever its length, an instruction has a second byte, so two bytes must be in
range before the first is read; a third when bit 0 of the first says 24 bits (R56, R72, R204). -/
def fetch (s : State) : Except Fault InstWord :=
  let a := s.pc.toNat
  if !fetchable s.params a 2 then .error (.fetchOutOfRange s.pc)
  else match readByteOf s.codeMem a with
    | .error f => .error f
    | .ok b0 =>
      if b0.getLsbD 0 then
        if !fetchable s.params a 3 then .error (.fetchOutOfRange s.pc)
        else match readByteOf s.codeMem (a + 1) with
          | .error f => .error f
          | .ok b1 =>
            match readByteOf s.codeMem (a + 2) with
            | .error f => .error f
            | .ok b2 => .ok (fullOfBytes b0 b1 b2)
      else match readByteOf s.codeMem (a + 1) with
        | .error f => .error f
        | .ok b1 => .ok (halfOfBytes b0 b1)

/-- The launch (R230, R236): pc at `RESET_PC`, no register written, memories set from the two images.
Under `unified` the program image is laid over the data image in the one memory (log 17). Register
values are the model's 0 (log 1). -/
def State.launch (p : Params) (imemInit dmemInit : List Host.Cell) : State where
  regs := Vector.replicate 16 0
  pc := p.resetPc
  dmem :=
    match p.memOrg with
    | .harvard => Memory.load p.dmemSize [] dmemInit
    | .unified _ _ => Memory.load p.dmemSize (Memory.load p.dmemSize [] dmemInit) imemInit
  imem :=
    match p.memOrg with
    | .harvard => Memory.load p.imemSize [] imemInit
    | .unified _ _ => []
  params := p
  written := Vector.replicate 16 false

/-- The bytes placed where the next fetch reads them. -/
def State.placeAtPc (s : State) (bs : List Byte) : State :=
  s.setCodeMem (s.codeMem.place s.pc.toNat bs)

end Sys2Proof.Machine
end

