-- ==== Sys2Proof/Machine/Step.lean ====
section
/-! DEFINITION. One step of the machine: fetch (R55), decode (R88), execute. -/

namespace Sys2Proof.Machine

/-- One step. A word no row matches is refused as `ReservedInstruction(pc, inst)` (R91, R203). -/
def step (s : State) : Host.Outcome State Fault Refusal :=
  match fetch s with
  | .error f => .fault f
  | .ok w =>
    match decodeWord s.params w with
    | none => .refused (.reservedInstruction s.pc w)
    | some i => exec i s

/-- The instruction whose bits are `w` stored where the next step fetches: three bytes from the pc, the
bits above `nbits` zero (log 19). -/
def State.withFetchWord (s : State) (nbits w : Nat) : State := s.placeAtPc (tableBytes nbits w)

end Sys2Proof.Machine
end

