-- ==== Sys2Proof/Safety.lean ====
section
/-! DEFINITION. The terms that claims about runs use: which registers and memory an instruction touches
(R23, R52), which stops it can meet (R203), the strict reading in which an unwritten register stops
the run (R35), the end of a run (R213), the launch premises (R237), the state invariant, frames. -/

namespace Sys2Proof.Machine

/-! ## What an instruction touches -/

/-- The registers an instruction reads, in the order its pseudocode names them (R23, R204). LWSP and
SWSP read sp, which their word does not name; a shift names its distance register first. -/
def reads : Instr → List Reg
  | .add _ rs1 rs2 | .sub _ rs1 rs2 | .and _ rs1 rs2 | .xor _ rs1 rs2 | .or _ rs1 rs2 => [rs1, rs2]
  | .lsl _ rs1 rs2 | .lsr _ rs1 rs2 | .asr _ rs1 rs2 => [rs2, rs1]
  | .addi _ rs1 _ | .andi _ rs1 _ | .xori _ rs1 _ | .ori _ rs1 _ => [rs1]
  | .li _ _ => []
  | .lsli _ rs1 _ | .lsri _ rs1 _ | .asri _ rs1 _ => [rs1]
  | .beq rs1 rs2 _ | .bne rs1 rs2 _ | .blt rs1 rs2 _ | .bltu rs1 rs2 _ | .ble rs1 rs2 _ => [rs1, rs2]
  | .bleu rs1 rs2 _ => [rs1, rs2]
  | .j _ | .jal _ => []
  | .lw _ _ rs | .lb _ _ rs | .lbu _ _ rs => [rs]
  | .sw rs _ rd | .sb rs _ rd => [rd, rs]
  | .mov _ rs => [rs]
  | .add2 rd rs | .sub2 rd rs | .and2 rd rs | .xor2 rd rs | .or2 rd rs => [rd, rs]
  | .lsl2 rd rs | .lsr2 rd rs | .asr2 rd rs => [rs, rd]
  | .addi2 rd _ | .andi2 rd _ => [rd]
  | .lsi _ _ | .lui _ _ => []
  | .lsli2 rd _ | .lsri2 rd _ | .asri2 rd _ => [rd]
  | .jalr rs | .jr rs => [rs]
  | .js _ | .jsal _ => []
  | .lwsp _ _ => [Reg.sp]
  | .swsp rs _ => [Reg.sp, rs]
  | .nop => []

/-- The registers an instruction writes: its destination, and `ra` for JAL, JALR and JSAL, which their
words do not name (R23). -/
def writes : Instr → List Reg
  | .add rd _ _ | .sub rd _ _ | .and rd _ _ | .xor rd _ _ | .or rd _ _ => [rd]
  | .lsl rd _ _ | .lsr rd _ _ | .asr rd _ _ => [rd]
  | .addi rd _ _ | .andi rd _ _ | .xori rd _ _ | .ori rd _ _ => [rd]
  | .li rd _ => [rd]
  | .lsli rd _ _ | .lsri rd _ _ | .asri rd _ _ => [rd]
  | .beq .. | .bne .. | .blt .. | .bltu .. | .ble .. | .bleu .. | .j .. => []
  | .jal _ => [Reg.ra]
  | .lw rd _ _ | .lb rd _ _ | .lbu rd _ _ => [rd]
  | .sw .. | .sb .. => []
  | .mov rd _ | .add2 rd _ | .sub2 rd _ | .and2 rd _ | .xor2 rd _ | .or2 rd _ => [rd]
  | .lsl2 rd _ | .lsr2 rd _ | .asr2 rd _ => [rd]
  | .addi2 rd _ | .andi2 rd _ | .lsi rd _ | .lui rd _ => [rd]
  | .lsli2 rd _ | .lsri2 rd _ | .asri2 rd _ => [rd]
  | .jalr _ | .jsal _ => [Reg.ra]
  | .jr .. | .js .. => []
  | .lwsp rd _ => [rd]
  | .swsp .. | .nop => []

/-- The data access an instruction makes: its size and effective address, if it is one of the
instructions of R52's table. -/
def dataAccess (s : State) : Instr → Option (AccessSize × Word)
  | .lw _ simm10 rs => some (.word, effectiveAddress (s.reg rs) simm10)
  | .lb _ simm10 rs | .lbu _ simm10 rs => some (.byte, effectiveAddress (s.reg rs) simm10)
  | .sw _ simm10 rd => some (.word, effectiveAddress (s.reg rd) simm10)
  | .sb _ simm10 rd => some (.byte, effectiveAddress (s.reg rd) simm10)
  | .lwsp _ uimm7 | .swsp _ uimm7 => some (.word, spAddress (s.reg Reg.sp) uimm7)
  | _ => none

/-- The stores of R52's table. -/
def isStore : Instr → Bool
  | .sw .. | .sb .. | .swsp .. => true
  | _ => false

/-- The loads of R52's table. -/
def isLoad : Instr → Bool
  | .lw .. | .lb .. | .lbu .. | .lwsp .. => true
  | _ => false

/-- The control transfers: branches and jumps (R26). Every other instruction advances the pc by its
length. -/
def isTransfer : Instr → Bool
  | .beq .. | .bne .. | .blt .. | .bltu .. | .ble .. | .bleu .. | .j .. | .jal .. => true
  | .jalr .. | .jr .. | .js .. | .jsal .. => true
  | _ => false

/-- The register shifts, whose distance is an operand (R101). -/
def isRegisterShift : Instr → Bool
  | .lsl .. | .lsr .. | .asr .. | .lsl2 .. | .lsr2 .. | .asr2 .. => true
  | _ => false

/-- The word accesses, the only ones that alignment concerns (R49). -/
def isWordAccess : Instr → Bool
  | .lw .. | .sw .. | .lwsp .. | .swsp .. => true
  | _ => false

/-- Which instructions the table of R203 lets raise which stop. -/
def mayRaise (i : Instr) : Fault → Bool
  | .fetchOutOfRange _ => false
  | .misalignedAccess _ => isWordAccess i
  | .accessOutOfRange _ => isLoad i || isStore i
  | .storeToCode _ => isStore i
  | .shiftDistanceOutOfRange _ => isRegisterShift i
  | .unwrittenMemory _ => isLoad i

/-! ## The strict reading of R35 -/

/-- The first register, in R204's order, that an instruction reads and nothing has written. -/
def unwrittenRead (i : Instr) (s : State) : Option Reg := (reads i).find? (fun r => !s.isWritten r)

/-- The stops of the strict step: `UnwrittenRegister(i)` (R35, R203) beside those of the step. -/
inductive StrictFault where
  /-- `UnwrittenRegister(r)`: the instruction reads `x[r]`, which nothing has written since reset. Safe. -/
  | unwrittenRegister (r : Reg)
  /-- A stop of the step itself. -/
  | stop (f : Fault)
  deriving DecidableEq, Repr

/-- The step under R35's recommended treatment: an instruction that reads an unwritten register stops,
after fetch and decode and before every other check (R204); else it does what `step` does (log 2). -/
def strictStep (s : State) : Host.Outcome State StrictFault Refusal :=
  match fetch s with
  | .error f => .fault (.stop f)
  | .ok w =>
    match decodeWord s.params w with
    | none => .refused (.reservedInstruction s.pc w)
    | some i =>
      match unwrittenRead i s with
      | some r => .fault (.unwrittenRegister r)
      | none =>
        match exec i s with
        | .next t => .next t
        | .fault f => .fault (.stop f)
        | .refused r => .refused r

/-- Two states that differ at most in what their unwritten registers hold. -/
def SameButUnwritten (s t : State) : Prop :=
  t.pc = s.pc ∧ t.dmem = s.dmem ∧ t.imem = s.imem ∧ t.params = s.params ∧ t.written = s.written ∧
    ∀ r, s.isWritten r = true → t.reg r = s.reg r

/-- The outcomes of two steps agree: the same stop, or next states that differ at most in what their
unwritten registers hold. -/
def SameOutcome : Host.Outcome State StrictFault Refusal → Host.Outcome State StrictFault Refusal → Prop
  | .next s, .next t => SameButUnwritten s t
  | .fault f, .fault g => f = g
  | .refused r, .refused q => r = q
  | _, _ => False

/-! ## The end of a run -/

/-- The word of `JS 0` (R213). -/
def jsZero : InstWord := .half 0x000E

/-- A run has ended: the instruction at the pc is `JS 0` (R213, `HALT_CONVENTION = js0`). -/
def ended (s : State) : Bool :=
  match fetch s with
  | .ok w => w == jsZero
  | .error _ => false

/-- The outcomes of a run under a step budget (R212, R214). -/
inductive RunEnd where
  /-- `JS 0` was reached; the final state (R213, R214 (b)). -/
  | ended (s : State)
  /-- A stop: no final state (R203, R214 (a)). -/
  | fault (f : Fault)
  /-- A stop at a reserved word (R91, R214 (a)). -/
  | refused (r : Refusal)
  /-- The budget is used up: the run has not ended yet (R214 (c)). -/
  | unfinished (s : State)
  deriving DecidableEq, Repr

/-- A run from `s` of at most `fuel` steps. -/
def run : Nat → State → RunEnd
  | 0, s => if ended s then .ended s else .unfinished s
  | fuel + 1, s =>
    if ended s then .ended s
    else match step s with
      | .next t => run fuel t
      | .fault f => .fault f
      | .refused r => .refused r

/-! ## Launch premises (R237) -/

/-- `NoStop`: no stop has been recorded in the first `n` steps from `s`. A stop is the outcome of a step and ends the
run (R203, log 27), so none has been recorded exactly where the run has reached a state; of the first state
(`n = 0`) it is true. -/
def NoStop (n : Nat) (s : State) : Prop := ∃ t, Host.Core.run core n s = .next t

/-- `PcAtReset`. -/
def PcAtReset (s : State) : Prop := s.pc = s.params.resetPc

/-- `RegsUnwritten`: no register holds a value. -/
def RegsUnwritten (s : State) : Prop := ∀ r, s.isWritten r = false

/-- `ImageLoaded` for one memory: it equals the image on the bytes the image sets and is unset elsewhere. -/
def ImageLoaded (m image : Memory) : Prop := ∀ a, m.read a = image.read a

/-- How many bytes the fetch at the pc reads: as many as bit 0 of the first byte tells (R55, R72); two where the
first byte is unset, since an instruction of either length has a second byte (the model's choice, log 16). -/
def fetchLength (s : State) : Nat :=
  match s.codeMem.read s.pc.toNat with
  | some b0 => lengthOfFirstByte b0
  | none => 2

/-- A byte address a fetch may read: below `IMEM_SIZE` and 2^16 (R56); under `unified`, in the code range and inside
the one memory (R41). -/
def FetchRange (p : Params) (a : Nat) : Prop :=
  a < 65536 ∧
    match p.memOrg with
    | .harvard => a < p.imemSize
    | .unified lo hi => lo.toNat ≤ a ∧ a ≤ hi.toNat ∧ a < p.dmemSize

/-- `ProgramInRange`: every byte that the run from `s` will fetch lies below `IMEM_SIZE`; under `unified`, in the code
range inside the one memory, which is the model's choice (log 7). -/
def ProgramInRange (s : State) : Prop :=
  ∀ n t, Host.Core.run core n s = .next t →
    ∀ k < fetchLength t, FetchRange t.params (t.pc.toNat + k)

/-! ## The invariant -/

/-- Both memories are in canonical form and list only bytes that exist (R42), and under `unified` there
is one memory (R41). -/
abbrev State.Inv (s : State) : Prop :=
  s.dmem.wf = true ∧ s.dmem.within (min s.params.dmemSize 65536) = true ∧
    s.imem.wf = true ∧ s.imem.within (min s.params.imemSize 65536) = true ∧
    (s.params.memOrg ≠ .harvard → s.imem = [])

/-! ## Frames -/

/-- Every register outside `rs` holds what it held, and counts as written as it did. -/
def KeepsRegsBut (rs : List Reg) (s t : State) : Prop :=
  ∀ q, q ∉ rs → t.reg q = s.reg q ∧ t.isWritten q = s.isWritten q

/-- Every byte of instruction memory reads as before, and the launch parameters are the same. -/
def KeepsCodeAndParams (s t : State) : Prop :=
  (∀ a, t.imem.read a = s.imem.read a) ∧ t.params = s.params

/-- Every byte of data memory reads as before. -/
def KeepsData (s t : State) : Prop := ∀ a, t.dmem.read a = s.dmem.read a

/-- The frame of an instruction that writes the one register `rd`: it now counts as written; every other
register and every byte of both memories is as before. -/
def WritesOnlyReg (rd : Reg) (s t : State) : Prop :=
  t.isWritten rd = true ∧ KeepsRegsBut [rd] s t ∧ KeepsData s t ∧ KeepsCodeAndParams s t

/-- The frame of an instruction that writes nothing but the pc. -/
def WritesOnlyPc (s t : State) : Prop :=
  KeepsRegsBut [] s t ∧ KeepsData s t ∧ KeepsCodeAndParams s t

/-- The frame of an instruction that stores `n` bytes from address `a` on: every data byte outside them is
as before, and so is every register and instruction memory. -/
def StoresOnly (a n : Nat) (s t : State) : Prop :=
  KeepsRegsBut [] s t ∧ (∀ k, (k < a ∨ a + n ≤ k) → t.dmem.read k = s.dmem.read k) ∧
    KeepsCodeAndParams s t

/-- The instruction goes on, writes `rd` with a value that `post` describes, advances the pc by `len`, and
changes nothing else. -/
def SetsReg (i : Instr) (s : State) (rd : Reg) (len : Word) (post : Word → Prop) : Prop :=
  ∃ t, exec i s = .next t ∧ post (t.reg rd) ∧ t.pc = s.pc + len ∧ WritesOnlyReg rd s t

/-- The instruction goes on, moves the pc as `post` describes, and changes nothing else. -/
def MovesPc (i : Instr) (s : State) (post : Word → Prop) : Prop :=
  ∃ t, exec i s = .next t ∧ post t.pc ∧ WritesOnlyPc s t

/-- `pc` is `base + offset` modulo 2^16, the offset being a signed number (R11, R26). -/
def IsOffsetFrom (base : Word) (offset : Int) (pc : Word) : Prop :=
  (pc.toNat : Int) = ((base.toNat : Int) + offset) % 65536

/-! ## Encodings -/

/-- Every 24-bit word that agrees with `mtch` on `mask` decodes to the instruction `f` builds from it (R88). -/
def Spells24 (mask mtch : BitVec 24) (f : BitVec 24 → Instr) : Prop :=
  ∀ (p : Params) (w : BitVec 24), w &&& mask = mtch → decodeWord p (.full w) = some (f w)

/-- Every 16-bit word that agrees with `mtch` on `mask` decodes to the instruction `f` builds from it (R88). -/
def Spells16 (mask mtch : BitVec 16) (f : BitVec 16 → Instr) : Prop :=
  ∀ (p : Params) (w : BitVec 16), w &&& mask = mtch → decodeWord p (.half w) = some (f w)

/-- The register field of an instruction word whose lowest bit is bit `k`. -/
def regAt {n : Nat} (w : BitVec n) (k : Nat) : Reg := regOf (w.extractLsb' k 4)

/-- `simm10 = {inst[7:6], inst[23:16]}` of a 24-bit word (R87). -/
def simm10At (w : BitVec 24) : BitVec 10 := w.extractLsb' 6 2 ++ w.extractLsb' 16 8

/-- `simm6 = {inst[7:6], inst[15:12]}` of a 16-bit word (R87). -/
def simm6At (w : BitVec 16) : BitVec 6 := w.extractLsb' 6 2 ++ w.extractLsb' 12 4

/-- `uimm7 = {inst[7:6], inst[15:12], 0}` of a 16-bit word (R87). -/
def uimm7At (w : BitVec 16) : BitVec 7 := w.extractLsb' 6 2 ++ w.extractLsb' 12 4 ++ 0#1

/-- A row of the opcode table matches the word: `inst & mask = match` (R88). -/
def MatchesRow : InstWord → Prop
  | .half w => ∃ r ∈ rows16, w &&& r.1 = r.2
  | .full w => ∃ r ∈ rows24, w &&& r.1 = r.2

/-- One of the `n` bytes from `a` on lies in the code range of the unified organisation (R41). -/
def TouchesCode (p : Params) (a n : Nat) : Prop :=
  ∃ lo hi k, p.memOrg = .unified lo hi ∧ a ≤ k ∧ k < a + n ∧ lo.toNat ≤ k ∧ k ≤ hi.toNat

/-- The launch supplies none of the open opcodes: R8's default. -/
def NoOpenOpcodes (p : Params) : Prop := p.sbOpcode = none ∧ p.jOpcode = none ∧ p.jalOpcode = none

/-- The 24-bit twin of a 16-bit instruction, with tied operands (R94). -/
def twin : Instr → Option Instr
  | .add2 rd rs => some (.add rd rd rs)
  | .sub2 rd rs => some (.sub rd rd rs)
  | .and2 rd rs => some (.and rd rd rs)
  | .xor2 rd rs => some (.xor rd rd rs)
  | .or2 rd rs => some (.or rd rd rs)
  | .lsl2 rd rs => some (.lsl rd rd rs)
  | .lsr2 rd rs => some (.lsr rd rd rs)
  | .asr2 rd rs => some (.asr rd rd rs)
  | .addi2 rd simm6 => some (.addi rd rd (simm6.signExtend 10))
  | .andi2 rd simm6 => some (.andi rd rd (simm6.signExtend 10))
  | .lsli2 rd uimm4 => some (.lsli rd rd uimm4)
  | .lsri2 rd uimm4 => some (.lsri rd rd uimm4)
  | .asri2 rd uimm4 => some (.asri rd rd uimm4)
  | .lsi rd simm6 => some (.li rd (simm6.signExtend 10))
  | .lwsp rd uimm7 => some (.lw rd (uimm7.setWidth 10) Reg.sp)
  | .swsp rs uimm7 => some (.sw rs (uimm7.setWidth 10) Reg.sp)
  | _ => none

/-- The same stop, or next states that differ only in the pc, by one byte (R94). -/
def SameButLength : Res → Res → Prop
  | .next s, .next t => t = s.setPc (s.pc + 1)
  | .fault f, .fault g => f = g
  | .refused r, .refused q => r = q
  | _, _ => False

/-- The word's bytes lie at the pc, where fetch reads them and may (R55, R56). -/
def HoldsAtPc (s : State) (bs : List Byte) : Prop :=
  fetchable s.params s.pc.toNat bs.length = true ∧
    ∀ k b, bs[k]? = some b → s.codeMem.read (s.pc.toNat + k) = some b

end Sys2Proof.Machine
end

