-- ==== Sys2Proof/Certificates/Slice0/Obligations.lean ====
section
/-! DEFINITION. The statements for the provers: each a Prop about the machine, from the rules of spec/. -/

open Sys2Proof Sys2Proof.Machine

/-! ## Reset, launch and the invariant -/

/-- R230, R231, R237: the launch premises NoStop, PcAtReset, RegsUnwritten and ImageLoaded hold of the first state,
whatever the images. Under `unified` the one memory reads as the program image where that sets a byte and as the data
image elsewhere: which image lies on top is the model's choice (log 17). The state after reset is the launch of R8's
defaults with empty images, at pc `0x0000` (R34). -/
def Obligations.LaunchBuildsFirstState : Prop :=
  (∀ (p : Params) (imemInit dmemInit : Memory),
    NoStop 0 (State.launch p imemInit dmemInit) ∧
    PcAtReset (State.launch p imemInit dmemInit) ∧
    (State.launch p imemInit dmemInit).pc = p.resetPc ∧
    RegsUnwritten (State.launch p imemInit dmemInit) ∧
    (State.launch p imemInit dmemInit).params = p) ∧
  (∀ (p : Params) (imemInit dmemInit : Memory), p.memOrg = .harvard →
    imemInit.wf = true → imemInit.within p.imemSize = true →
    dmemInit.wf = true → dmemInit.within p.dmemSize = true →
    ImageLoaded (State.launch p imemInit dmemInit).imem imemInit ∧
    ImageLoaded (State.launch p imemInit dmemInit).dmem dmemInit) ∧
  (∀ (p : Params) (lo hi : Word) (imemInit dmemInit : Memory), p.memOrg = .unified lo hi →
    imemInit.wf = true → imemInit.within p.dmemSize = true →
    dmemInit.wf = true → dmemInit.within p.dmemSize = true →
    (∀ a b, imemInit.read a = some b → (State.launch p imemInit dmemInit).dmem.read a = some b) ∧
    (∀ a, imemInit.read a = none → (State.launch p imemInit dmemInit).dmem.read a = dmemInit.read a) ∧
    (State.launch p imemInit dmemInit).imem = []) ∧
  State.reset = State.launch Params.default [] [] ∧ State.reset.pc = 0x0000

/-- Whatever the images, the state launched with legal parameters meets the invariant (R42, R41: no byte outside the memories, one
memory under `unified`), and so does the state after reset. -/
def Obligations.LaunchAndResetMeetInv : Prop :=
  (∀ (p : Params) (imemInit dmemInit : List Host.Cell), p.wf = true →
    (State.launch p imemInit dmemInit).Inv) ∧
  State.reset.Inv

/-- Every step from a state that meets the invariant leads to one that does: no store lists a byte that does not
exist (R42, R47, R50), and the canonical form of memory is kept. -/
def Obligations.StepKeepsInv : Prop :=
  ∀ s t : State, s.Inv → step s = .next t → t.Inv

/-- R40, R41, R63: the program text is constant. Under `harvard` no instruction writes `IMem`; under `unified` a store
into the code range stops. -/
def Obligations.StepKeepsProgram : Prop :=
  ∀ s t : State, step s = .next t →
    t.params = s.params ∧ (∀ a, t.imem.read a = s.imem.read a) ∧
    ∀ a, fetchable s.params a 1 = true → t.codeMem.read a = s.codeMem.read a

/-! ## Encoding, decoding and fetch -/

/-- R70, R72, R88: the bytes of a well-formed instruction, followed by anything, decode to that instruction and leave
the rest of the stream. -/
def Obligations.DecodeOfEncodeInAnyStream : Prop :=
  ∀ (p : Params) (i : Instr) (rest : List Byte), p.wf = true → i.wf p = true →
    ∃ bs, encodeBytes p i = some bs ∧ bs.length = i.length ∧ decodeBytes p (bs ++ rest) = .ok (i, rest)

/-- R88, R92, R99: each word spells at most one instruction and each instruction has one word; a must-be-zero
field is checked. -/
def Obligations.EncodeOfDecodeIsTheWord : Prop :=
  ∀ (p : Params) (w : InstWord) (i : Instr), decodeWord p w = some i →
    i.wf p = true ∧ encode p i = some w

/-- R88, R91: decode finds an instruction exactly where a decodable row's mask and match do. -/
def Obligations.DecodeAgreesWithOpcodeTable : Prop :=
  ∀ (p : Params) (w : InstWord), NoOpenOpcodes p →
    ((∃ i, decodeWord p w = some i) ↔ MatchesRow w)

/-- R99: the opcode map is unambiguous; every pair of rows differs in a bit that both masks cover, so that no word
matches two. -/
def Obligations.OpcodeRowsNeverOverlap : Prop :=
  rows24.length = 26 ∧ rows16.length = 23 ∧
  rows24.Pairwise (fun r q => r.2 &&& (r.1 &&& q.1) ≠ q.2 &&& (r.1 &&& q.1) ∧
    ∀ w : BitVec 24, ¬ (w &&& r.1 = r.2 ∧ w &&& q.1 = q.2)) ∧
  rows16.Pairwise (fun r q => r.2 &&& (r.1 &&& q.1) ≠ q.2 &&& (r.1 &&& q.1) ∧
    ∀ w : BitVec 16, ¬ (w &&& r.1 = r.2 ∧ w &&& q.1 = q.2))

/-- The example words of the instruction rules decode to the instructions they stand for. -/
def Obligations.SampleWordsDecode : Prop :=
  ∀ p : Params,
    decodeWord p (.full 0x054301) = some (.add 3 4 5) ∧
    decodeWord p (.full 0xFD98C3) = some (.addi 8 9 (-3)) ∧
    decodeWord p (.full 0xFA89EF) = some (.bne 8 9 (-6)) ∧
    decodeWord p (.full 0x041815) = some (.lw 8 4 1) ∧
    decodeWord p (.half 0xC1C2) = some (.addi2 1 (-4)) ∧
    decodeWord p (.half 0x0816) = some (.jalr 8) ∧
    decodeWord p (.half 0xF39E) = some (.jsal (-100)) ∧
    decodeWord p (.half 0x0F5C) = some (.swsp 15 32) ∧
    decodeWord p (.half 0x0000) = some .nop

/-- R55, R72, R45: fetch answers exactly the word whose bytes lie at the pc, least significant byte first, its length
told by bit 0 of the first byte. -/
def Obligations.FetchReadsBytesAtPc : Prop :=
  ∀ (s : State) (w : InstWord),
    fetch s = .ok w ↔ (HoldsAtPc s w.bytes ∧ w.lengthBitOk = true)

/-- R56, R41: `FetchOutOfRange(pc)` exactly when a byte of the instruction may not be fetched. Under `harvard` such a
byte lies at or beyond `IMEM_SIZE` or beyond `0xFFFF`; under `unified`, outside `CODE_LO..CODE_HI` or the one memory, and
the stop carries the pc as R203's table says (log 7). The pc itself being too high is the case in which the second byte
is too; that the second byte's range is checked even where the first is unset is log 16. -/
def Obligations.FetchOutOfRangeExactly : Prop :=
  (∀ s : State, s.params.memOrg = .harvard →
    (step s = .fault (.fetchOutOfRange s.pc) ↔
      (min s.params.imemSize 65536 ≤ s.pc.toNat + 1 ∨
        ∃ b0, s.imem.read s.pc.toNat = some b0 ∧ b0.toNat % 2 = 1 ∧
          min s.params.imemSize 65536 ≤ s.pc.toNat + 2))) ∧
  (∀ (s : State) (lo hi : Word), s.params.memOrg = .unified lo hi →
    (step s = .fault (.fetchOutOfRange s.pc) ↔
      (s.pc.toNat < lo.toNat ∨ hi.toNat < s.pc.toNat + 1 ∨ s.params.dmemSize ≤ s.pc.toNat + 1 ∨
        ∃ b0, s.dmem.read s.pc.toNat = some b0 ∧ b0.toNat % 2 = 1 ∧
          (hi.toNat < s.pc.toNat + 2 ∨ s.params.dmemSize ≤ s.pc.toNat + 2)))) ∧
  ∀ (s : State) (a : Word), step s = .fault (.fetchOutOfRange a) → a = s.pc

/-- R35, R203: a fetch of a byte that neither the image nor a store has set stops with `UnwrittenMemory` of that byte's
address, once every byte of the instruction may be fetched (R204's order). That the lowest unset byte is the one named,
and that an instruction whose first byte is unset counts as two bytes, is the model's choice (log 16). -/
def Obligations.FetchOfUnsetByteStops : Prop :=
  ∀ s : State, (∀ k < fetchLength s, FetchRange s.params (s.pc.toNat + k)) →
    (s.codeMem.read s.pc.toNat = none → step s = .fault (.unwrittenMemory s.pc)) ∧
    (s.codeMem.read s.pc.toNat ≠ none → s.codeMem.read (s.pc.toNat + 1) = none →
      step s = .fault (.unwrittenMemory (s.pc + 1))) ∧
    (∀ b0, s.codeMem.read s.pc.toNat = some b0 → b0.toNat % 2 = 1 →
      s.codeMem.read (s.pc.toNat + 1) ≠ none → s.codeMem.read (s.pc.toNat + 2) = none →
      step s = .fault (.unwrittenMemory (s.pc + 2)))

/-- R237, R56: the launch premise ProgramInRange is just what keeps a run from the stop `FetchOutOfRange`. R237 says only
'below `IMEM_SIZE`': that the premise means the code range inside the one memory under `unified` is the model's choice
(log 7), and so is counting an instruction whose first byte is unset as two bytes (log 16). -/
def Obligations.ProgramInRangeExcludesFetchOutOfRange : Prop :=
  ∀ s : State, ProgramInRange s ↔
    ∀ (n : Nat) (a : Word), Host.Core.run core n s ≠ .fault (Fault.fetchOutOfRange a)

/-- R55, R88: when the bytes at the pc spell an instruction, the step is that instruction's meaning at the same state,
whose pc still is the instruction's own address (R25). -/
def Obligations.StepRunsDecodedInstruction : Prop :=
  ∀ (s : State) (w : InstWord) (i : Instr), s.params.wf = true →
    decodeWord s.params w = some i → HoldsAtPc s w.bytes →
    step s = exec i s ∧ w.bytes.length = i.length

/-- R91, R92: executing a word no row matches is `ReservedInstruction(pc, inst)`. -/
def Obligations.StepRefusesReservedWords : Prop :=
  ∀ (s : State) (w : InstWord), NoOpenOpcodes s.params → HoldsAtPc s w.bytes →
    w.lengthBitOk = true → ¬ MatchesRow w →
    step s = .refused (.reservedInstruction s.pc w)

/-! ## The 24-bit computational instructions -/

/-- R110, R111: ADD and SUB, modulo 2^16, for all operands; their words; their frame. -/
def Obligations.Add24Sub24SetRd : Prop :=
  Spells24 0xF000FF 0x000001 (fun w => .add (regAt w 8) (regAt w 12) (regAt w 16)) ∧
  Spells24 0xF000FF 0x000009 (fun w => .sub (regAt w 8) (regAt w 12) (regAt w 16)) ∧
  ∀ (s : State) (rd rs1 rs2 : Reg),
    SetsReg (.add rd rs1 rs2) s rd 3 (fun v => v.toNat = ((s.reg rs1).toNat + (s.reg rs2).toNat) % 65536) ∧
    SetsReg (.sub rd rs1 rs2) s rd 3
      (fun v => (v.toNat : Int) = ((s.reg rs1).toNat - (s.reg rs2).toNat : Int) % 65536)

/-- R112, R113, R114: AND, XOR and OR act bit by bit, for all operands; their words; their frame. -/
def Obligations.And24Xor24Or24SetRd : Prop :=
  Spells24 0xF000FF 0x000011 (fun w => .and (regAt w 8) (regAt w 12) (regAt w 16)) ∧
  Spells24 0xF000FF 0x000019 (fun w => .xor (regAt w 8) (regAt w 12) (regAt w 16)) ∧
  Spells24 0xF000FF 0x000021 (fun w => .or (regAt w 8) (regAt w 12) (regAt w 16)) ∧
  ∀ (s : State) (rd rs1 rs2 : Reg),
    SetsReg (.and rd rs1 rs2) s rd 3
      (fun v => ∀ k < 16, v.getLsbD k = ((s.reg rs1).getLsbD k && (s.reg rs2).getLsbD k)) ∧
    SetsReg (.xor rd rs1 rs2) s rd 3
      (fun v => ∀ k < 16, v.getLsbD k = ((s.reg rs1).getLsbD k ^^ (s.reg rs2).getLsbD k)) ∧
    SetsReg (.or rd rs1 rs2) s rd 3
      (fun v => ∀ k < 16, v.getLsbD k = ((s.reg rs1).getLsbD k || (s.reg rs2).getLsbD k))

/-- R115, R116, R117 under `low4`: the register shifts, for all operands; their words; their frame. That the distance
is the operand's low four bits is R101's default, which the spec takes from general knowledge (D7; log 11). -/
def Obligations.Lsl24Lsr24Asr24UnderLow4 : Prop :=
  Spells24 0xF000FF 0x000029 (fun w => .lsl (regAt w 8) (regAt w 12) (regAt w 16)) ∧
  Spells24 0xF000FF 0x000031 (fun w => .lsr (regAt w 8) (regAt w 12) (regAt w 16)) ∧
  Spells24 0xF000FF 0x000039 (fun w => .asr (regAt w 8) (regAt w 12) (regAt w 16)) ∧
  ∀ (s : State) (rd rs1 rs2 : Reg), s.params.shiftAmount = .low4 →
    SetsReg (.lsl rd rs1 rs2) s rd 3
      (fun v => v.toNat = (s.reg rs1).toNat * 2 ^ ((s.reg rs2).toNat % 16) % 65536) ∧
    SetsReg (.lsr rd rs1 rs2) s rd 3
      (fun v => v.toNat = (s.reg rs1).toNat / 2 ^ ((s.reg rs2).toNat % 16)) ∧
    SetsReg (.asr rd rs1 rs2) s rd 3
      (fun v => v.toInt = (s.reg rs1).toInt / 2 ^ ((s.reg rs2).toNat % 16))

/-- R118, R122: ADDI and LI, for all operands; their words; their frame. -/
def Obligations.AddiLiSetRd : Prop :=
  Spells24 0x00003F 0x000003 (fun w => .addi (regAt w 8) (regAt w 12) (simm10At w)) ∧
  Spells24 0x00F03F 0x000035 (fun w => .li (regAt w 8) (simm10At w)) ∧
  ∀ (s : State) (rd rs1 : Reg) (simm10 : BitVec 10),
    SetsReg (.addi rd rs1 simm10) s rd 3
      (fun v => (v.toNat : Int) = ((s.reg rs1).toNat + simm10.toInt) % 65536) ∧
    SetsReg (.li rd simm10) s rd 3 (fun v => v.toInt = simm10.toInt)

/-- R119, R120, R121: the logical immediates, the immediate sign-extended first, for all operands; their words; their frame. -/
def Obligations.AndiXoriOriSetRd : Prop :=
  Spells24 0x00003F 0x000013 (fun w => .andi (regAt w 8) (regAt w 12) (simm10At w)) ∧
  Spells24 0x00003F 0x00001B (fun w => .xori (regAt w 8) (regAt w 12) (simm10At w)) ∧
  Spells24 0x00003F 0x000023 (fun w => .ori (regAt w 8) (regAt w 12) (simm10At w)) ∧
  ∀ (s : State) (rd rs1 : Reg) (simm10 : BitVec 10),
    SetsReg (.andi rd rs1 simm10) s rd 3
      (fun v => ∀ k < 16, v.getLsbD k = ((s.reg rs1).getLsbD k && simm10.getLsbD (min k 9))) ∧
    SetsReg (.xori rd rs1 simm10) s rd 3
      (fun v => ∀ k < 16, v.getLsbD k = ((s.reg rs1).getLsbD k ^^ simm10.getLsbD (min k 9))) ∧
    SetsReg (.ori rd rs1 simm10) s rd 3
      (fun v => ∀ k < 16, v.getLsbD k = ((s.reg rs1).getLsbD k || simm10.getLsbD (min k 9)))

/-- R123, R124, R125: the immediate shifts, for all operands; their words; their frame. -/
def Obligations.LsliLsriAsriSetRd : Prop :=
  Spells24 0xF000FF 0x00002B (fun w => .lsli (regAt w 8) (regAt w 12) (w.extractLsb' 16 4)) ∧
  Spells24 0xF000FF 0x000033 (fun w => .lsri (regAt w 8) (regAt w 12) (w.extractLsb' 16 4)) ∧
  Spells24 0xF000FF 0x00003B (fun w => .asri (regAt w 8) (regAt w 12) (w.extractLsb' 16 4)) ∧
  ∀ (s : State) (rd rs1 : Reg) (uimm4 : BitVec 4),
    SetsReg (.lsli rd rs1 uimm4) s rd 3
      (fun v => v.toNat = (s.reg rs1).toNat * 2 ^ uimm4.toNat % 65536) ∧
    SetsReg (.lsri rd rs1 uimm4) s rd 3 (fun v => v.toNat = (s.reg rs1).toNat / 2 ^ uimm4.toNat) ∧
    SetsReg (.asri rd rs1 uimm4) s rd 3 (fun v => v.toInt = (s.reg rs1).toInt / 2 ^ uimm4.toNat)

/-- R101 and D7, the other two values of `SHIFT_AMOUNT`: under `refuse` an operand above 15 stops; under `saturate` it
shifts everything out; else the distance is the operand's value. -/
def Obligations.RegisterShiftsRefuseOrSaturate : Prop :=
  (∀ (s : State) (rd rs1 rs2 : Reg), s.params.shiftAmount = .refuse → 15 < (s.reg rs2).toNat →
    exec (.lsl rd rs1 rs2) s = .fault (.shiftDistanceOutOfRange (s.reg rs2)) ∧
    exec (.lsr rd rs1 rs2) s = .fault (.shiftDistanceOutOfRange (s.reg rs2)) ∧
    exec (.asr rd rs1 rs2) s = .fault (.shiftDistanceOutOfRange (s.reg rs2)) ∧
    exec (.lsl2 rd rs2) s = .fault (.shiftDistanceOutOfRange (s.reg rs2)) ∧
    exec (.lsr2 rd rs2) s = .fault (.shiftDistanceOutOfRange (s.reg rs2)) ∧
    exec (.asr2 rd rs2) s = .fault (.shiftDistanceOutOfRange (s.reg rs2))) ∧
  (∀ (s : State) (rd rs1 rs2 : Reg),
    ((s.params.shiftAmount = .refuse ∧ (s.reg rs2).toNat ≤ 15) ∨ s.params.shiftAmount = .saturate) →
    SetsReg (.lsl rd rs1 rs2) s rd 3
      (fun v => v.toNat = (s.reg rs1).toNat * 2 ^ (s.reg rs2).toNat % 65536) ∧
    SetsReg (.lsr rd rs1 rs2) s rd 3 (fun v => v.toNat = (s.reg rs1).toNat / 2 ^ (s.reg rs2).toNat) ∧
    SetsReg (.asr rd rs1 rs2) s rd 3 (fun v => v.toInt = (s.reg rs1).toInt / 2 ^ (s.reg rs2).toNat) ∧
    SetsReg (.lsl2 rd rs2) s rd 2
      (fun v => v.toNat = (s.reg rd).toNat * 2 ^ (s.reg rs2).toNat % 65536) ∧
    SetsReg (.lsr2 rd rs2) s rd 2 (fun v => v.toNat = (s.reg rd).toNat / 2 ^ (s.reg rs2).toNat) ∧
    SetsReg (.asr2 rd rs2) s rd 2 (fun v => v.toInt = (s.reg rd).toInt / 2 ^ (s.reg rs2).toNat))

/-! ## Branches, and J and JAL -/

/-- R134, R135: BEQ and BNE, both outcomes, for all operands; their words; their frame. -/
def Obligations.BeqBneMovePc : Prop :=
  Spells24 0x00003F 0x00000F (fun w => .beq (regAt w 12) (regAt w 8) (simm10At w)) ∧
  Spells24 0x00003F 0x00002F (fun w => .bne (regAt w 12) (regAt w 8) (simm10At w)) ∧
  ∀ (s : State) (rs1 rs2 : Reg) (simm10 : BitVec 10),
    MovesPc (.beq rs1 rs2 simm10) s (fun pc' =>
      if s.reg rs1 = s.reg rs2 then IsOffsetFrom s.pc simm10.toInt pc' else IsOffsetFrom s.pc 3 pc') ∧
    MovesPc (.bne rs1 rs2 simm10) s (fun pc' =>
      if s.reg rs1 ≠ s.reg rs2 then IsOffsetFrom s.pc simm10.toInt pc' else IsOffsetFrom s.pc 3 pc')

/-- R136, R138: BLT and BLE, both outcomes, for all operands; their words; their frame. -/
def Obligations.BltBleMovePc : Prop :=
  Spells24 0x00003F 0x000037 (fun w => .blt (regAt w 12) (regAt w 8) (simm10At w)) ∧
  Spells24 0x00003F 0x00003F (fun w => .ble (regAt w 12) (regAt w 8) (simm10At w)) ∧
  ∀ (s : State) (rs1 rs2 : Reg) (simm10 : BitVec 10),
    MovesPc (.blt rs1 rs2 simm10) s (fun pc' =>
      if (s.reg rs1).toInt < (s.reg rs2).toInt then IsOffsetFrom s.pc simm10.toInt pc' else IsOffsetFrom s.pc 3 pc') ∧
    MovesPc (.ble rs1 rs2 simm10) s (fun pc' =>
      if (s.reg rs1).toInt ≤ (s.reg rs2).toInt then IsOffsetFrom s.pc simm10.toInt pc' else IsOffsetFrom s.pc 3 pc')

/-- R137, R139: BLTU and BLEU, both outcomes, for all operands; their words; their frame. -/
def Obligations.BltuBleuMovePc : Prop :=
  Spells24 0x00003F 0x000017 (fun w => .bltu (regAt w 12) (regAt w 8) (simm10At w)) ∧
  Spells24 0x00003F 0x00001F (fun w => .bleu (regAt w 12) (regAt w 8) (simm10At w)) ∧
  ∀ (s : State) (rs1 rs2 : Reg) (simm10 : BitVec 10),
    MovesPc (.bltu rs1 rs2 simm10) s (fun pc' =>
      if (s.reg rs1).toNat < (s.reg rs2).toNat then IsOffsetFrom s.pc simm10.toInt pc' else IsOffsetFrom s.pc 3 pc') ∧
    MovesPc (.bleu rs1 rs2 simm10) s (fun pc' =>
      if (s.reg rs1).toNat ≤ (s.reg rs2).toNat then IsOffsetFrom s.pc simm10.toInt pc' else IsOffsetFrom s.pc 3 pc')

/-- The model's choice (log 13, 14, 15), after the reading that R140 and R141 record: J and JAL over decoded
instructions; JAL's link is a free value, whichever it is; no word spells either by default. -/
def Obligations.JJalFollowTheirRecordedReading : Prop :=
  (∀ (s : State) (simm16 : BitVec 16),
    MovesPc (.j simm16) s (fun pc' => IsOffsetFrom s.pc simm16.toInt pc') ∧
    ∃ t, exec (.jal simm16) s = .next t ∧ t.reg Reg.ra = Config.jalLink s.pc ∧
      IsOffsetFrom s.pc simm16.toInt t.pc ∧ WritesOnlyReg Reg.ra s t) ∧
  ∀ (p : Params) (w : InstWord) (simm16 : BitVec 16),
    (p.jOpcode = none → decodeWord p w ≠ some (.j simm16)) ∧
    (p.jalOpcode = none → decodeWord p w ≠ some (.jal simm16))

/-! ## The 24-bit loads and stores -/

/-- R51, R150, R190: effective addresses are 16-bit sums that wrap modulo 2^16. -/
def Obligations.EffectiveAddressesWrap : Prop :=
  (∀ (base : Word) (simm10 : BitVec 10), IsOffsetFrom base simm10.toInt (effectiveAddress base simm10)) ∧
  (∀ (sp : Word) (uimm7 : BitVec 7), IsOffsetFrom sp uimm7.toNat (spAddress sp uimm7))

/-- R154: LW, its word, its two stops (the spec's decisions D3 and D5), its result and its frame, for all operands
(also `rd = rs`). -/
def Obligations.LwLoadsAlignedWord : Prop :=
  Spells24 0x00003F 0x000015 (fun w => .lw (regAt w 8) (simm10At w) (regAt w 12)) ∧
  ∀ (s : State) (rd rs : Reg) (simm10 : BitVec 10),
    ((effectiveAddress (s.reg rs) simm10).toNat % 2 = 1 →
      exec (.lw rd simm10 rs) s = .fault (.misalignedAccess (effectiveAddress (s.reg rs) simm10))) ∧
    ((effectiveAddress (s.reg rs) simm10).toNat % 2 = 0 → s.params.dmemSize ≤ (effectiveAddress (s.reg rs) simm10).toNat + 1 →
      exec (.lw rd simm10 rs) s = .fault (.accessOutOfRange (effectiveAddress (s.reg rs) simm10))) ∧
    (∀ lo hi : Byte, (effectiveAddress (s.reg rs) simm10).toNat % 2 = 0 → (effectiveAddress (s.reg rs) simm10).toNat + 1 < s.params.dmemSize →
      s.dmem.read (effectiveAddress (s.reg rs) simm10).toNat = some lo → s.dmem.read ((effectiveAddress (s.reg rs) simm10).toNat + 1) = some hi →
      SetsReg (.lw rd simm10 rs) s rd 3 (fun v => v.toNat = lo.toNat + 256 * hi.toNat))

/-- R155, R156: LB and LBU, their words, their stop (the spec's decision D3), their results and their frame, for all
operands. -/
def Obligations.LbLbuLoadByte : Prop :=
  Spells24 0x00003F 0x000025 (fun w => .lb (regAt w 8) (simm10At w) (regAt w 12)) ∧
  Spells24 0x00003F 0x000005 (fun w => .lbu (regAt w 8) (simm10At w) (regAt w 12)) ∧
  ∀ (s : State) (rd rs : Reg) (simm10 : BitVec 10),
    (s.params.dmemSize ≤ (effectiveAddress (s.reg rs) simm10).toNat →
      exec (.lb rd simm10 rs) s = .fault (.accessOutOfRange (effectiveAddress (s.reg rs) simm10)) ∧
      exec (.lbu rd simm10 rs) s = .fault (.accessOutOfRange (effectiveAddress (s.reg rs) simm10))) ∧
    (∀ b : Byte, (effectiveAddress (s.reg rs) simm10).toNat < s.params.dmemSize →
      s.dmem.read (effectiveAddress (s.reg rs) simm10).toNat = some b →
      SetsReg (.lb rd simm10 rs) s rd 3 (fun v => v.toInt = b.toInt) ∧
      SetsReg (.lbu rd simm10 rs) s rd 3 (fun v => v.toNat = b.toNat))

/-- R157: SW, its word, its three stops (the spec's decisions D2, D3 and D5), the bytes it stores and its frame, for all
operands (also `rs = rd`). -/
def Obligations.SwStoresAlignedWord : Prop :=
  Spells24 0x00003F 0x00000D (fun w => .sw (regAt w 8) (simm10At w) (regAt w 12)) ∧
  ∀ (s : State) (rs rd : Reg) (simm10 : BitVec 10),
    ((effectiveAddress (s.reg rd) simm10).toNat % 2 = 1 →
      exec (.sw rs simm10 rd) s = .fault (.misalignedAccess (effectiveAddress (s.reg rd) simm10))) ∧
    ((effectiveAddress (s.reg rd) simm10).toNat % 2 = 0 → s.params.dmemSize ≤ (effectiveAddress (s.reg rd) simm10).toNat + 1 →
      exec (.sw rs simm10 rd) s = .fault (.accessOutOfRange (effectiveAddress (s.reg rd) simm10))) ∧
    ((effectiveAddress (s.reg rd) simm10).toNat % 2 = 0 → (effectiveAddress (s.reg rd) simm10).toNat + 1 < s.params.dmemSize → TouchesCode s.params (effectiveAddress (s.reg rd) simm10).toNat 2 →
      exec (.sw rs simm10 rd) s = .fault (.storeToCode (effectiveAddress (s.reg rd) simm10))) ∧
    ((effectiveAddress (s.reg rd) simm10).toNat % 2 = 0 → (effectiveAddress (s.reg rd) simm10).toNat + 1 < s.params.dmemSize → ¬ TouchesCode s.params (effectiveAddress (s.reg rd) simm10).toNat 2 →
      ∃ t, exec (.sw rs simm10 rd) s = .next t ∧ t.pc = s.pc + 3 ∧
        (t.dmem.read (effectiveAddress (s.reg rd) simm10).toNat).map BitVec.toNat = some ((s.reg rs).toNat % 256) ∧
        (t.dmem.read ((effectiveAddress (s.reg rd) simm10).toNat + 1)).map BitVec.toNat = some ((s.reg rs).toNat / 256) ∧
        StoresOnly (effectiveAddress (s.reg rd) simm10).toNat 2 s t)

/-- R158: SB over decoded instructions, its two stops (the spec's decisions D2 and D3), the byte it stores and its frame; at the level of bytes it is
reached only when the launch supplies `SB_OPCODE`. -/
def Obligations.SbStoresByte : Prop :=
  (∀ (p : Params) (o : SbOpcode) (w : BitVec 24), p.sbOpcode = some o → w.extractLsb' 0 6 = o.bits →
    decodeWord p (.full w) = some (.sb (regAt w 8) (simm10At w) (regAt w 12))) ∧
  (∀ (p : Params) (w : InstWord) (rs rd : Reg) (simm10 : BitVec 10), p.sbOpcode = none →
    decodeWord p w ≠ some (.sb rs simm10 rd)) ∧
  ∀ (s : State) (rs rd : Reg) (simm10 : BitVec 10),
    (s.params.dmemSize ≤ (effectiveAddress (s.reg rd) simm10).toNat →
      exec (.sb rs simm10 rd) s = .fault (.accessOutOfRange (effectiveAddress (s.reg rd) simm10))) ∧
    ((effectiveAddress (s.reg rd) simm10).toNat < s.params.dmemSize → TouchesCode s.params (effectiveAddress (s.reg rd) simm10).toNat 1 →
      exec (.sb rs simm10 rd) s = .fault (.storeToCode (effectiveAddress (s.reg rd) simm10))) ∧
    ((effectiveAddress (s.reg rd) simm10).toNat < s.params.dmemSize → ¬ TouchesCode s.params (effectiveAddress (s.reg rd) simm10).toNat 1 →
      ∃ t, exec (.sb rs simm10 rd) s = .next t ∧ t.pc = s.pc + 3 ∧
        (t.dmem.read (effectiveAddress (s.reg rd) simm10).toNat).map BitVec.toNat = some ((s.reg rs).toNat % 256) ∧
        StoresOnly (effectiveAddress (s.reg rd) simm10).toNat 1 s t)

/-- R35, R203, R204: after the address checks, a load of an unwritten byte stops with `UnwrittenMemory` of that byte. That
a word load names its lower byte where neither holds anything is the model's choice (log 16). -/
def Obligations.LoadOfUnwrittenByteStops : Prop :=
  ∀ (s : State) (rd rs : Reg) (simm10 : BitVec 10) (uimm7 : BitVec 7) (ea : Word),
    (ea = effectiveAddress (s.reg rs) simm10 → ea.toNat < s.params.dmemSize →
      s.dmem.read ea.toNat = none →
      exec (.lb rd simm10 rs) s = .fault (.unwrittenMemory ea) ∧
      exec (.lbu rd simm10 rs) s = .fault (.unwrittenMemory ea)) ∧
    (ea = effectiveAddress (s.reg rs) simm10 → ea.toNat % 2 = 0 → ea.toNat + 1 < s.params.dmemSize →
      (s.dmem.read ea.toNat = none → exec (.lw rd simm10 rs) s = .fault (.unwrittenMemory ea)) ∧
      (s.dmem.read ea.toNat ≠ none → s.dmem.read (ea.toNat + 1) = none →
        exec (.lw rd simm10 rs) s = .fault (.unwrittenMemory (ea + 1)))) ∧
    (ea = spAddress (s.reg Reg.sp) uimm7 → ea.toNat % 2 = 0 → ea.toNat + 1 < s.params.dmemSize →
      (s.dmem.read ea.toNat = none → exec (.lwsp rd uimm7) s = .fault (.unwrittenMemory ea)) ∧
      (s.dmem.read ea.toNat ≠ none → s.dmem.read (ea.toNat + 1) = none →
        exec (.lwsp rd uimm7) s = .fault (.unwrittenMemory (ea + 1))))

/-- R48, R60: a load returns the latest store to its bytes; the low byte stands at the lower address. -/
def Obligations.StoredWordReadsBack : Prop :=
  ∀ (s t : State) (rs rd q r : Reg) (simm10 d : BitVec 10), exec (.sw rs simm10 rd) s = .next t →
    (effectiveAddress (t.reg r) d = effectiveAddress (s.reg rd) simm10 →
      SetsReg (.lw q d r) t q 3 (fun v => v = s.reg rs) ∧
      SetsReg (.lbu q d r) t q 3 (fun v => v.toNat = (s.reg rs).toNat % 256) ∧
      SetsReg (.lb q d r) t q 3 (fun v => v.toInt = Int.bmod (s.reg rs).toNat 256)) ∧
    (effectiveAddress (t.reg r) d = effectiveAddress (s.reg rd) simm10 + 1 →
      SetsReg (.lbu q d r) t q 3 (fun v => v.toNat = (s.reg rs).toNat / 256) ∧
      SetsReg (.lb q d r) t q 3 (fun v => v.toInt = Int.bmod ((s.reg rs).toNat / 256 : Nat) 256))

/-! ## The 16-bit computational instructions -/

/-- R164, R165, R166: MOV, ADD2 and SUB2 (`rd - rs`, R161), for all operands; their words; their frame. -/
def Obligations.MovAdd2Sub2SetRd : Prop :=
  Spells16 0x00FF 0x00C0 (fun w => .mov (regAt w 8) (regAt w 12)) ∧
  Spells16 0x00FF 0x0080 (fun w => .add2 (regAt w 8) (regAt w 12)) ∧
  Spells16 0x00FF 0x0088 (fun w => .sub2 (regAt w 8) (regAt w 12)) ∧
  ∀ (s : State) (rd rs : Reg),
    SetsReg (.mov rd rs) s rd 2 (fun v => v = s.reg rs) ∧
    SetsReg (.add2 rd rs) s rd 2 (fun v => v.toNat = ((s.reg rd).toNat + (s.reg rs).toNat) % 65536) ∧
    SetsReg (.sub2 rd rs) s rd 2
      (fun v => (v.toNat : Int) = ((s.reg rd).toNat - (s.reg rs).toNat : Int) % 65536)

/-- R167, R168, R169: AND2, XOR2 and OR2, for all operands; their words; their frame. -/
def Obligations.And2Xor2Or2SetRd : Prop :=
  Spells16 0x00FF 0x0090 (fun w => .and2 (regAt w 8) (regAt w 12)) ∧
  Spells16 0x00FF 0x0098 (fun w => .xor2 (regAt w 8) (regAt w 12)) ∧
  Spells16 0x00FF 0x00A0 (fun w => .or2 (regAt w 8) (regAt w 12)) ∧
  ∀ (s : State) (rd rs : Reg),
    SetsReg (.and2 rd rs) s rd 2
      (fun v => ∀ k < 16, v.getLsbD k = ((s.reg rd).getLsbD k && (s.reg rs).getLsbD k)) ∧
    SetsReg (.xor2 rd rs) s rd 2
      (fun v => ∀ k < 16, v.getLsbD k = ((s.reg rd).getLsbD k ^^ (s.reg rs).getLsbD k)) ∧
    SetsReg (.or2 rd rs) s rd 2
      (fun v => ∀ k < 16, v.getLsbD k = ((s.reg rd).getLsbD k || (s.reg rs).getLsbD k))

/-- R170, R171, R172 under `low4`: the 16-bit register shifts, for all operands; their words; their frame. That the
distance is the operand's low four bits is R101's default, which the spec takes from general knowledge (D7; log 11). -/
def Obligations.Lsl2Lsr2Asr2UnderLow4 : Prop :=
  Spells16 0x00FF 0x00A8 (fun w => .lsl2 (regAt w 8) (regAt w 12)) ∧
  Spells16 0x00FF 0x00B0 (fun w => .lsr2 (regAt w 8) (regAt w 12)) ∧
  Spells16 0x00FF 0x00B8 (fun w => .asr2 (regAt w 8) (regAt w 12)) ∧
  ∀ (s : State) (rd rs : Reg), s.params.shiftAmount = .low4 →
    SetsReg (.lsl2 rd rs) s rd 2
      (fun v => v.toNat = (s.reg rd).toNat * 2 ^ ((s.reg rs).toNat % 16) % 65536) ∧
    SetsReg (.lsr2 rd rs) s rd 2
      (fun v => v.toNat = (s.reg rd).toNat / 2 ^ ((s.reg rs).toNat % 16)) ∧
    SetsReg (.asr2 rd rs) s rd 2
      (fun v => v.toInt = (s.reg rd).toInt / 2 ^ ((s.reg rs).toNat % 16))

/-- R173, R174, R175, R176: the 16-bit immediates, for all operands; their words; their frame. -/
def Obligations.Addi2Andi2LsiLuiSetRd : Prop :=
  Spells16 0x003F 0x0002 (fun w => .addi2 (regAt w 8) (simm6At w)) ∧
  Spells16 0x003F 0x0012 (fun w => .andi2 (regAt w 8) (simm6At w)) ∧
  Spells16 0x003F 0x0034 (fun w => .lsi (regAt w 8) (simm6At w)) ∧
  Spells16 0x003F 0x0004 (fun w => .lui (regAt w 8) (simm6At w)) ∧
  ∀ (s : State) (rd : Reg) (simm6 : BitVec 6),
    SetsReg (.addi2 rd simm6) s rd 2
      (fun v => (v.toNat : Int) = ((s.reg rd).toNat + simm6.toInt) % 65536) ∧
    SetsReg (.andi2 rd simm6) s rd 2
      (fun v => ∀ k < 16, v.getLsbD k = ((s.reg rd).getLsbD k && simm6.getLsbD (min k 5))) ∧
    SetsReg (.lsi rd simm6) s rd 2 (fun v => v.toInt = simm6.toInt) ∧
    SetsReg (.lui rd simm6) s rd 2 (fun v => v.toNat = simm6.toNat * 1024)

/-- R177, R178, R179: the 16-bit immediate shifts, for all operands; their words; their frame. -/
def Obligations.Lsli2Lsri2Asri2SetRd : Prop :=
  Spells16 0x00FF 0x002A (fun w => .lsli2 (regAt w 8) (w.extractLsb' 12 4)) ∧
  Spells16 0x00FF 0x0032 (fun w => .lsri2 (regAt w 8) (w.extractLsb' 12 4)) ∧
  Spells16 0x00FF 0x003A (fun w => .asri2 (regAt w 8) (w.extractLsb' 12 4)) ∧
  ∀ (s : State) (rd : Reg) (uimm4 : BitVec 4),
    SetsReg (.lsli2 rd uimm4) s rd 2
      (fun v => v.toNat = (s.reg rd).toNat * 2 ^ uimm4.toNat % 65536) ∧
    SetsReg (.lsri2 rd uimm4) s rd 2 (fun v => v.toNat = (s.reg rd).toNat / 2 ^ uimm4.toNat) ∧
    SetsReg (.asri2 rd uimm4) s rd 2 (fun v => v.toInt = (s.reg rd).toInt / 2 ^ uimm4.toNat)

/-- R94: the 16-bit instructions compute the same functions as 24-bit instructions with tied operands; the only
difference is the length, hence the pc. -/
def Obligations.SixteenBitTwinsAgree : Prop :=
  ∀ (s : State) (i j : Instr), twin i = some j → SameButLength (exec i s) (exec j s)

/-- R98: a 16-bit constant `K` is loaded by `LUI rd, h` then `ADDI rd, rd, l` with `l = s(K[9:0])` and `h = (K - l) >> 10`
taken modulo 64. -/
def Obligations.LuiAddiBuildAnyConstant : Prop :=
  ∀ (s : State) (rd : Reg) (K : Word), ∃ t u,
    exec (.lui rd (((K - (K.extractLsb' 0 10).signExtend 16) >>> 10).setWidth 6)) s = .next t ∧
    exec (.addi rd rd (K.extractLsb' 0 10)) t = .next u ∧
    u.reg rd = K ∧ u.pc = s.pc + 5

/-! ## Jumps, the stack-pointer loads and stores, NOP -/

/-- R184, R185: JALR and JR; their words; their frame. That JALR reads `rs` before the link is written, which only
`rs = x0` shows, is the spec's choice D11 (log 24). -/
def Obligations.JalrJrJumpToRegister : Prop :=
  Spells16 0xF0FF 0x0016 (fun w => .jalr (regAt w 8)) ∧
  Spells16 0xF0FF 0x0006 (fun w => .jr (regAt w 8)) ∧
  ∀ (s : State) (rs : Reg),
    (∃ t, exec (.jalr rs) s = .next t ∧ t.pc = s.reg rs ∧ IsOffsetFrom s.pc 2 (t.reg Reg.ra) ∧
      WritesOnlyReg Reg.ra s t) ∧
    MovesPc (.jr rs) s (fun pc' => pc' = s.reg rs)

/-- R186, R187: JS and JSAL; their words; their frame; the word of `JS 0`, at which a run has ended
(the spec's decision D16). -/
def Obligations.JsJsalJumpRelative : Prop :=
  Spells16 0x001F 0x000E (fun w => .js (w.extractLsb' 5 11)) ∧
  Spells16 0x001F 0x001E (fun w => .jsal (w.extractLsb' 5 11)) ∧
  (∀ (s : State) (simm11 : BitVec 11),
    MovesPc (.js simm11) s (fun pc' => IsOffsetFrom s.pc simm11.toInt pc') ∧
    ∃ t, exec (.jsal simm11) s = .next t ∧ IsOffsetFrom s.pc simm11.toInt t.pc ∧
      IsOffsetFrom s.pc 2 (t.reg Reg.ra) ∧ WritesOnlyReg Reg.ra s t) ∧
  (∀ p : Params, encode p (.js 0) = some (.half 0x000E)) ∧
  ∀ s : State, ended s = true ↔ fetch s = .ok (.half 0x000E)

/-- R183: the link is the address of the instruction after the 2-byte jump, and a called routine returns with `JR ra`. -/
def Obligations.CallThenReturnComesBack : Prop :=
  ∀ (s : State) (simm11 : BitVec 11) (rs : Reg),
    (∃ t u, exec (.jsal simm11) s = .next t ∧ exec (.jr Reg.ra) t = .next u ∧ IsOffsetFrom s.pc 2 u.pc) ∧
    (∃ t u, exec (.jalr rs) s = .next t ∧ exec (.jr Reg.ra) t = .next u ∧ IsOffsetFrom s.pc 2 u.pc)

/-- R192 but for its `UnwrittenRegister` stop, which is the strict step's (log 1, log 2): LWSP, its word, its address stops,
its result and its frame, for all operands. -/
def Obligations.LwspLoadsFromStack : Prop :=
  Spells16 0x003F 0x0014 (fun w => .lwsp (regAt w 8) (uimm7At w)) ∧
  ∀ (s : State) (rd : Reg) (uimm7 : BitVec 7),
    ((spAddress (s.reg Reg.sp) uimm7).toNat % 2 = 1 →
      exec (.lwsp rd uimm7) s = .fault (.misalignedAccess (spAddress (s.reg Reg.sp) uimm7))) ∧
    ((spAddress (s.reg Reg.sp) uimm7).toNat % 2 = 0 → s.params.dmemSize ≤ (spAddress (s.reg Reg.sp) uimm7).toNat + 1 →
      exec (.lwsp rd uimm7) s = .fault (.accessOutOfRange (spAddress (s.reg Reg.sp) uimm7))) ∧
    (∀ lo hi : Byte, (spAddress (s.reg Reg.sp) uimm7).toNat % 2 = 0 → (spAddress (s.reg Reg.sp) uimm7).toNat + 1 < s.params.dmemSize →
      s.dmem.read (spAddress (s.reg Reg.sp) uimm7).toNat = some lo → s.dmem.read ((spAddress (s.reg Reg.sp) uimm7).toNat + 1) = some hi →
      SetsReg (.lwsp rd uimm7) s rd 2 (fun v => v.toNat = lo.toNat + 256 * hi.toNat))

/-- R193 but for its `UnwrittenRegister` stop, which is the strict step's (log 1, log 2): SWSP, its word, its address stops,
the bytes it stores and its frame, for all operands. -/
def Obligations.SwspStoresToStack : Prop :=
  Spells16 0x003F 0x001C (fun w => .swsp (regAt w 8) (uimm7At w)) ∧
  ∀ (s : State) (rs : Reg) (uimm7 : BitVec 7),
    ((spAddress (s.reg Reg.sp) uimm7).toNat % 2 = 1 →
      exec (.swsp rs uimm7) s = .fault (.misalignedAccess (spAddress (s.reg Reg.sp) uimm7))) ∧
    ((spAddress (s.reg Reg.sp) uimm7).toNat % 2 = 0 → s.params.dmemSize ≤ (spAddress (s.reg Reg.sp) uimm7).toNat + 1 →
      exec (.swsp rs uimm7) s = .fault (.accessOutOfRange (spAddress (s.reg Reg.sp) uimm7))) ∧
    ((spAddress (s.reg Reg.sp) uimm7).toNat % 2 = 0 → (spAddress (s.reg Reg.sp) uimm7).toNat + 1 < s.params.dmemSize → TouchesCode s.params (spAddress (s.reg Reg.sp) uimm7).toNat 2 →
      exec (.swsp rs uimm7) s = .fault (.storeToCode (spAddress (s.reg Reg.sp) uimm7))) ∧
    ((spAddress (s.reg Reg.sp) uimm7).toNat % 2 = 0 → (spAddress (s.reg Reg.sp) uimm7).toNat + 1 < s.params.dmemSize → ¬ TouchesCode s.params (spAddress (s.reg Reg.sp) uimm7).toNat 2 →
      ∃ t, exec (.swsp rs uimm7) s = .next t ∧ t.pc = s.pc + 2 ∧
        (t.dmem.read (spAddress (s.reg Reg.sp) uimm7).toNat).map BitVec.toNat = some ((s.reg rs).toNat % 256) ∧
        (t.dmem.read ((spAddress (s.reg Reg.sp) uimm7).toNat + 1)).map BitVec.toNat = some ((s.reg rs).toNat / 256) ∧
        StoresOnly (spAddress (s.reg Reg.sp) uimm7).toNat 2 s t)

/-- R194: NOP reads and writes no register and no memory. That its only word is `0x0000` is the spec's decision D10
(log 21). -/
def Obligations.NopOnlyAdvancesPc : Prop :=
  Spells16 0xFFFF 0x0000 (fun _ => .nop) ∧
  (∀ (p : Params) (w : InstWord), decodeWord p w = some .nop → w = .half 0x0000) ∧
  ∀ s : State, MovesPc .nop s (fun pc' => IsOffsetFrom s.pc 2 pc')

/-! ## Rules of the whole machine -/

/-- R203: the stop at a reserved word belongs to decode, not to any instruction; every meaning goes on or meets a stop
that R203's table lists for that instruction, and none refuses. That SB, J and JAL run too is, for J and JAL, the model's
choice (log 14) against R140 and R141, which refuse them in any program; on the byte level they stay refused by default. -/
def Obligations.ExecNeverRefuses : Prop :=
  (∀ (i : Instr) (s : State), (∃ t, exec i s = .next t) ∨ ∃ f, exec i s = .fault f ∧ mayRaise i f = true) ∧
  (∀ (i : Instr) (s : State) (r : Refusal), exec i s ≠ .refused r) ∧
  ∀ (s : State) (r : Refusal), step s = .refused r → ∃ w, fetch s = .ok w ∧
    decodeWord s.params w = none ∧ r = .reservedInstruction s.pc w

/-- R203: which instruction raises which stop, and what the address stops carry. -/
def Obligations.StopsFollowTheTable : Prop :=
  ∀ (i : Instr) (s : State) (f : Fault), exec i s = .fault f →
    mayRaise i f = true ∧
    ∀ a, (f = .misalignedAccess a ∨ f = .accessOutOfRange a ∨ f = .storeToCode a) →
      ∃ size, dataAccess s i = some (size, a)

/-- R23: every instruction writes exactly the registers its fields name, and JALR, JSAL and JAL write `x0` besides. -/
def Obligations.OnlyNamedRegistersChange : Prop :=
  ∀ (i : Instr) (s t : State), exec i s = .next t → KeepsRegsBut (writes i) s t

/-- R32, R52, R47: data memory is written only by SW, SB and SWSP, and no byte outside the access changes. -/
def Obligations.OnlyStoresChangeDataMemory : Prop :=
  ∀ (i : Instr) (s t : State), exec i s = .next t →
    (isStore i = false → KeepsData s t) ∧
    (isStore i = true → ∃ size a, dataAccess s i = some (size, a) ∧
      ∀ k, (k < a.toNat ∨ a.toNat + size.bytes ≤ k) → t.dmem.read k = s.dmem.read k)

/-- R52: no other instruction accesses data memory. -/
def Obligations.OtherInstructionsIgnoreDataMemory : Prop :=
  ∀ (i : Instr) (s : State) (m : Memory), isLoad i = false → isStore i = false →
    (∀ t, exec i s = .next t → exec i (s.setDmem m) = .next (t.setDmem m)) ∧
    (∀ f, exec i s = .fault f → exec i (s.setDmem m) = .fault f)

/-- R26: an instruction that is not a control transfer sets `pc <- pc + len`. -/
def Obligations.SequentialInstructionsAdvanceByLength : Prop :=
  ∀ (i : Instr) (s t : State), exec i s = .next t → isTransfer i = false →
    IsOffsetFrom s.pc i.length t.pc

/-- R212, R213: if executing an instruction leaves the whole state as it was, every later step repeats it; `JS 0` does,
however often it is executed. -/
def Obligations.SelfLoopsRepeatForever : Prop :=
  (∀ (s : State) (n : Nat), step s = .next s → Host.Core.run core n s = .next s) ∧
  (∀ (s : State) (n : Nat), ended s = true → Host.Core.run core n s = .next s) ∧
  (∀ (s : State) (r : Reg), exec (.beq r r 0) s = .next s) ∧
  (∀ (s : State) (r : Reg), s.reg r = s.pc → exec (.jr r) s = .next s)

/-- R213, R214: the outcomes of a run under a budget of `n` steps, told apart by the steps of the machine. It ends exactly
at the first state whose fetch gives the word of `JS 0` (the spec's decision D16; log 18), it stops exactly where a step
stops before that, and else it is unfinished. An outcome reached stays under any larger budget, and by R212 any number of
further steps leaves the final state as it is. -/
def Obligations.RunsEndOnlyAtJsZero : Prop :=
  ∀ (s : State) (n : Nat),
    (∀ t, run n s = .ended t ↔ ∃ m ≤ n, Host.Core.run core m s = .next t ∧ fetch t = .ok (.half 0x000E) ∧
      ∀ k < m, ∀ u, Host.Core.run core k s = .next u → fetch u ≠ .ok (.half 0x000E)) ∧
    (∀ f, run n s = .fault f ↔ ∃ m < n, ∃ u, Host.Core.run core m s = .next u ∧ step u = .fault f ∧
      ∀ k ≤ m, ∀ v, Host.Core.run core k s = .next v → fetch v ≠ .ok (.half 0x000E)) ∧
    (∀ r, run n s = .refused r ↔ ∃ m < n, ∃ u, Host.Core.run core m s = .next u ∧ step u = .refused r ∧
      ∀ k ≤ m, ∀ v, Host.Core.run core k s = .next v → fetch v ≠ .ok (.half 0x000E)) ∧
    (∀ t, run n s = .unfinished t ↔ Host.Core.run core n s = .next t ∧
      ∀ k ≤ n, ∀ v, Host.Core.run core k s = .next v → fetch v ≠ .ok (.half 0x000E)) ∧
    ∀ k : Nat,
      (∀ t, run n s = .ended t → run (n + k) s = .ended t ∧ Host.Core.run core (n + k) s = .next t) ∧
      (∀ f, run n s = .fault f → run (n + k) s = .fault f) ∧
      (∀ r, run n s = .refused r → run (n + k) s = .refused r)

/-- R35: a register that no instruction has written holds no value. Under the strict step what the model puts there
(log 1) has no influence on any outcome. -/
def Obligations.StrictStepIgnoresUnwrittenRegisters : Prop :=
  ∀ s t : State, SameButUnwritten s t → SameOutcome (strictStep s) (strictStep t)

/-- R35, R203, R204: the strict step is the step, with `UnwrittenRegister(i)` added before the other checks: where every
register read is written, or no instruction is reached, it goes on and stops as the step does. -/
def Obligations.StrictStepIsStepOnWrittenReads : Prop :=
  (∀ s t : State, strictStep s = .next t ↔
    (step s = .next t ∧ ∃ w i, fetch s = .ok w ∧ decodeWord s.params w = some i ∧
      ∀ r ∈ reads i, s.isWritten r = true)) ∧
  (∀ (s : State) (f : Fault), strictStep s = .fault (.stop f) ↔
    (step s = .fault f ∧ ∀ w i, fetch s = .ok w → decodeWord s.params w = some i →
      ∀ r ∈ reads i, s.isWritten r = true)) ∧
  (∀ (s : State) (r : Refusal), strictStep s = .refused r ↔ step s = .refused r) ∧
  (∀ (s : State) (w : InstWord) (i : Instr) (before after : List Reg) (r : Reg),
    fetch s = .ok w → decodeWord s.params w = some i → reads i = before ++ r :: after →
    (∀ q ∈ before, s.isWritten q = true) → s.isWritten r = false →
    strictStep s = .fault (.unwrittenRegister r))
end

