-- ==== Sys2Proof/Laws/Decode.lean ====
section
/-! SUPPORT. The encoder's fields are the decoder's: each field of an assembled word reads back, and each
split immediate is put together again. -/

namespace Sys2Proof

@[simp] theorem regOf_regBits (r : Reg) : regOf (regBits r) = r := rfl
@[simp] theorem regBits_regOf (f : BitVec 4) : regBits (regOf f) = f := rfl

/-- A slice that lies in the low part of a concatenation. -/
theorem slice_append_low {n m : Nat} (x : BitVec n) (y : BitVec m) (k l : Nat) (h : k + l ≤ m) :
    (x ++ y).extractLsb' k l = y.extractLsb' k l := by
  apply BitVec.eq_of_getLsbD_eq
  intro i hi
  have : k + i < m := by omega
  simp [BitVec.getLsbD_append, hi, this]

/-- A slice that lies in the high part of a concatenation. -/
theorem slice_append_high {n m : Nat} (x : BitVec n) (y : BitVec m) (k l : Nat) (h : m ≤ k) :
    (x ++ y).extractLsb' k l = x.extractLsb' (k - m) l := by
  apply BitVec.eq_of_getLsbD_eq
  intro i hi
  have h1 : ¬ k + i < m := by omega
  have h2 : k + i - m = k - m + i := by omega
  simp [BitVec.getLsbD_append, hi, h1, h2]

/-- The slice of all bits. -/
theorem slice_all {n : Nat} (x : BitVec n) : x.extractLsb' 0 n = x := by
  simp

/-- Two adjoining slices, concatenated, are one slice. -/
theorem slice_append_slice {n : Nat} (x : BitVec n) (k l j : Nat) (hj : j = k + l) (m : Nat) :
    x.extractLsb' j m ++ x.extractLsb' k l = x.extractLsb' k (m + l) := by
  subst hj
  apply BitVec.eq_of_getLsbD_eq
  intro i hi
  simp only [BitVec.getLsbD_append, BitVec.getLsbD_extractLsb']
  by_cases h : i < l
  · simp [h]; omega
  · have : k + l + (i - l) = k + i := by omega
    simp [h, this, hi]; omega

/-- Decoding an assembled 24-bit word is decoding its fields. -/
@[simp] theorem decodeWord_word24 (p : Params) (d c b a : BitVec 4) (hi : BitVec 2) (op : BitVec 6) :
    decodeWord p (word24 d c b a hi op) = decodeFields24 p d c b a hi op := by
  have h20 : BitVec.extractLsb' (n := 4 + 4 + 4 + 4 + 2 + 6) 20 4 (d ++ c ++ b ++ a ++ hi ++ op) = d := by
    iterate 5 rw [slice_append_high _ _ _ _ (by omega)]
    exact slice_all d
  have h16 : BitVec.extractLsb' (n := 4 + 4 + 4 + 4 + 2 + 6) 16 4 (d ++ c ++ b ++ a ++ hi ++ op) = c := by
    iterate 4 rw [slice_append_high _ _ _ _ (by omega)]
    rw [slice_append_low _ _ _ _ (by omega)]
    exact slice_all c
  have h12 : BitVec.extractLsb' (n := 4 + 4 + 4 + 4 + 2 + 6) 12 4 (d ++ c ++ b ++ a ++ hi ++ op) = b := by
    iterate 3 rw [slice_append_high _ _ _ _ (by omega)]
    rw [slice_append_low _ _ _ _ (by omega)]
    exact slice_all b
  have h8 : BitVec.extractLsb' (n := 4 + 4 + 4 + 4 + 2 + 6) 8 4 (d ++ c ++ b ++ a ++ hi ++ op) = a := by
    iterate 2 rw [slice_append_high _ _ _ _ (by omega)]
    rw [slice_append_low _ _ _ _ (by omega)]
    exact slice_all a
  have h6 : BitVec.extractLsb' (n := 4 + 4 + 4 + 4 + 2 + 6) 6 2 (d ++ c ++ b ++ a ++ hi ++ op) = hi := by
    rw [slice_append_high _ _ _ _ (by omega), slice_append_low _ _ _ _ (by omega)]
    exact slice_all hi
  have h0 : BitVec.extractLsb' (n := 4 + 4 + 4 + 4 + 2 + 6) 0 6 (d ++ c ++ b ++ a ++ hi ++ op) = op := by
    rw [slice_append_low _ _ _ _ (by omega)]
    exact slice_all op
  show decodeFields24 p (BitVec.extractLsb' (n := 4 + 4 + 4 + 4 + 2 + 6) 20 4 _)
    (BitVec.extractLsb' (n := 4 + 4 + 4 + 4 + 2 + 6) 16 4 _)
    (BitVec.extractLsb' (n := 4 + 4 + 4 + 4 + 2 + 6) 12 4 _)
    (BitVec.extractLsb' (n := 4 + 4 + 4 + 4 + 2 + 6) 8 4 _)
    (BitVec.extractLsb' (n := 4 + 4 + 4 + 4 + 2 + 6) 6 2 _)
    (BitVec.extractLsb' (n := 4 + 4 + 4 + 4 + 2 + 6) 0 6 _) = _
  rw [h20, h16, h12, h8, h6, h0]

/-- Decoding an assembled 16-bit word is decoding its fields. -/
@[simp] theorem decodeWord_word16 (p : Params) (b a : BitVec 4) (hi : BitVec 2) (op : BitVec 6) :
    decodeWord p (word16 b a hi op) = decodeFields16 b a hi op := by
  have h12 : BitVec.extractLsb' (n := 4 + 4 + 2 + 6) 12 4 (b ++ a ++ hi ++ op) = b := by
    iterate 3 rw [slice_append_high _ _ _ _ (by omega)]
    exact slice_all b
  have h8 : BitVec.extractLsb' (n := 4 + 4 + 2 + 6) 8 4 (b ++ a ++ hi ++ op) = a := by
    iterate 2 rw [slice_append_high _ _ _ _ (by omega)]
    rw [slice_append_low _ _ _ _ (by omega)]
    exact slice_all a
  have h6 : BitVec.extractLsb' (n := 4 + 4 + 2 + 6) 6 2 (b ++ a ++ hi ++ op) = hi := by
    rw [slice_append_high _ _ _ _ (by omega), slice_append_low _ _ _ _ (by omega)]
    exact slice_all hi
  have h0 : BitVec.extractLsb' (n := 4 + 4 + 2 + 6) 0 6 (b ++ a ++ hi ++ op) = op := by
    rw [slice_append_low _ _ _ _ (by omega)]
    exact slice_all op
  show decodeFields16 (BitVec.extractLsb' (n := 4 + 4 + 2 + 6) 12 4 _)
    (BitVec.extractLsb' (n := 4 + 4 + 2 + 6) 8 4 _)
    (BitVec.extractLsb' (n := 4 + 4 + 2 + 6) 6 2 _)
    (BitVec.extractLsb' (n := 4 + 4 + 2 + 6) 0 6 _) = _
  rw [h12, h8, h6, h0]

/-- `simm10` is put together from the three parts it was split into. -/
@[simp] theorem simm10Of_split (v : BitVec 10) :
    simm10Of (v.extractLsb' 8 2) (v.extractLsb' 4 4) (v.extractLsb' 0 4) = v := by
  show (v.extractLsb' 8 2 ++ v.extractLsb' 4 4) ++ v.extractLsb' 0 4 = v
  rw [slice_append_slice v 4 4 8 rfl 2, slice_append_slice v 0 4 4 rfl 6]
  exact slice_all v

/-- `simm6` is put together from its two parts. -/
@[simp] theorem simm6Of_split (v : BitVec 6) : simm6Of (v.extractLsb' 4 2) (v.extractLsb' 0 4) = v := by
  show v.extractLsb' 4 2 ++ v.extractLsb' 0 4 = v
  rw [slice_append_slice v 0 4 4 rfl 2]
  exact slice_all v

/-- An even `uimm7` is put together from its two parts and a zero. -/
theorem uimm7Of_split (v : BitVec 7) (h : v.getLsbD 0 = false) :
    uimm7Of (v.extractLsb' 5 2) (v.extractLsb' 1 4) = v := by
  have h0 : (0#1 : BitVec 1) = v.extractLsb' 0 1 := by
    apply BitVec.eq_of_getLsbD_eq
    intro i hi
    obtain rfl : i = 0 := by omega
    simpa using h.symm
  show (v.extractLsb' 5 2 ++ v.extractLsb' 1 4) ++ 0#1 = v
  rw [h0, slice_append_slice v 1 4 5 rfl 2, slice_append_slice v 0 1 1 rfl 6]
  exact slice_all v

/-- `simm11` is put together from the four parts it was split into. -/
@[simp] theorem simm11Of_split (v : BitVec 11) :
    simm11Of (v.extractLsb' 7 4) (v.extractLsb' 3 4) (v.extractLsb' 1 2) (v.extractLsb' 0 1) = v := by
  show ((v.extractLsb' 7 4 ++ v.extractLsb' 3 4) ++ v.extractLsb' 1 2) ++ v.extractLsb' 0 1 = v
  rw [slice_append_slice v 3 4 7 rfl 4, slice_append_slice v 1 2 3 rfl 8,
    slice_append_slice v 0 1 1 rfl 10]
  exact slice_all v

/-- `simm16` of the J24 layout is put together from its four parts. -/
theorem simm16_split (v : BitVec 16) :
    (v.extractLsb' 12 4 ++ v.extractLsb' 8 4 ++ v.extractLsb' 4 4 ++ v.extractLsb' 0 4 : BitVec 16) = v := by
  show ((v.extractLsb' 12 4 ++ v.extractLsb' 8 4) ++ v.extractLsb' 4 4) ++ v.extractLsb' 0 4 = v
  rw [slice_append_slice v 8 4 12 rfl 4, slice_append_slice v 4 4 8 rfl 8,
    slice_append_slice v 0 4 4 rfl 12]
  exact slice_all v

/-- An 8-bit opcode is put together from its bits 7:6 and its low six. -/
theorem opcode8_split (o : BitVec 8) : (o.extractLsb' 6 2 ++ o.extractLsb' 0 6 : BitVec 8) = o := by
  show o.extractLsb' 6 2 ++ o.extractLsb' 0 6 = o
  rw [slice_append_slice o 0 6 6 rfl 2]
  exact slice_all o

/-- No table row uses a word that ends in a free 8-bit opcode (R91). -/
theorem decodeRow24_of_free (o : BitVec 8) (h : opcode8Free o = true) (d c b a : BitVec 4) :
    decodeRow24 d c b a (o.extractLsb' 6 2) (o.extractLsb' 0 6) = none := by
  simp only [opcode8Free, unusedOpcodes6, opcodes8Low6, Bool.or_eq_true, Bool.and_eq_true,
    List.contains_iff_mem, List.mem_cons, List.not_mem_nil, or_false, bne_iff_ne, ne_eq] at h
  generalize o.extractLsb' 6 2 = hi at h ⊢
  generalize o.extractLsb' 0 6 = op at h ⊢
  rcases h with h | ⟨h, hh⟩
  · rcases h with h | h | h | h | h | h <;> subst h <;> rfl
  · rcases h with h | h | h | h | h | h | h | h | h | h | h <;> subst h <;>
      exact if_neg (fun h0 => hh h0.1)

/-- No table row uses an unused odd 6-bit opcode (R91). -/
theorem decodeRow24_of_sbOpcode (o : SbOpcode) (d c b a : BitVec 4) (hi : BitVec 2) :
    decodeRow24 d c b a hi o.bits = none := by
  cases o <;> rfl

end Sys2Proof
end

