-- ==== Sys2Proof/Laws/Memory.lean ====
section
/-! SUPPORT. Memory as data: a read after a write, and that every operation keeps the canonical form and
the bound. -/

namespace Sys2Proof.Machine

@[simp] theorem Memory.read_nil (a : Nat) : Memory.read [] a = none := rfl

/-- A read after a write gives the byte written at its address and leaves every other address alone. -/
@[simp] theorem Memory.read_write (m : Memory) (a k : Nat) (b : Byte) :
    (m.write a b).read k = if k = a then some b else m.read k := by
  induction m with
  | nil => simp [Memory.write, Memory.read, Memory.unlisted]
  | cons c m ih =>
    obtain ⟨x, v⟩ := c
    simp only [Memory.write]
    by_cases h1 : a < x
    · simp only [h1, if_true, Memory.read]
    · by_cases h2 : a = x
      · subst h2
        simp only [lt_irrefl, if_false, if_true, Memory.read]
        split_ifs <;> rfl
      · simp only [h1, h2, if_false, Memory.read, ih]
        split_ifs <;> first | rfl | omega

/-- A write keeps the addresses rising from any bound not above the address written. -/
theorem Memory.risingFrom_write (m : Memory) (lo a : Nat) (b : Byte)
    (h : Memory.risingFrom lo m = true) (ha : lo ≤ a) :
    Memory.risingFrom lo (m.write a b) = true := by
  induction m generalizing lo with
  | nil => simpa [Memory.write, Memory.risingFrom] using ha
  | cons c m ih =>
    obtain ⟨x, v⟩ := c
    simp only [Memory.risingFrom, Bool.and_eq_true, decide_eq_true_eq] at h
    obtain ⟨hx, hm⟩ := h
    simp only [Memory.write]
    split_ifs with h1 h2
    · simp [Memory.risingFrom, hm]; omega
    · subst h2; simp [Memory.risingFrom, hm]; omega
    · simp only [Memory.risingFrom, Bool.and_eq_true, decide_eq_true_eq]
      exact ⟨hx, ih (x + 1) hm (by omega)⟩

/-- A write keeps the canonical form. -/
theorem Memory.wf_write (m : Memory) (a : Nat) (b : Byte) (h : m.wf = true) :
    (m.write a b).wf = true :=
  Memory.risingFrom_write m 0 a b h (Nat.zero_le a)

/-- A write below the bound keeps the bound. -/
theorem Memory.within_write (m : Memory) (size a : Nat) (b : Byte)
    (h : m.within size = true) (ha : a < size) : (m.write a b).within size = true := by
  induction m with
  | nil => simpa [Memory.write, Memory.within] using ha
  | cons c m ih =>
    obtain ⟨x, v⟩ := c
    simp only [Memory.within, List.all_cons, Bool.and_eq_true, decide_eq_true_eq] at h
    obtain ⟨hx, hm⟩ := h
    simp only [Memory.write]
    split_ifs
    · simp only [Memory.within, List.all_cons, Bool.and_eq_true, decide_eq_true_eq]
      exact ⟨ha, hx, hm⟩
    · simp only [Memory.within, List.all_cons, Bool.and_eq_true, decide_eq_true_eq]
      exact ⟨ha, hm⟩
    · simp only [Memory.within, List.all_cons, Bool.and_eq_true, decide_eq_true_eq]
      exact ⟨hx, ih hm⟩

/-- Loading an image keeps the canonical form. -/
theorem Memory.wf_load (size : Nat) (image : List Host.Cell) (m : Memory) (h : m.wf = true) :
    (Memory.load size m image).wf = true := by
  induction image generalizing m with
  | nil => exact h
  | cons c image ih =>
    simp only [Memory.load, List.foldl_cons]
    refine ih _ ?_
    split_ifs
    · exact Memory.wf_write m _ _ h
    · exact h

/-- Loading an image lists only bytes that exist. -/
theorem Memory.within_load (size : Nat) (image : List Host.Cell) (m : Memory)
    (h : m.within size = true) : (Memory.load size m image).within size = true := by
  induction image generalizing m with
  | nil => exact h
  | cons c image ih =>
    simp only [Memory.load, List.foldl_cons]
    refine ih _ ?_
    split_ifs with hc
    · exact Memory.within_write m size _ _ h hc
    · exact h

/-- Placing bytes keeps the canonical form. -/
theorem Memory.wf_place (bs : List Byte) (m : Memory) (a : Nat) (h : m.wf = true) :
    (m.place a bs).wf = true := by
  induction bs generalizing m a with
  | nil => exact h
  | cons b bs ih =>
    simp only [Memory.place]
    refine ih _ _ ?_
    split_ifs
    · exact Memory.wf_write m _ _ h
    · exact h

/-- Placing bytes leaves every address outside them alone. -/
theorem Memory.read_place_outside (bs : List Byte) (m : Memory) (a k : Nat)
    (h : k < a ∨ a + bs.length ≤ k) : (m.place a bs).read k = m.read k := by
  induction bs generalizing m a with
  | nil => rfl
  | cons b bs ih =>
    simp only [List.length_cons] at h
    simp only [Memory.place]
    rw [ih _ _ (by omega)]
    split_ifs
    · rw [Memory.read_write, if_neg (by omega)]
    · rfl

/-- A memory within a bound reads as no value at and beyond it. -/
theorem Memory.read_of_within (m : Memory) (size a : Nat) (h : m.within size = true) (ha : size ≤ a) :
    m.read a = none := by
  induction m with
  | nil => rfl
  | cons c m ih =>
    obtain ⟨x, v⟩ := c
    simp only [Memory.within, List.all_cons, Bool.and_eq_true, decide_eq_true_eq] at h
    simp only [Memory.read]
    rw [if_neg (by omega), ih h.2]

end Sys2Proof.Machine
end

