-- ==== Sys2Proof/Laws/State.lean ====
section
/-! SUPPORT. The small lemmas of the state's updates: one per field per update, and what a register reads
as after a register write. -/

namespace Sys2Proof.Machine

@[simp] theorem setReg_pc (s : State) (r : Reg) (v : Word) : (s.setReg r v).pc = s.pc := rfl
@[simp] theorem setReg_dmem (s : State) (r : Reg) (v : Word) : (s.setReg r v).dmem = s.dmem := rfl
@[simp] theorem setReg_imem (s : State) (r : Reg) (v : Word) : (s.setReg r v).imem = s.imem := rfl
@[simp] theorem setReg_params (s : State) (r : Reg) (v : Word) : (s.setReg r v).params = s.params := rfl

@[simp] theorem setPc_pc (s : State) (t : Word) : (s.setPc t).pc = t := rfl
@[simp] theorem setPc_regs (s : State) (t : Word) : (s.setPc t).regs = s.regs := rfl
@[simp] theorem setPc_dmem (s : State) (t : Word) : (s.setPc t).dmem = s.dmem := rfl
@[simp] theorem setPc_imem (s : State) (t : Word) : (s.setPc t).imem = s.imem := rfl
@[simp] theorem setPc_params (s : State) (t : Word) : (s.setPc t).params = s.params := rfl
@[simp] theorem setPc_written (s : State) (t : Word) : (s.setPc t).written = s.written := rfl
@[simp] theorem setPc_reg (s : State) (t : Word) (r : Reg) : (s.setPc t).reg r = s.reg r := rfl
@[simp] theorem setPc_isWritten (s : State) (t : Word) (r : Reg) :
    (s.setPc t).isWritten r = s.isWritten r := rfl

@[simp] theorem setDmem_pc (s : State) (m : Memory) : (s.setDmem m).pc = s.pc := rfl
@[simp] theorem setDmem_regs (s : State) (m : Memory) : (s.setDmem m).regs = s.regs := rfl
@[simp] theorem setDmem_dmem (s : State) (m : Memory) : (s.setDmem m).dmem = m := rfl
@[simp] theorem setDmem_imem (s : State) (m : Memory) : (s.setDmem m).imem = s.imem := rfl
@[simp] theorem setDmem_params (s : State) (m : Memory) : (s.setDmem m).params = s.params := rfl
@[simp] theorem setDmem_written (s : State) (m : Memory) : (s.setDmem m).written = s.written := rfl
@[simp] theorem setDmem_reg (s : State) (m : Memory) (r : Reg) : (s.setDmem m).reg r = s.reg r := rfl
@[simp] theorem setDmem_isWritten (s : State) (m : Memory) (r : Reg) :
    (s.setDmem m).isWritten r = s.isWritten r := rfl

/-- A register reads as what was last written to it. -/
@[simp] theorem reg_setReg (s : State) (r q : Reg) (v : Word) :
    (s.setReg r v).reg q = if q = r then v else s.reg q := by
  simp [State.setReg, State.reg, Vector.getElem_set, Fin.ext_iff, eq_comm]

/-- Exactly the register written counts as written from then on. -/
@[simp] theorem isWritten_setReg (s : State) (r q : Reg) (v : Word) :
    (s.setReg r v).isWritten q = if q = r then true else s.isWritten q := by
  simp [State.setReg, State.isWritten, Vector.getElem_set, Fin.ext_iff, eq_comm]

@[simp] theorem writeback_pc (s : State) (rd : Reg) (v len : Word) :
    (s.writeback rd v len).pc = s.pc + len := rfl
@[simp] theorem writeback_dmem (s : State) (rd : Reg) (v len : Word) :
    (s.writeback rd v len).dmem = s.dmem := rfl
@[simp] theorem writeback_imem (s : State) (rd : Reg) (v len : Word) :
    (s.writeback rd v len).imem = s.imem := rfl
@[simp] theorem writeback_params (s : State) (rd : Reg) (v len : Word) :
    (s.writeback rd v len).params = s.params := rfl
@[simp] theorem writeback_reg (s : State) (rd q : Reg) (v len : Word) :
    (s.writeback rd v len).reg q = if q = rd then v else s.reg q := by
  simp [State.writeback]
@[simp] theorem writeback_isWritten (s : State) (rd q : Reg) (v len : Word) :
    (s.writeback rd v len).isWritten q = if q = rd then true else s.isWritten q := by
  simp [State.writeback]

/-- The state after reset is the launch with the default parameters and empty images. -/
theorem reset_eq_launch : State.reset = State.launch Params.default [] [] := rfl

end Sys2Proof.Machine
end

