-- ==== Sys2Proof/Laws/Ops.lean ====
section
/-! SUPPORT. One lemma for each shared operation that says once everything it can do. -/

namespace Sys2Proof.Machine

/-! ## Results and conditions -/

theorem next24_eq (s : State) (rd : Reg) (v : Word) : next24 s rd v = .next (s.writeback rd v 3) := rfl

theorem next16_eq (s : State) (rd : Reg) (v : Word) : next16 s rd v = .next (s.writeback rd v 2) := rfl

theorem branchOn_eq (s : State) (taken : Bool) (simm10 : BitVec 10) :
    branchOn s taken simm10 =
      .next (s.setPc (if taken then branchTarget s.pc simm10 else s.pc + 3)) := rfl

/-- A 24-bit register shift goes on exactly with a distance that `SHIFT_AMOUNT` allows. -/
theorem shift24_next {s t : State} {rd : Reg} {a d : Word} {op : Word → Nat → Word} :
    shift24 s rd a d op = .next t ↔
      ∃ n, shamt s.params.shiftAmount d = some n ∧ t = s.writeback rd (op a n) 3 := by
  unfold shift24
  cases shamt s.params.shiftAmount d <;> simp [next24_eq, eq_comm]

/-- A 24-bit register shift stops only with its distance, and only under `refuse`. -/
theorem shift24_fault {s : State} {f : Fault} {rd : Reg} {a d : Word} {op : Word → Nat → Word} :
    shift24 s rd a d op = .fault f ↔
      shamt s.params.shiftAmount d = none ∧ f = .shiftDistanceOutOfRange d := by
  unfold shift24
  cases shamt s.params.shiftAmount d <;> simp [next24_eq, eq_comm]

/-- A 16-bit register shift goes on exactly with a distance that `SHIFT_AMOUNT` allows. -/
theorem shift16_next {s t : State} {rd : Reg} {a d : Word} {op : Word → Nat → Word} :
    shift16 s rd a d op = .next t ↔
      ∃ n, shamt s.params.shiftAmount d = some n ∧ t = s.writeback rd (op a n) 2 := by
  unfold shift16
  cases shamt s.params.shiftAmount d <;> simp [next16_eq, eq_comm]

/-- A 16-bit register shift stops only with its distance, and only under `refuse`. -/
theorem shift16_fault {s : State} {f : Fault} {rd : Reg} {a d : Word} {op : Word → Nat → Word} :
    shift16 s rd a d op = .fault f ↔
      shamt s.params.shiftAmount d = none ∧ f = .shiftDistanceOutOfRange d := by
  unfold shift16
  cases shamt s.params.shiftAmount d <;> simp [next16_eq, eq_comm]

theorem shift24_not_refused (s : State) (rd : Reg) (a d : Word) (op : Word → Nat → Word) (r : Refusal) :
    shift24 s rd a d op ≠ .refused r := by
  unfold shift24
  cases shamt s.params.shiftAmount d <;> simp [next24_eq]

theorem shift16_not_refused (s : State) (rd : Reg) (a d : Word) (op : Word → Nat → Word) (r : Refusal) :
    shift16 s rd a d op ≠ .refused r := by
  unfold shift16
  cases shamt s.params.shiftAmount d <;> simp [next16_eq]

/-- Only `refuse` has distances it does not allow: those above 15. -/
theorem shamt_eq_none {k : ShiftAmount} {v : Word} : shamt k v = none ↔ k = .refuse ∧ 15 < v.toNat := by
  cases k <;> simp [shamt]

/-! ## The checks of an access -/

/-- The checks pass exactly for an aligned access inside the memory. -/
theorem checkAccess_ok {p : Params} {size : AccessSize} {a : Word} {u : Unit} :
    checkAccess p size a = .ok u ↔ misaligned size a = false ∧ inDmem p size a = true := by
  unfold checkAccess
  cases misaligned size a <;> cases inDmem p size a <;> simp

/-- The stop of a failed check: alignment first, then range (R204). -/
theorem checkAccess_error {p : Params} {size : AccessSize} {a : Word} {f : Fault} :
    checkAccess p size a = .error f ↔
      (misaligned size a = true ∧ f = .misalignedAccess a) ∨
        (misaligned size a = false ∧ inDmem p size a = false ∧ f = .accessOutOfRange a) := by
  unfold checkAccess
  cases misaligned size a <;> cases inDmem p size a <;> simp [eq_comm]

/-- A store's checks pass exactly for an aligned access inside the memory and outside the code. -/
theorem checkStore_ok {p : Params} {size : AccessSize} {a : Word} {u : Unit} :
    checkStore p size a = .ok u ↔
      misaligned size a = false ∧ inDmem p size a = true ∧ hitsCode p size a = false := by
  unfold checkStore checkAccess
  cases misaligned size a <;> cases inDmem p size a <;> cases hitsCode p size a <;> simp

/-- The stop of a store's failed check, in R204's order. -/
theorem checkStore_error {p : Params} {size : AccessSize} {a : Word} {f : Fault} :
    checkStore p size a = .error f ↔
      (misaligned size a = true ∧ f = .misalignedAccess a) ∨
        (misaligned size a = false ∧ inDmem p size a = false ∧ f = .accessOutOfRange a) ∨
        (misaligned size a = false ∧ inDmem p size a = true ∧ hitsCode p size a = true ∧
          f = .storeToCode a) := by
  unfold checkStore checkAccess
  cases misaligned size a <;> cases inDmem p size a <;> cases hitsCode p size a <;> simp [eq_comm]

/-! ## Reads and writes of data memory -/

theorem readByteOf_ok {m : Memory} {a : Nat} {b : Byte} : readByteOf m a = .ok b ↔ m.read a = some b := by
  unfold readByteOf
  cases m.read a <;> simp

theorem readByteOf_error {m : Memory} {a : Nat} {f : Fault} :
    readByteOf m a = .error f ↔ m.read a = none ∧ f = .unwrittenMemory (BitVec.ofNat 16 a) := by
  unfold readByteOf
  cases m.read a <;> simp [eq_comm]

/-- `MemRead(a, 1)` answers a byte exactly where the checks pass and the byte holds a value. -/
theorem memReadByte_ok {s : State} {a : Word} {b : Byte} :
    memReadByte s a = .ok b ↔
      inDmem s.params .byte a = true ∧ s.dmem.read a.toNat = some b := by
  unfold memReadByte checkAccess readByteOf
  have hm : misaligned .byte a = false := rfl
  cases inDmem s.params .byte a <;> cases s.dmem.read a.toNat <;> simp [hm]

/-- `MemRead(a, 1)` stops out of range, or at a byte that holds no value. -/
theorem memReadByte_error {s : State} {a : Word} {f : Fault} :
    memReadByte s a = .error f ↔
      (inDmem s.params .byte a = false ∧ f = .accessOutOfRange a) ∨
        (inDmem s.params .byte a = true ∧ s.dmem.read a.toNat = none ∧ f = .unwrittenMemory a) := by
  unfold memReadByte checkAccess readByteOf
  have hm : misaligned .byte a = false := rfl
  have ha : BitVec.ofNat 16 a.toNat = a := by simp
  cases inDmem s.params .byte a <;> cases s.dmem.read a.toNat <;> simp [hm, ha, eq_comm]

/-- `MemRead(a, 2)` answers the word of two bytes exactly where the checks pass and both hold values. -/
theorem memReadWord_ok {s : State} {a v : Word} :
    memReadWord s a = .ok v ↔
      misaligned .word a = false ∧ inDmem s.params .word a = true ∧
        ∃ lo hi : Byte, s.dmem.read a.toNat = some lo ∧ s.dmem.read (a.toNat + 1) = some hi ∧
          v = hi ++ lo := by
  unfold memReadWord checkAccess readByteOf
  cases misaligned .word a <;> cases inDmem s.params .word a <;>
    cases s.dmem.read a.toNat <;> cases s.dmem.read (a.toNat + 1) <;> simp [eq_comm]

/-- `MemRead(a, 2)` stops misaligned, out of range, or at the first of its bytes that holds no value. -/
theorem memReadWord_error {s : State} {a : Word} {f : Fault} :
    memReadWord s a = .error f ↔
      (misaligned .word a = true ∧ f = .misalignedAccess a) ∨
        (misaligned .word a = false ∧ inDmem s.params .word a = false ∧ f = .accessOutOfRange a) ∨
        (misaligned .word a = false ∧ inDmem s.params .word a = true ∧
          ((s.dmem.read a.toNat = none ∧ f = .unwrittenMemory a) ∨
            (s.dmem.read a.toNat ≠ none ∧ s.dmem.read (a.toNat + 1) = none ∧
              f = .unwrittenMemory (a + 1)))) := by
  unfold memReadWord checkAccess readByteOf
  have ha : BitVec.ofNat 16 a.toNat = a := by simp
  have ha1 : BitVec.ofNat 16 (a.toNat + 1) = a + 1 := by
    apply BitVec.eq_of_toNat_eq; simp [BitVec.toNat_add]
  cases misaligned .word a <;> cases inDmem s.params .word a <;>
    cases s.dmem.read a.toNat <;> cases s.dmem.read (a.toNat + 1) <;> simp [ha, ha1, eq_comm]

/-- `MemWrite(a, 1, v)` answers exactly where the checks pass: one byte written. -/
theorem memWriteByte_ok {s t : State} {a : Word} {b : Byte} :
    memWriteByte s a b = .ok t ↔
      inDmem s.params .byte a = true ∧ hitsCode s.params .byte a = false ∧
        t = s.setDmem (s.dmem.write a.toNat b) := by
  unfold memWriteByte checkStore checkAccess
  have hm : misaligned .byte a = false := rfl
  cases inDmem s.params .byte a <;> cases hitsCode s.params .byte a <;> simp [hm, eq_comm]

/-- `MemWrite(a, 1, v)` stops exactly as its checks do. -/
theorem memWriteByte_error {s : State} {a : Word} {b : Byte} {f : Fault} :
    memWriteByte s a b = .error f ↔ checkStore s.params .byte a = .error f := by
  unfold memWriteByte
  cases checkStore s.params .byte a <;> simp

/-- `MemWrite(a, 2, v)` answers exactly where the checks pass: the low byte at `a`, the high at `a + 1`. -/
theorem memWriteWord_ok {s t : State} {a v : Word} :
    memWriteWord s a v = .ok t ↔
      misaligned .word a = false ∧ inDmem s.params .word a = true ∧ hitsCode s.params .word a = false ∧
        t = s.setDmem ((s.dmem.write a.toNat (v.extractLsb' 0 8)).write (a.toNat + 1)
          (v.extractLsb' 8 8)) := by
  unfold memWriteWord checkStore checkAccess
  cases misaligned .word a <;> cases inDmem s.params .word a <;> cases hitsCode s.params .word a <;>
    simp [eq_comm]

/-- `MemWrite(a, 2, v)` stops exactly as its checks do. -/
theorem memWriteWord_error {s : State} {a v : Word} {f : Fault} :
    memWriteWord s a v = .error f ↔ checkStore s.params .word a = .error f := by
  unfold memWriteWord
  cases checkStore s.params .word a <;> simp

/-! ## The load and store operations -/

theorem andThen_next {α : Type} {e : Except Fault α} {k : α → Res} {t : State} :
    andThen e k = .next t ↔ ∃ v, e = .ok v ∧ k v = .next t := by
  cases e <;> simp [andThen]

theorem andThen_fault {α : Type} {e : Except Fault α} {k : α → State} {f : Fault} :
    (andThen e fun v => .next (k v)) = .fault f ↔ e = .error f := by
  cases e <;> simp [andThen]

theorem andThen_not_refused {α : Type} (e : Except Fault α) (k : α → State) (r : Refusal) :
    (andThen e fun v => .next (k v)) ≠ .refused r := by
  cases e <;> simp [andThen]

/-- A word load goes on exactly where the read does, with the word in `rd`. -/
theorem loadWordInto_next {s t : State} {rd : Reg} {ea len : Word} :
    loadWordInto s rd ea len = .next t ↔
      ∃ v, memReadWord s ea = .ok v ∧ t = s.writeback rd v len := by
  simp only [loadWordInto, andThen_next, Host.Outcome.next.injEq, eq_comm (b := t)]

/-- A byte load goes on exactly where the read does, with the widened byte in `rd`. -/
theorem loadByteInto_next {s t : State} {rd : Reg} {ea : Word} {ext : Byte → Word} :
    loadByteInto s rd ea ext = .next t ↔
      ∃ b, memReadByte s ea = .ok b ∧ t = s.writeback rd (ext b) 3 := by
  simp only [loadByteInto, andThen_next, Host.Outcome.next.injEq, eq_comm (b := t)]

/-- A word store goes on exactly where the write does. -/
theorem storeWordAt_next {s t : State} {ea v len : Word} :
    storeWordAt s ea v len = .next t ↔
      ∃ u, memWriteWord s ea v = .ok u ∧ t = u.setPc (s.pc + len) := by
  simp only [storeWordAt, andThen_next, Host.Outcome.next.injEq, eq_comm (b := t)]

/-- A byte store goes on exactly where the write does. -/
theorem storeByteAt_next {s t : State} {ea : Word} {b : Byte} :
    storeByteAt s ea b = .next t ↔
      ∃ u, memWriteByte s ea b = .ok u ∧ t = u.setPc (s.pc + 3) := by
  simp only [storeByteAt, andThen_next, Host.Outcome.next.injEq, eq_comm (b := t)]

theorem loadWordInto_fault {s : State} {f : Fault} {rd : Reg} {ea len : Word} :
    loadWordInto s rd ea len = .fault f ↔ memReadWord s ea = .error f := andThen_fault

theorem loadByteInto_fault {s : State} {f : Fault} {rd : Reg} {ea : Word} {ext : Byte → Word} :
    loadByteInto s rd ea ext = .fault f ↔ memReadByte s ea = .error f := andThen_fault

theorem storeWordAt_fault {s : State} {f : Fault} {ea v len : Word} :
    storeWordAt s ea v len = .fault f ↔ checkStore s.params .word ea = .error f :=
  andThen_fault.trans memWriteWord_error

theorem storeByteAt_fault {s : State} {f : Fault} {ea : Word} {b : Byte} :
    storeByteAt s ea b = .fault f ↔ checkStore s.params .byte ea = .error f :=
  andThen_fault.trans memWriteByte_error

end Sys2Proof.Machine
end

