-- ==== Sys2Proof/Laws/Exec.lean ====
section
/-! SUPPORT. What an instruction can do when it goes on, said once for all instructions; and what a step is. -/

namespace Sys2Proof.Machine

/-- A step goes on exactly where the fetched word decodes and its instruction goes on. -/
theorem step_next {s t : State} :
    step s = .next t ↔
      ∃ w i, fetch s = .ok w ∧ decodeWord s.params w = some i ∧ exec i s = .next t := by
  unfold step
  cases fetch s with
  | error f => simp
  | ok w => cases h : decodeWord s.params w <;> simp [h]

/-- The shapes of a next state: a register written and the pc advanced; a link written and a jump; only
the pc moved; a data write and the pc advanced. -/
inductive Effect (i : Instr) (s : State) : State → Prop where
  | result (rd : Reg) (v : Word) (hw : writes i = [rd]) (hs : isStore i = false)
      (ht : isTransfer i = false) : Effect i s (s.writeback rd v (BitVec.ofNat 16 i.length))
  | link (v target : Word) (hw : writes i = [Reg.ra]) (hs : isStore i = false)
      (ht : isTransfer i = true) : Effect i s ((s.setReg Reg.ra v).setPc target)
  | goTo (target : Word) (hw : writes i = []) (hs : isStore i = false)
      (ht : isTransfer i = false → target = s.pc + BitVec.ofNat 16 i.length) : Effect i s (s.setPc target)
  | storeByte (a : Word) (b : Byte) (hw : writes i = []) (hs : isStore i = true)
      (ht : isTransfer i = false) (hd : dataAccess s i = some (.byte, a))
      (hc : checkStore s.params .byte a = .ok ()) :
      Effect i s ((s.setDmem (s.dmem.write a.toNat b)).setPc (s.pc + BitVec.ofNat 16 i.length))
  | storeWord (a v : Word) (hw : writes i = []) (hs : isStore i = true)
      (ht : isTransfer i = false) (hd : dataAccess s i = some (.word, a))
      (hc : checkStore s.params .word a = .ok ()) :
      Effect i s ((s.setDmem ((s.dmem.write a.toNat (v.extractLsb' 0 8)).write (a.toNat + 1)
        (v.extractLsb' 8 8))).setPc (s.pc + BitVec.ofNat 16 i.length))

theorem Effect.of_storeWordAt {i : Instr} {s t : State} {ea v len : Word}
    (hlen : len = BitVec.ofNat 16 i.length) (hw : writes i = []) (hs : isStore i = true)
    (ht : isTransfer i = false) (hd : dataAccess s i = some (.word, ea))
    (h : storeWordAt s ea v len = .next t) : Effect i s t := by
  obtain ⟨u, hu, rfl⟩ := storeWordAt_next.mp h
  obtain ⟨h1, h2, h3, rfl⟩ := memWriteWord_ok.mp hu
  rw [hlen]
  exact .storeWord ea v hw hs ht hd (checkStore_ok.mpr ⟨h1, h2, h3⟩)

/-- Whatever goes on has one of the five shapes. -/
theorem exec_effect {i : Instr} {s t : State} (h : exec i s = .next t) : Effect i s t := by
  cases i
  case add | sub | and | xor | or | addi | andi | xori | ori | li | lsli | lsri | asri =>
    obtain rfl := Host.Outcome.next.inj h
    exact .result _ _ rfl rfl rfl
  case mov | add2 | sub2 | and2 | xor2 | or2 | addi2 | andi2 | lsi | lui | lsli2 | lsri2 | asri2 =>
    obtain rfl := Host.Outcome.next.inj h
    exact .result _ _ rfl rfl rfl
  case lsl | lsr | asr =>
    obtain ⟨n, _, rfl⟩ := shift24_next.mp h
    exact .result _ _ rfl rfl rfl
  case lsl2 | lsr2 | asr2 =>
    obtain ⟨n, _, rfl⟩ := shift16_next.mp h
    exact .result _ _ rfl rfl rfl
  case beq | bne | blt | bltu | ble | bleu | j | jr | js =>
    obtain rfl := Host.Outcome.next.inj h
    exact .goTo _ rfl rfl (fun ht => by cases ht)
  case jal | jalr | jsal =>
    obtain rfl := Host.Outcome.next.inj h
    exact .link _ _ rfl rfl rfl
  case nop =>
    obtain rfl := Host.Outcome.next.inj h
    exact .goTo _ rfl rfl (fun _ => rfl)
  case lw | lwsp =>
    obtain ⟨v, _, rfl⟩ := loadWordInto_next.mp h
    exact .result _ _ rfl rfl rfl
  case lb | lbu =>
    obtain ⟨b, _, rfl⟩ := loadByteInto_next.mp h
    exact .result _ _ rfl rfl rfl
  case sw => exact .of_storeWordAt rfl rfl rfl rfl rfl h
  case swsp => exact .of_storeWordAt rfl rfl rfl rfl rfl h
  case sb =>
    obtain ⟨u, hu, rfl⟩ := storeByteAt_next.mp h
    obtain ⟨h2, h3, rfl⟩ := memWriteByte_ok.mp hu
    exact .storeByte _ _ rfl rfl rfl rfl (checkStore_ok.mpr ⟨rfl, h2, h3⟩)

end Sys2Proof.Machine
end

