-- ==== Sys2Proof/Laws/Fetch.lean ====
section
/-! SUPPORT. What a fetch can do, said once: the bytes it reads when it answers a word, and its two stops. -/

namespace Sys2Proof.Machine

/-- `n` bytes from `a` on can be fetched exactly where each of them lies in the range that fetch may read. -/
theorem fetchable_iff {p : Params} {a n : Nat} (hn : 0 < n) :
    fetchable p a n = true ↔ ∀ k < n, FetchRange p (a + k) := by
  unfold fetchable FetchRange
  cases p.memOrg with
  | harvard =>
    simp only [Bool.and_eq_true, decide_eq_true_eq]
    refine ⟨fun h k hk => by omega, fun h => ?_⟩
    have := h (n - 1) (by omega)
    omega
  | unified lo hi =>
    simp only [Bool.and_eq_true, decide_eq_true_eq]
    refine ⟨fun h k hk => by omega, fun h => ?_⟩
    have := h (n - 1) (by omega)
    have := h 0 hn
    omega

/-- A fetch answers a word exactly of bytes that may be fetched and hold values: two when bit 0 of the first is 0,
three when it is 1. -/
theorem fetch_ok {s : State} {w : InstWord} (h : fetch s = .ok w) :
    ∃ b0 b1 : Byte, s.codeMem.read s.pc.toNat = some b0 ∧ s.codeMem.read (s.pc.toNat + 1) = some b1 ∧
      fetchable s.params s.pc.toNat 2 = true ∧
      ((b0.getLsbD 0 = false ∧ w = halfOfBytes b0 b1) ∨
        (b0.getLsbD 0 = true ∧ fetchable s.params s.pc.toNat 3 = true ∧
          ∃ b2 : Byte, s.codeMem.read (s.pc.toNat + 2) = some b2 ∧ w = fullOfBytes b0 b1 b2)) := by
  unfold fetch readByteOf at h
  cases hf2 : fetchable s.params s.pc.toNat 2
  · simp [hf2] at h
  rcases h0 : s.codeMem.read s.pc.toNat with _ | b0
  · simp [hf2, h0] at h
  rcases h1 : s.codeMem.read (s.pc.toNat + 1) with _ | b1
  · simp only [hf2, h0, h1] at h
    split_ifs at h
  refine ⟨b0, b1, rfl, rfl, rfl, ?_⟩
  simp only [hf2, h0, h1, Bool.not_true, Bool.false_eq_true, if_false] at h
  cases hb : b0.getLsbD 0
  · simp only [hb, Bool.false_eq_true, if_false] at h
    exact .inl ⟨rfl, (Except.ok.inj h).symm⟩
  · cases hf3 : fetchable s.params s.pc.toNat 3
    · simp only [hb, hf3, if_true, Bool.not_false] at h
      simp at h
    rcases h2 : s.codeMem.read (s.pc.toNat + 2) with _ | b2
    · simp only [hb, hf3, h2, if_true, Bool.not_true, Bool.false_eq_true, if_false] at h
      simp at h
    · simp only [hb, hf3, h2, if_true, Bool.not_true, Bool.false_eq_true, if_false] at h
      exact .inr ⟨rfl, rfl, b2, rfl, (Except.ok.inj h).symm⟩

/-- A fetch stops with `FetchOutOfRange(pc)` or at one of its bytes that holds no value. -/
theorem fetch_error {s : State} {f : Fault} (h : fetch s = .error f) :
    f = .fetchOutOfRange s.pc ∨
      ∃ k < 3, s.codeMem.read (s.pc.toNat + k) = none ∧
        f = .unwrittenMemory (BitVec.ofNat 16 (s.pc.toNat + k)) := by
  unfold fetch readByteOf at h
  cases hf2 : fetchable s.params s.pc.toNat 2
  · simp [hf2] at h
    exact .inl h.symm
  rcases h0 : s.codeMem.read s.pc.toNat with _ | b0
  · simp only [hf2, h0, Bool.not_true, Bool.false_eq_true, if_false] at h
    exact .inr ⟨0, by omega, h0, (Except.error.inj h).symm⟩
  rcases h1 : s.codeMem.read (s.pc.toNat + 1) with _ | b1
  · simp only [hf2, h0, h1, Bool.not_true, Bool.false_eq_true, if_false] at h
    split_ifs at h
    · exact .inl (Except.error.inj h).symm
    · exact .inr ⟨1, by omega, h1, (Except.error.inj h).symm⟩
    · exact .inr ⟨1, by omega, h1, (Except.error.inj h).symm⟩
  rcases h2 : s.codeMem.read (s.pc.toNat + 2) with _ | b2
  · simp only [hf2, h0, h1, h2, Bool.not_true, Bool.false_eq_true, if_false] at h
    split_ifs at h
    · exact .inl (Except.error.inj h).symm
    · exact .inr ⟨2, by omega, h2, (Except.error.inj h).symm⟩
  · simp only [hf2, h0, h1, h2, Bool.not_true, Bool.false_eq_true, if_false] at h
    split_ifs at h
    exact .inl (Except.error.inj h).symm

end Sys2Proof.Machine
end

