-- ==== Sys2Proof/Laws/Frames.lean ====
section
/-! SUPPORT. The frames of Safety.lean from the three shapes of a next state: a register result, a move of the pc,
a link with a jump. -/

namespace Sys2Proof.Machine

/-- A register result meets `SetsReg`, whatever is to be said of the value. -/
theorem setsReg_of_writeback {i : Instr} {s : State} {rd : Reg} {v len : Word} {post : Word → Prop}
    (h : exec i s = .next (s.writeback rd v len)) (hp : post v) : SetsReg i s rd len post := by
  refine ⟨_, h, by simpa using hp, by simp, by simp, fun q hq => ?_, fun a => by simp,
    fun a => by simp, by simp⟩
  rw [List.mem_singleton] at hq
  simp [hq]

/-- A move of the pc meets `MovesPc`. -/
theorem movesPc_of_setPc {i : Instr} {s : State} {t : Word} {post : Word → Prop}
    (h : exec i s = .next (s.setPc t)) (hp : post t) : MovesPc i s post :=
  ⟨_, h, by simpa using hp, fun q _ => by simp, fun a => by simp, fun a => by simp, by simp⟩

/-- A link with a jump writes the link register and the pc only. -/
theorem writesOnlyReg_of_link (s : State) (rd : Reg) (v t : Word) :
    WritesOnlyReg rd s ((s.setReg rd v).setPc t) := by
  refine ⟨by simp, fun q hq => ?_, fun a => by simp, fun a => by simp, by simp⟩
  rw [List.mem_singleton] at hq
  simp [hq]

end Sys2Proof.Machine
end

