-- ==== Sys2Proof/Laws/PerInstr.lean ====
section
/-! SUPPORT. The per-instruction family DecodeEncode: the word the encoder gives an instruction decodes to
that instruction, one lemma for each constructor. -/

namespace Sys2Proof.Laws

/-- Under legal parameters, the word of the instruction (if it has one) decodes to it. -/
def DecodeEncode.Statement (i : Instr) : Prop :=
  ∀ (p : Params) (w : InstWord), p.wf = true → encode p i = some w → decodeWord p w = some i

/-- The fields of the word that `encode` gives decode to `i`: what each lemma below comes down to. -/
theorem decodeEncode_of_eq {i : Instr} {u : InstWord} (henc : ∀ p, encode p i = some u)
    (hdec : ∀ p, decodeWord p u = some i) : DecodeEncode.Statement i := by
  intro p w _ h
  rw [henc p] at h
  obtain rfl := Option.some.inj h
  exact hdec p

/-- A supplied opcode of J or JAL is free, and differs from SB's. -/
theorem openOpcode_spec {p : Params} {o : BitVec 8} (h : p.openOpcodeWf o = true) :
    opcode8Free o = true ∧ p.sbOpcode.map SbOpcode.bits ≠ some (o.extractLsb' 0 6) := by
  simpa [Params.openOpcodeWf] using h

/-- Under legal parameters the supplied opcodes of J and JAL are legal and differ. -/
theorem wf_openOpcodes {p : Params} (h : p.wf = true) :
    (∀ o, p.jOpcode = some o → p.openOpcodeWf o = true) ∧
      (∀ o, p.jalOpcode = some o → p.openOpcodeWf o = true) ∧
        (p.jOpcode.isNone = true ∨ p.jOpcode ≠ p.jalOpcode) := by
  simp only [Params.wf, Bool.and_eq_true, Bool.or_eq_true, bne_iff_ne, ne_eq] at h
  obtain ⟨⟨⟨_, hj⟩, hjal⟩, hne⟩ := h
  refine ⟨fun o ho => ?_, fun o ho => ?_, hne⟩
  · rw [ho] at hj; exact hj
  · rw [ho] at hjal; exact hjal

theorem DecodeEncode.add (rd rs1 rs2 : Reg) : DecodeEncode.Statement (Instr.add rd rs1 rs2) := by
  exact decodeEncode_of_eq (fun _ => rfl) fun p => by simp [encodeR24, decodeFields24, decodeRow24]

theorem DecodeEncode.sub (rd rs1 rs2 : Reg) : DecodeEncode.Statement (Instr.sub rd rs1 rs2) := by
  exact decodeEncode_of_eq (fun _ => rfl) fun p => by simp [encodeR24, decodeFields24, decodeRow24]

theorem DecodeEncode.and (rd rs1 rs2 : Reg) : DecodeEncode.Statement (Instr.and rd rs1 rs2) := by
  exact decodeEncode_of_eq (fun _ => rfl) fun p => by simp [encodeR24, decodeFields24, decodeRow24]

theorem DecodeEncode.xor (rd rs1 rs2 : Reg) : DecodeEncode.Statement (Instr.xor rd rs1 rs2) := by
  exact decodeEncode_of_eq (fun _ => rfl) fun p => by simp [encodeR24, decodeFields24, decodeRow24]

theorem DecodeEncode.or (rd rs1 rs2 : Reg) : DecodeEncode.Statement (Instr.or rd rs1 rs2) := by
  exact decodeEncode_of_eq (fun _ => rfl) fun p => by simp [encodeR24, decodeFields24, decodeRow24]

theorem DecodeEncode.lsl (rd rs1 rs2 : Reg) : DecodeEncode.Statement (Instr.lsl rd rs1 rs2) := by
  exact decodeEncode_of_eq (fun _ => rfl) fun p => by simp [encodeR24, decodeFields24, decodeRow24]

theorem DecodeEncode.lsr (rd rs1 rs2 : Reg) : DecodeEncode.Statement (Instr.lsr rd rs1 rs2) := by
  exact decodeEncode_of_eq (fun _ => rfl) fun p => by simp [encodeR24, decodeFields24, decodeRow24]

theorem DecodeEncode.asr (rd rs1 rs2 : Reg) : DecodeEncode.Statement (Instr.asr rd rs1 rs2) := by
  exact decodeEncode_of_eq (fun _ => rfl) fun p => by simp [encodeR24, decodeFields24, decodeRow24]

theorem DecodeEncode.addi (rd rs1 : Reg) (simm10 : BitVec 10) : DecodeEncode.Statement (Instr.addi rd rs1 simm10) := by
  exact decodeEncode_of_eq (fun _ => rfl) fun p => by simp [encodeImm24, decodeFields24, decodeRow24]

theorem DecodeEncode.andi (rd rs1 : Reg) (simm10 : BitVec 10) : DecodeEncode.Statement (Instr.andi rd rs1 simm10) := by
  exact decodeEncode_of_eq (fun _ => rfl) fun p => by simp [encodeImm24, decodeFields24, decodeRow24]

theorem DecodeEncode.xori (rd rs1 : Reg) (simm10 : BitVec 10) : DecodeEncode.Statement (Instr.xori rd rs1 simm10) := by
  exact decodeEncode_of_eq (fun _ => rfl) fun p => by simp [encodeImm24, decodeFields24, decodeRow24]

theorem DecodeEncode.ori (rd rs1 : Reg) (simm10 : BitVec 10) : DecodeEncode.Statement (Instr.ori rd rs1 simm10) := by
  exact decodeEncode_of_eq (fun _ => rfl) fun p => by simp [encodeImm24, decodeFields24, decodeRow24]

theorem DecodeEncode.li (rd : Reg) (simm10 : BitVec 10) : DecodeEncode.Statement (Instr.li rd simm10) := by
  exact decodeEncode_of_eq (fun _ => rfl) fun p => by simp [encodeImm24, decodeFields24, decodeRow24]

theorem DecodeEncode.lsli (rd rs1 : Reg) (uimm4 : BitVec 4) : DecodeEncode.Statement (Instr.lsli rd rs1 uimm4) := by
  exact decodeEncode_of_eq (fun _ => rfl) fun p => by simp [encodeS24, decodeFields24, decodeRow24]

theorem DecodeEncode.lsri (rd rs1 : Reg) (uimm4 : BitVec 4) : DecodeEncode.Statement (Instr.lsri rd rs1 uimm4) := by
  exact decodeEncode_of_eq (fun _ => rfl) fun p => by simp [encodeS24, decodeFields24, decodeRow24]

theorem DecodeEncode.asri (rd rs1 : Reg) (uimm4 : BitVec 4) : DecodeEncode.Statement (Instr.asri rd rs1 uimm4) := by
  exact decodeEncode_of_eq (fun _ => rfl) fun p => by simp [encodeS24, decodeFields24, decodeRow24]

theorem DecodeEncode.beq (rs1 rs2 : Reg) (simm10 : BitVec 10) : DecodeEncode.Statement (Instr.beq rs1 rs2 simm10) := by
  exact decodeEncode_of_eq (fun _ => rfl) fun p => by simp [encodeImm24, decodeFields24, decodeRow24]

theorem DecodeEncode.bne (rs1 rs2 : Reg) (simm10 : BitVec 10) : DecodeEncode.Statement (Instr.bne rs1 rs2 simm10) := by
  exact decodeEncode_of_eq (fun _ => rfl) fun p => by simp [encodeImm24, decodeFields24, decodeRow24]

theorem DecodeEncode.blt (rs1 rs2 : Reg) (simm10 : BitVec 10) : DecodeEncode.Statement (Instr.blt rs1 rs2 simm10) := by
  exact decodeEncode_of_eq (fun _ => rfl) fun p => by simp [encodeImm24, decodeFields24, decodeRow24]

theorem DecodeEncode.bltu (rs1 rs2 : Reg) (simm10 : BitVec 10) : DecodeEncode.Statement (Instr.bltu rs1 rs2 simm10) := by
  exact decodeEncode_of_eq (fun _ => rfl) fun p => by simp [encodeImm24, decodeFields24, decodeRow24]

theorem DecodeEncode.ble (rs1 rs2 : Reg) (simm10 : BitVec 10) : DecodeEncode.Statement (Instr.ble rs1 rs2 simm10) := by
  exact decodeEncode_of_eq (fun _ => rfl) fun p => by simp [encodeImm24, decodeFields24, decodeRow24]

theorem DecodeEncode.bleu (rs1 rs2 : Reg) (simm10 : BitVec 10) : DecodeEncode.Statement (Instr.bleu rs1 rs2 simm10) := by
  exact decodeEncode_of_eq (fun _ => rfl) fun p => by simp [encodeImm24, decodeFields24, decodeRow24]

theorem DecodeEncode.j (simm16 : BitVec 16) : DecodeEncode.Statement (Instr.j simm16) := by
  intro p w hp h
  obtain ⟨hj, _, _⟩ := wf_openOpcodes hp
  simp only [encode, Option.map_eq_some_iff] at h
  obtain ⟨o, ho, rfl⟩ := h
  obtain ⟨hfree, hsb⟩ := openOpcode_spec (hj o ho)
  simp only [encodeJ24, decodeWord_word24, decodeFields24, decodeRow24_of_free o hfree, Option.none_or]
  simp only [decodeOpen24, hsb, if_false, opcode8_split, ho, if_true]
  exact congrArg (fun v => some (Instr.j v)) (simm16_split simm16)

theorem DecodeEncode.jal (simm16 : BitVec 16) : DecodeEncode.Statement (Instr.jal simm16) := by
  intro p w hp h
  obtain ⟨_, hjal, hne⟩ := wf_openOpcodes hp
  simp only [encode, Option.map_eq_some_iff] at h
  obtain ⟨o, ho, rfl⟩ := h
  obtain ⟨hfree, hsb⟩ := openOpcode_spec (hjal o ho)
  have hj : p.jOpcode ≠ some o := by
    rcases hne with hn | hn
    · simp [Option.isNone_iff_eq_none.mp hn]
    · rwa [ho] at hn
  simp only [encodeJ24, decodeWord_word24, decodeFields24, decodeRow24_of_free o hfree, Option.none_or]
  simp only [decodeOpen24, hsb, if_false, opcode8_split, hj, ho, if_true]
  exact congrArg (fun v => some (Instr.jal v)) (simm16_split simm16)

theorem DecodeEncode.lw (rd : Reg) (simm10 : BitVec 10) (rs : Reg) : DecodeEncode.Statement (Instr.lw rd simm10 rs) := by
  exact decodeEncode_of_eq (fun _ => rfl) fun p => by simp [encodeImm24, decodeFields24, decodeRow24]

theorem DecodeEncode.lb (rd : Reg) (simm10 : BitVec 10) (rs : Reg) : DecodeEncode.Statement (Instr.lb rd simm10 rs) := by
  exact decodeEncode_of_eq (fun _ => rfl) fun p => by simp [encodeImm24, decodeFields24, decodeRow24]

theorem DecodeEncode.lbu (rd : Reg) (simm10 : BitVec 10) (rs : Reg) : DecodeEncode.Statement (Instr.lbu rd simm10 rs) := by
  exact decodeEncode_of_eq (fun _ => rfl) fun p => by simp [encodeImm24, decodeFields24, decodeRow24]

theorem DecodeEncode.sw (rs : Reg) (simm10 : BitVec 10) (rd : Reg) : DecodeEncode.Statement (Instr.sw rs simm10 rd) := by
  exact decodeEncode_of_eq (fun _ => rfl) fun p => by simp [encodeImm24, decodeFields24, decodeRow24]

theorem DecodeEncode.sb (rs : Reg) (simm10 : BitVec 10) (rd : Reg) : DecodeEncode.Statement (Instr.sb rs simm10 rd) := by
  intro p w _ h
  simp only [encode, Option.map_eq_some_iff] at h
  obtain ⟨o, ho, rfl⟩ := h
  simp [encodeImm24, decodeFields24, decodeRow24_of_sbOpcode, decodeOpen24, ho]

theorem DecodeEncode.mov (rd rs : Reg) : DecodeEncode.Statement (Instr.mov rd rs) := by
  exact decodeEncode_of_eq (fun _ => rfl) fun p => by simp [encodeR16, decodeFields16]

theorem DecodeEncode.add2 (rd rs : Reg) : DecodeEncode.Statement (Instr.add2 rd rs) := by
  exact decodeEncode_of_eq (fun _ => rfl) fun p => by simp [encodeR16, decodeFields16]

theorem DecodeEncode.sub2 (rd rs : Reg) : DecodeEncode.Statement (Instr.sub2 rd rs) := by
  exact decodeEncode_of_eq (fun _ => rfl) fun p => by simp [encodeR16, decodeFields16]

theorem DecodeEncode.and2 (rd rs : Reg) : DecodeEncode.Statement (Instr.and2 rd rs) := by
  exact decodeEncode_of_eq (fun _ => rfl) fun p => by simp [encodeR16, decodeFields16]

theorem DecodeEncode.xor2 (rd rs : Reg) : DecodeEncode.Statement (Instr.xor2 rd rs) := by
  exact decodeEncode_of_eq (fun _ => rfl) fun p => by simp [encodeR16, decodeFields16]

theorem DecodeEncode.or2 (rd rs : Reg) : DecodeEncode.Statement (Instr.or2 rd rs) := by
  exact decodeEncode_of_eq (fun _ => rfl) fun p => by simp [encodeR16, decodeFields16]

theorem DecodeEncode.lsl2 (rd rs : Reg) : DecodeEncode.Statement (Instr.lsl2 rd rs) := by
  exact decodeEncode_of_eq (fun _ => rfl) fun p => by simp [encodeR16, decodeFields16]

theorem DecodeEncode.lsr2 (rd rs : Reg) : DecodeEncode.Statement (Instr.lsr2 rd rs) := by
  exact decodeEncode_of_eq (fun _ => rfl) fun p => by simp [encodeR16, decodeFields16]

theorem DecodeEncode.asr2 (rd rs : Reg) : DecodeEncode.Statement (Instr.asr2 rd rs) := by
  exact decodeEncode_of_eq (fun _ => rfl) fun p => by simp [encodeR16, decodeFields16]

theorem DecodeEncode.addi2 (rd : Reg) (simm6 : BitVec 6) : DecodeEncode.Statement (Instr.addi2 rd simm6) := by
  exact decodeEncode_of_eq (fun _ => rfl) fun p => by simp [encodeI16, decodeFields16]

theorem DecodeEncode.andi2 (rd : Reg) (simm6 : BitVec 6) : DecodeEncode.Statement (Instr.andi2 rd simm6) := by
  exact decodeEncode_of_eq (fun _ => rfl) fun p => by simp [encodeI16, decodeFields16]

theorem DecodeEncode.lsi (rd : Reg) (simm6 : BitVec 6) : DecodeEncode.Statement (Instr.lsi rd simm6) := by
  exact decodeEncode_of_eq (fun _ => rfl) fun p => by simp [encodeI16, decodeFields16]

theorem DecodeEncode.lui (rd : Reg) (simm6 : BitVec 6) : DecodeEncode.Statement (Instr.lui rd simm6) := by
  exact decodeEncode_of_eq (fun _ => rfl) fun p => by simp [encodeI16, decodeFields16]

theorem DecodeEncode.lsli2 (rd : Reg) (uimm4 : BitVec 4) : DecodeEncode.Statement (Instr.lsli2 rd uimm4) := by
  exact decodeEncode_of_eq (fun _ => rfl) fun p => by simp [encodeS16, decodeFields16]

theorem DecodeEncode.lsri2 (rd : Reg) (uimm4 : BitVec 4) : DecodeEncode.Statement (Instr.lsri2 rd uimm4) := by
  exact decodeEncode_of_eq (fun _ => rfl) fun p => by simp [encodeS16, decodeFields16]

theorem DecodeEncode.asri2 (rd : Reg) (uimm4 : BitVec 4) : DecodeEncode.Statement (Instr.asri2 rd uimm4) := by
  exact decodeEncode_of_eq (fun _ => rfl) fun p => by simp [encodeS16, decodeFields16]

theorem DecodeEncode.jalr (rs : Reg) : DecodeEncode.Statement (Instr.jalr rs) := by
  exact decodeEncode_of_eq (fun _ => rfl) fun p => by simp [encodeJR16, decodeFields16]

theorem DecodeEncode.jr (rs : Reg) : DecodeEncode.Statement (Instr.jr rs) := by
  exact decodeEncode_of_eq (fun _ => rfl) fun p => by simp [encodeJR16, decodeFields16]

theorem DecodeEncode.js (simm11 : BitVec 11) : DecodeEncode.Statement (Instr.js simm11) := by
  refine decodeEncode_of_eq (fun _ => rfl) fun p => ?_
  rw [encodeJS16, decodeWord_word16]
  conv_rhs => rw [← simm11Of_split simm11]
  generalize simm11.extractLsb' 0 1 = top
  obtain rfl | rfl : top = 0 ∨ top = 1 := by revert top; decide
  · rfl
  · rfl

theorem DecodeEncode.jsal (simm11 : BitVec 11) : DecodeEncode.Statement (Instr.jsal simm11) := by
  refine decodeEncode_of_eq (fun _ => rfl) fun p => ?_
  rw [encodeJS16, decodeWord_word16]
  conv_rhs => rw [← simm11Of_split simm11]
  generalize simm11.extractLsb' 0 1 = top
  obtain rfl | rfl : top = 0 ∨ top = 1 := by revert top; decide
  · rfl
  · rfl

theorem DecodeEncode.lwsp (rd : Reg) (uimm7 : BitVec 7) : DecodeEncode.Statement (Instr.lwsp rd uimm7) := by
  intro p w _ h
  by_cases hu : uimm7.getLsbD 0 = true
  · simp only [encode, hu, if_true] at h; cases h
  · have hu' : uimm7.getLsbD 0 = false := by simpa using hu
    simp only [encode, hu] at h
    obtain rfl := Option.some.inj h
    simp [encodeSP16, decodeFields16, uimm7Of_split uimm7 hu']

theorem DecodeEncode.swsp (rs : Reg) (uimm7 : BitVec 7) : DecodeEncode.Statement (Instr.swsp rs uimm7) := by
  intro p w _ h
  by_cases hu : uimm7.getLsbD 0 = true
  · simp only [encode, hu, if_true] at h; cases h
  · have hu' : uimm7.getLsbD 0 = false := by simpa using hu
    simp only [encode, hu] at h
    obtain rfl := Option.some.inj h
    simp [encodeSP16, decodeFields16, uimm7Of_split uimm7 hu']

theorem DecodeEncode.nop : DecodeEncode.Statement Instr.nop := by
  exact decodeEncode_of_eq (fun _ => rfl) fun p => by simp [decodeFields16]

end Sys2Proof.Laws
end

