-- ==== Sys2Proof/Laws/Run.lean ====
section
/-! SUPPORT. What several steps can do: `Host.Core.run` taken apart at its last step and at a step between, for this
machine's states, and the budgeted run of Safety.lean taken apart at its first. -/

namespace Sys2Proof.Machine

/-- One more step at the end: `n + 1` steps are `n` steps and one step from where they lead. -/
theorem core_run_last (M : Host.Core) (n : Nat) (s : M.State) :
    M.run (n + 1) s =
      match M.run n s with
      | .next t => M.step t
      | .fault f => .fault f
      | .refused r => .refused r := by
  induction n generalizing s with
  | zero => simp only [Host.Core.run]; cases M.step s <;> rfl
  | succ n ih =>
    rw [Host.Core.run]
    cases h : M.step s with
    | next t => simp only [ih t]; simp [Host.Core.run, h]
    | fault f => simp [Host.Core.run, h]
    | refused r => simp [Host.Core.run, h]

theorem core_run_next (M : Host.Core) (n : Nat) (s t : M.State) :
    M.run (n + 1) s = .next t ↔ ∃ u, M.run n s = .next u ∧ M.step u = .next t := by
  rw [core_run_last]
  cases M.run n s <;> simp

theorem core_run_fault (M : Host.Core) (n : Nat) (s : M.State) (f : M.Fault) :
    M.run (n + 1) s = .fault f ↔
      M.run n s = .fault f ∨ ∃ u, M.run n s = .next u ∧ M.step u = .fault f := by
  rw [core_run_last]
  cases M.run n s <;> simp

theorem core_run_refused (M : Host.Core) (n : Nat) (s : M.State) (r : M.Refusal) :
    M.run (n + 1) s = .refused r ↔
      M.run n s = .refused r ∨ ∃ u, M.run n s = .next u ∧ M.step u = .refused r := by
  rw [core_run_last]
  cases M.run n s <;> simp

/-- `n + m` steps are `n` steps and then `m`. -/
theorem core_run_add (M : Host.Core) (n m : Nat) (s t : M.State) (h : M.run n s = .next t) :
    M.run (n + m) s = M.run m t := by
  induction m with
  | zero => simpa [Host.Core.run] using h
  | succ m ih => rw [← Nat.add_assoc, core_run_last, ih, core_run_last]

/-! ## The same of this machine -/

/-- `n + 1` steps lead to a state exactly through one that `n` steps lead to. -/
theorem steps_next {n : Nat} {s t : State} :
    Host.Core.run core (n + 1) s = .next t ↔ ∃ u : State, Host.Core.run core n s = .next u ∧ step u = .next t :=
  core_run_next core n s t

/-- `n + 1` steps stop with a fault exactly where `n` do or the last one does. -/
theorem steps_fault {n : Nat} {s : State} {f : Fault} :
    Host.Core.run core (n + 1) s = .fault f ↔
      Host.Core.run core n s = .fault f ∨
        ∃ u : State, Host.Core.run core n s = .next u ∧ step u = .fault f :=
  core_run_fault core n s f

/-- `n + 1` steps are refused exactly where `n` are or the last one is. -/
theorem steps_refused {n : Nat} {s : State} {r : Refusal} :
    Host.Core.run core (n + 1) s = .refused r ↔
      Host.Core.run core n s = .refused r ∨
        ∃ u : State, Host.Core.run core n s = .next u ∧ step u = .refused r :=
  core_run_refused core n s r

/-- Zero steps lead from a state to that state. -/
theorem steps_zero {s t : State} : Host.Core.run core 0 s = .next t ↔ s = t :=
  ⟨fun h => Host.Outcome.next.inj h, fun h => congrArg Host.Outcome.next h⟩

/-- `n + m` steps are `n` steps and then `m`. -/
theorem steps_add {n m : Nat} {s t : State} (h : Host.Core.run core n s = .next t) :
    Host.Core.run core (n + m) s = Host.Core.run core m t :=
  core_run_add core n m s t h

/-! ## The budgeted run -/

/-- A run of any budget ends where it stands at the end of a program. -/
theorem run_of_ended {s : State} (n : Nat) (h : ended s = true) : run n s = .ended s := by
  cases n <;> simp [run, h]

/-- Elsewhere it takes a step: it goes on with the rest of the budget, or ends in the stop. -/
theorem run_succ_of_not_ended {s : State} (n : Nat) (h : ended s = false) :
    run (n + 1) s =
      match step s with
      | .next t => run n t
      | .fault f => .fault f
      | .refused r => .refused r := by
  rw [run, h]
  rfl

end Sys2Proof.Machine
end

