-- ==== Sys2Proof/Tests/Slice0.lean ====
section
/-! SUPPORT. The model's own tests: the checks of WellFormed, one word for each constructor, single steps, the
stops, and for each obligation with hypotheses a concrete case that meets them. Words and results are those of
95_test_vectors.md section 2 (or of the examples in the instruction's own rule), unless a comment says otherwise. -/

namespace Sys2Proof.Tests

open Sys2Proof.Machine

/-! ## Helpers -/

/-- R8's defaults. -/
def dflt : Params := Params.default

/-- The defaults with an opcode supplied for SB, J and JAL: an example, the source gives none (D13, D14). -/
def open3 : Params :=
  { dflt with sbOpcode := some .b000111, jOpcode := some 0x0B, jalOpcode := some 0x4B }

/-- The unified organisation with the code in `0x0100..0x010F`. -/
def uni : Params := { dflt with memOrg := .unified 0x0100 0x010F }

/-- The defaults with `DMEM_SIZE = 512`. -/
def small : Params := { dflt with dmemSize := 512 }

/-- A state at `pc` with some registers written and some data bytes set. -/
def st (pc : Word) (rs : List (Reg × Word)) (bytes : Memory) : State :=
  rs.foldl (fun s x => s.setReg x.1 x.2) { State.reset with pc := pc, dmem := bytes }

/-- The same state under other launch parameters. -/
def under (p : Params) (s : State) : State := { s with params := p }

/-- The word placed where the next fetch reads it. -/
def placed (s : State) (w : InstWord) : State := s.placeAtPc w.bytes

/-- The word decodes to the instruction, and the instruction is encoded as the word. -/
def spells (p : Params) (w : InstWord) (i : Instr) : Bool :=
  decodeWord p w == some i && encode p i == some w

/-- The next state has this pc, these registers and these data bytes. -/
def shows (o : Res) (pc : Word) (rs : List (Reg × Word)) (bytes : Memory) : Bool :=
  match o with
  | .next t => t.pc == pc && rs.all (fun x => t.reg x.1 == x.2) &&
      bytes.all (fun c => t.dmem.read c.1 == some c.2)
  | _ => false

/-- One step of the machine on the word, from the state. -/
def runs (s : State) (w : InstWord) (pc : Word) (rs : List (Reg × Word)) (bytes : Memory) : Bool :=
  shows (step (placed s w)) pc rs bytes

/-- The fault of an outcome. -/
def faultOf {φ : Type} : Host.Outcome State φ Refusal → Option φ
  | .fault f => some f
  | _ => none

/-- The refusal of an outcome. -/
def refusalOf : Res → Option Refusal
  | .refused r => some r
  | _ => none

/-! ## WellFormed: one ill-formed term for each check -/

theorem test_wf_lwsp_odd : (Instr.lwsp 8 3).wf dflt = false := by decide
theorem test_wf_swsp_odd : (Instr.swsp 8 127).wf dflt = false := by decide
theorem test_wf_sb_without_opcode : (Instr.sb 8 0 9).wf dflt = false := by decide
theorem test_wf_j_without_opcode : (Instr.j 0).wf dflt = false := by decide
theorem test_wf_jal_without_opcode : (Instr.jal 0).wf dflt = false := by decide
theorem test_wf_imem_size : Params.wf { dflt with imemSize := 0 } = false ∧
    Params.wf { dflt with imemSize := 65537 } = false := by decide
theorem test_wf_dmem_size : Params.wf { dflt with dmemSize := 0 } = false ∧
    Params.wf { dflt with dmemSize := 65537 } = false := by decide
theorem test_wf_code_range : Params.wf { dflt with memOrg := .unified 2 1 } = false ∧
    Params.wf { small with memOrg := .unified 0 512 } = false := by decide
theorem test_wf_j_takes_a_row : Params.wf { dflt with jOpcode := some 0x01 } = false := by decide
theorem test_wf_jal_takes_a_row : Params.wf { dflt with jalOpcode := some 0x43 } = false := by decide
theorem test_wf_j_takes_sb :
    Params.wf { dflt with sbOpcode := some .b000111, jOpcode := some 0x47 } = false := by decide
theorem test_wf_j_is_jal :
    Params.wf { dflt with jOpcode := some 0x0B, jalOpcode := some 0x0B } = false := by decide
theorem test_wf_legal : dflt.wf = true ∧ open3.wf = true ∧ uni.wf = true ∧ small.wf = true := by decide
theorem test_wf_memory_order : Memory.wf [(5, 1), (4, 2)] = false ∧ Memory.wf [(4, 1), (4, 2)] = false := by
  decide

/-! ## Decode and encode: one word for each constructor, field by field -/

theorem test_decode_add : spells dflt (.full 0b0000_0101_0100_0011_00_000001) (.add 3 4 5) = true := by decide
theorem test_decode_sub : spells dflt (.full 0b0000_0101_0100_0011_00_001001) (.sub 3 4 5) = true := by decide
theorem test_decode_and : spells dflt (.full 0b0000_0101_0100_0011_00_010001) (.and 3 4 5) = true := by decide
theorem test_decode_xor : spells dflt (.full 0b0000_0101_0100_0011_00_011001) (.xor 3 4 5) = true := by decide
theorem test_decode_or : spells dflt (.full 0b0000_0101_0100_0011_00_100001) (.or 3 4 5) = true := by decide
theorem test_decode_lsl : spells dflt (.full 0b0000_0101_0100_0011_00_101001) (.lsl 3 4 5) = true := by decide
theorem test_decode_lsr : spells dflt (.full 0b0000_0101_0100_0011_00_110001) (.lsr 3 4 5) = true := by decide
theorem test_decode_asr : spells dflt (.full 0b0000_0101_0100_0011_00_111001) (.asr 3 4 5) = true := by decide
theorem test_decode_addi : spells dflt (.full 0b1111_1101_1001_1000_11_000011) (.addi 8 9 (-3)) = true := by decide
theorem test_decode_andi : spells dflt (.full 0b1111_1111_1001_1000_00_010011) (.andi 8 9 255) = true := by decide
theorem test_decode_xori : spells dflt (.full 0b1111_1111_1001_1000_11_011011) (.xori 8 9 (-1)) = true := by decide
theorem test_decode_ori : spells dflt (.full 0b0000_0000_1001_1000_10_100011) (.ori 8 9 (-512)) = true := by decide
theorem test_decode_li : spells dflt (.full 0b1111_1111_0000_1000_11_110101) (.li 8 (-1)) = true := by decide
theorem test_decode_lsli : spells dflt (.full 0b0000_1111_0100_0011_00_101011) (.lsli 3 4 15) = true := by decide
theorem test_decode_lsri : spells dflt (.full 0b0000_0001_0100_0011_00_110011) (.lsri 3 4 1) = true := by decide
theorem test_decode_asri : spells dflt (.full 0b0000_1000_0100_0011_00_111011) (.asri 3 4 8) = true := by decide
theorem test_decode_beq : spells dflt (.full 0b0000_1001_1000_1001_00_001111) (.beq 8 9 9) = true := by decide
theorem test_decode_bne : spells dflt (.full 0b1111_1010_1000_1001_11_101111) (.bne 8 9 (-6)) = true := by decide
theorem test_decode_blt : spells dflt (.full 0b0110_0100_1000_1001_00_110111) (.blt 8 9 100) = true := by decide
theorem test_decode_bltu : spells dflt (.full 0b0110_0100_1000_1001_00_010111) (.bltu 8 9 100) = true := by decide
theorem test_decode_ble : spells dflt (.full 0b1111_1111_1000_1001_01_111111) (.ble 8 9 511) = true := by decide
theorem test_decode_bleu : spells dflt (.full 0b0000_0011_1000_1001_00_011111) (.bleu 8 9 3) = true := by decide
theorem test_decode_lw : spells dflt (.full 0b0000_0100_0001_1000_00_010101) (.lw 8 4 1) = true := by decide
theorem test_decode_lb : spells dflt (.full 0b1111_1111_1001_1000_11_100101) (.lb 8 (-1) 9) = true := by decide
theorem test_decode_lbu : spells dflt (.full 0b1111_1111_1001_1000_01_000101) (.lbu 8 511 9) = true := by decide
theorem test_decode_sw : spells dflt (.full 0b0000_0100_0001_1000_00_001101) (.sw 8 4 1) = true := by decide
theorem test_decode_mov : spells dflt (.half 0b1001_1000_11_000000) (.mov 8 9) = true := by decide
theorem test_decode_add2 : spells dflt (.half 0b1001_1000_10_000000) (.add2 8 9) = true := by decide
theorem test_decode_sub2 : spells dflt (.half 0b1001_1000_10_001000) (.sub2 8 9) = true := by decide
theorem test_decode_and2 : spells dflt (.half 0b1001_1000_10_010000) (.and2 8 9) = true := by decide
theorem test_decode_xor2 : spells dflt (.half 0b1001_1000_10_011000) (.xor2 8 9) = true := by decide
theorem test_decode_or2 : spells dflt (.half 0b1001_1000_10_100000) (.or2 8 9) = true := by decide
theorem test_decode_lsl2 : spells dflt (.half 0b1001_1000_10_101000) (.lsl2 8 9) = true := by decide
theorem test_decode_lsr2 : spells dflt (.half 0b1001_1000_10_110000) (.lsr2 8 9) = true := by decide
theorem test_decode_asr2 : spells dflt (.half 0b1001_1000_10_111000) (.asr2 8 9) = true := by decide
theorem test_decode_addi2 : spells dflt (.half 0b1100_0001_11_000010) (.addi2 1 (-4)) = true := by decide
theorem test_decode_andi2 : spells dflt (.half 0b1111_1000_00_010010) (.andi2 8 15) = true := by decide
theorem test_decode_lsi : spells dflt (.half 0b1111_1000_11_110100) (.lsi 8 (-1)) = true := by decide
theorem test_decode_lui : spells dflt (.half 0b0101_1000_00_000100) (.lui 8 5) = true := by decide
theorem test_decode_lsli2 : spells dflt (.half 0b0100_1000_00_101010) (.lsli2 8 4) = true := by decide
theorem test_decode_lsri2 : spells dflt (.half 0b1111_1000_00_110010) (.lsri2 8 15) = true := by decide
theorem test_decode_asri2 : spells dflt (.half 0b0001_1000_00_111010) (.asri2 8 1) = true := by decide
theorem test_decode_jalr : spells dflt (.half 0b0000_1000_00_010110) (.jalr 8) = true := by decide
theorem test_decode_jr : spells dflt (.half 0b0000_0000_00_000110) (.jr 0) = true := by decide
theorem test_decode_js : spells dflt (.half 0b11111111110_01110) (.js (-2)) = true := by decide
theorem test_decode_jsal : spells dflt (.half 0b11110011100_11110) (.jsal (-100)) = true := by decide
theorem test_decode_lwsp : spells dflt (.half 0b0011_1000_00_010100) (.lwsp 8 6) = true := by decide
theorem test_decode_swsp : spells dflt (.half 0b0000_1111_01_011100) (.swsp 15 32) = true := by decide
theorem test_decode_nop : spells dflt (.half 0b0000000000000000) (.nop) = true := by decide

-- SB, J and JAL have a word only with a supplied opcode; layouts M24 (R78) and R79's probable J24.
theorem test_decode_sb : spells open3 (.full 0b0000_0011_1001_1000_00_000111) (.sb 8 3 9) = true := by decide
theorem test_decode_j : spells open3 (.full 0b1111_1110_1101_1100_00_001011) (.j 0xFEDC) = true := by decide
theorem test_decode_jal : spells open3 (.full 0b0001_0010_0011_0100_01_001011) (.jal 0x1234) = true := by
  decide

/-- R91, R92: the words that decode to nothing. -/
theorem test_reserved_words :
    ([.half 0x0100, .half 0x0040, .half 0x1006, .half 0x1016, .half 0x486A, .half 0x000A, .half 0x000C,
      .half 0x0026, .full 0x100001, .full 0x10002B, .full 0x000041, .full 0x001035, .full 0x000007,
      .full 0x00003D] : List InstWord).all (fun w => decodeWord dflt w == none) = true := by decide

/-- R72: a byte stream splits by bit 0 of each first byte; a stream that ends early is truncated. -/
theorem test_stream_splits :
    (match decodeBytes dflt [0x01, 0x43, 0x05, 0xC0, 0x98] with
     | .ok (i, rest) => i == .add 3 4 5 && rest == [0xC0, 0x98]
     | .error _ => false) = true := by decide

theorem test_stream_truncated :
    (match decodeBytes dflt [0x01, 0x43] with
     | .error e => e == .truncated
     | .ok _ => false) = true := by decide

theorem test_decodeTableWord : decodeTableWord 24 0x230A75 = some (.li 10 291) ∧
    decodeTableWord 16 0xFFFE = some (.jsal (-1)) ∧ decodeTableWord 16 0x0100 = none := by decide

/-- The table's words are numbered as `State.withFetchWord` stores them: the next step runs them. -/
theorem test_withFetchWord :
    shows (step (State.reset.withFetchWord 24 0x230A75)) 3 [(10, 0x0123)] [] = true ∧
    shows (step (State.reset.withFetchWord 16 0x0000)) 2 [] [] = true := by decide

/-! ## One step of each instruction -/

-- `ADD x3, x4, x5`: wraps to 0; no carry is kept anywhere.
theorem test_add_1 :
    runs (st 0x0100 [(4, 0xFFFF), (5, 0x0001)] []) (.full 0x054301) 0x0103 [(3, 0x0000)] [] = true := by decide

-- `ADD x3, x3, x3`: one register in all three fields: read first, then written.
theorem test_add_2 :
    runs (st 0x0100 [(3, 0x4000)] []) (.full 0x033301) 0x0103 [(3, 0x8000)] [] = true := by decide

-- `SUB x3, x4, x5`: rs1 - rs2, wraps below zero.
theorem test_sub_1 :
    runs (st 0x0100 [(4, 0x0005), (5, 0x0007)] []) (.full 0x054309) 0x0103 [(3, 0xFFFE)] [] = true := by decide

-- `SUB x3, x4, x5`: no overflow detection.
theorem test_sub_2 :
    runs (st 0x0100 [(4, 0x8000), (5, 0x0001)] []) (.full 0x054309) 0x0103 [(3, 0x7FFF)] [] = true := by decide

-- `AND x3, x4, x5`: bitwise.
theorem test_and_1 :
    runs (st 0x0100 [(4, 0xF0F0), (5, 0x3C3C)] []) (.full 0x054311) 0x0103 [(3, 0x3030)] [] = true := by decide

-- `XOR x3, x4, x5`: bitwise.
theorem test_xor_1 :
    runs (st 0x0100 [(4, 0xF0F0), (5, 0x3C3C)] []) (.full 0x054319) 0x0103 [(3, 0xCCCC)] [] = true := by decide

-- `OR x3, x4, x5`: bitwise.
theorem test_or_1 :
    runs (st 0x0100 [(4, 0xF0F0), (5, 0x3C3C)] []) (.full 0x054321) 0x0103 [(3, 0xFCFC)] [] = true := by decide

-- `LSL x3, x4, x5`: distance register 16: low four bits are 0 (decision D7; a stop under `SHIFT_AMOUNT = refuse`).
theorem test_lsl_1 :
    runs (st 0x0100 [(4, 0xABCD), (5, 0x0010)] []) (.full 0x054329) 0x0103 [(3, 0xABCD)] [] = true := by decide

-- `LSL x3, x4, x5`: distance register 0xFFFF: low four bits are 15.
theorem test_lsl_2 :
    runs (st 0x0100 [(4, 0x0001), (5, 0xFFFF)] []) (.full 0x054329) 0x0103 [(3, 0x8000)] [] = true := by decide

-- `LSR x3, x4, x5`: zero fill.
theorem test_lsr_1 :
    runs (st 0x0100 [(4, 0x8000), (5, 0x000F)] []) (.full 0x054331) 0x0103 [(3, 0x0001)] [] = true := by decide

-- `LSR x3, x4, x5`: zero fill, against ASR below.
theorem test_lsr_2 :
    runs (st 0x0100 [(4, 0x8000), (5, 0x0001)] []) (.full 0x054331) 0x0103 [(3, 0x4000)] [] = true := by decide

-- `ASR x3, x4, x5`: sign fill (conflict C5: arithmetic).
theorem test_asr_1 :
    runs (st 0x0100 [(4, 0x8000), (5, 0x0001)] []) (.full 0x054339) 0x0103 [(3, 0xC000)] [] = true := by decide

-- `ASR x3, x4, x5`: distance register 0x13: low four bits are 3.
theorem test_asr_2 :
    runs (st 0x0100 [(4, 0x8000), (5, 0x0013)] []) (.full 0x054339) 0x0103 [(3, 0xF000)] [] = true := by decide

-- `ADDI x8, x9, -3`: immediate sign-extended to 0xFFFD.
theorem test_addi_1 :
    runs (st 0x0100 [(9, 0x0002)] []) (.full 0xFD98C3) 0x0103 [(8, 0xFFFF)] [] = true := by decide

-- `ADDI x8, x9, -512`: smallest immediate, 0xFE00.
theorem test_addi_2 :
    runs (st 0x0100 [(9, 0x0200)] []) (.full 0x009883) 0x0103 [(8, 0x0000)] [] = true := by decide

-- `ANDI x8, x9, 255`: positive immediate masks the low byte.
theorem test_andi_1 :
    runs (st 0x0100 [(9, 0xABCD)] []) (.full 0xFF9813) 0x0103 [(8, 0x00CD)] [] = true := by decide

-- `ANDI x8, x9, -256`: immediate 0xFF00 after sign extension (decision D12).
theorem test_andi_2 :
    runs (st 0x0100 [(9, 0xABCD)] []) (.full 0x0098D3) 0x0103 [(8, 0xAB00)] [] = true := by decide

-- `XORI x8, x9, -1`: complement: immediate 0xFFFF.
theorem test_xori_1 :
    runs (st 0x0100 [(9, 0xABCD)] []) (.full 0xFF98DB) 0x0103 [(8, 0x5432)] [] = true := by decide

-- `XORI x8, x9, 511`: immediate 0x01FF.
theorem test_xori_2 :
    runs (st 0x0100 [(9, 0x0000)] []) (.full 0xFF985B) 0x0103 [(8, 0x01FF)] [] = true := by decide

-- `ORI x8, x9, -512`: immediate 0xFE00.
theorem test_ori_1 :
    runs (st 0x0100 [(9, 0x0001)] []) (.full 0x0098A3) 0x0103 [(8, 0xFE01)] [] = true := by decide

-- `ORI x8, x9, 254`: immediate 0x00FE.
theorem test_ori_2 :
    runs (st 0x0100 [(9, 0x8000)] []) (.full 0xFE9823) 0x0103 [(8, 0x80FE)] [] = true := by decide

-- `LI x8, 511`: 0x01FF.
theorem test_li_1 :
    runs (st 0x0100 [] []) (.full 0xFF0875) 0x0103 [(8, 0x01FF)] [] = true := by decide

-- `LI x8, -512`: 0xFE00.
theorem test_li_2 :
    runs (st 0x0100 [] []) (.full 0x0008B5) 0x0103 [(8, 0xFE00)] [] = true := by decide

-- `LSLI x3, x4, 15`: largest distance.
theorem test_lsli_1 :
    runs (st 0x0100 [(4, 0x0001)] []) (.full 0x0F432B) 0x0103 [(3, 0x8000)] [] = true := by decide

-- `LSRI x3, x4, 1`: zero fill, bit 0 lost.
theorem test_lsri_1 :
    runs (st 0x0100 [(4, 0x8001)] []) (.full 0x014333) 0x0103 [(3, 0x4000)] [] = true := by decide

-- `ASRI x3, x4, 8`: sign fill (conflict C5).
theorem test_asri_1 :
    runs (st 0x0100 [(4, 0x8000)] []) (.full 0x08433B) 0x0103 [(3, 0xFF80)] [] = true := by decide

-- `ASRI x3, x4, 15`: section 2.
theorem test_asri_2 :
    runs (st 0x0100 [(4, 0x7FFF)] []) (.full 0x0F433B) 0x0103 [(3, 0x0000)] [] = true := by decide

-- `BEQ x8, x9, 9`: taken: 0x0100 + 9, an odd target.
theorem test_beq_1 :
    runs (st 0x0100 [(8, 0x1234), (9, 0x1234)] []) (.full 0x09890F) 0x0109 [] [] = true := by decide

-- `BEQ x8, x9, 9`: not taken: pc + 3.
theorem test_beq_2 :
    runs (st 0x0100 [(8, 0x1234), (9, 0x1235)] []) (.full 0x09890F) 0x0103 [] [] = true := by decide

-- `BNE x8, x9, -6`: taken backward: offset counted from the branch itself.
theorem test_bne_1 :
    runs (st 0x0100 [(8, 0x0001), (9, 0x0002)] []) (.full 0xFA89EF) 0x00FA [] [] = true := by decide

-- `BNE x8, x9, -6`: not taken.
theorem test_bne_2 :
    runs (st 0x0100 [(8, 0x0002), (9, 0x0002)] []) (.full 0xFA89EF) 0x0103 [] [] = true := by decide

-- `BLT x8, x9, 100`: signed: -1 < 1, taken.
theorem test_blt_1 :
    runs (st 0x0100 [(8, 0xFFFF), (9, 0x0001)] []) (.full 0x648937) 0x0164 [] [] = true := by decide

-- `BLT x8, x9, 100`: signed: 32767 < -32768 is false.
theorem test_blt_2 :
    runs (st 0x0100 [(8, 0x7FFF), (9, 0x8000)] []) (.full 0x648937) 0x0103 [] [] = true := by decide

-- `BLTU x8, x9, 100`: unsigned: 65535 < 1 is false.
theorem test_bltu_1 :
    runs (st 0x0100 [(8, 0xFFFF), (9, 0x0001)] []) (.full 0x648917) 0x0103 [] [] = true := by decide

-- `BLTU x8, x9, -512`: unsigned: taken; smallest offset.
theorem test_bltu_2 :
    runs (st 0x0100 [(8, 0x7FFF), (9, 0x8000)] []) (.full 0x008997) 0xFF00 [] [] = true := by decide

-- `BLE x8, x9, 511`: equal: taken; largest offset.
theorem test_ble_1 :
    runs (st 0x0100 [(8, 0x0005), (9, 0x0005)] []) (.full 0xFF897F) 0x02FF [] [] = true := by decide

-- `BLE x8, x9, 511`: signed: -32768 <= 32767.
theorem test_ble_2 :
    runs (st 0x0100 [(8, 0x8000), (9, 0x7FFF)] []) (.full 0xFF897F) 0x02FF [] [] = true := by decide

-- `BLEU x8, x9, 3`: unsigned: false; falls to pc + 3.
theorem test_bleu_1 :
    runs (st 0x0100 [(8, 0x8000), (9, 0x7FFF)] []) (.full 0x03891F) 0x0103 [] [] = true := by decide

-- `BLEU x8, x9, 3`: taken, to the same address as not taken.
theorem test_bleu_2 :
    runs (st 0x0100 [(8, 0x8000), (9, 0x8000)] []) (.full 0x03891F) 0x0103 [] [] = true := by decide

-- `LW x8, 4(x1)`: little-endian: low byte at the lower address.
theorem test_lw_1 :
    runs (st 0x0100 [(1, 0x0100)] [(0x0104, 0x34), (0x0105, 0x12)]) (.full 0x041815) 0x0103 [(8, 0x1234)] [] = true := by decide

-- `LW x8, -6(x9)`: address wraps to 0xFFFE (rule R51).
theorem test_lw_2 :
    runs (st 0x0100 [(9, 0x0004)] [(0xFFFE, 0x01), (0xFFFF, 0x80)]) (.full 0xFA98D5) 0x0103 [(8, 0x8001)] [] = true := by decide

-- `LB x8, -1(x9)`: byte 0x80 sign-extends.
theorem test_lb_1 :
    runs (st 0x0100 [(9, 0x0101)] [(0x0100, 0x80)]) (.full 0xFF98E5) 0x0103 [(8, 0xFF80)] [] = true := by decide

-- `LB x8, 0(x9)`: odd address is fine for a byte; positive byte.
theorem test_lb_2 :
    runs (st 0x0100 [(9, 0x0101)] [(0x0101, 0x7F)]) (.full 0x009825) 0x0103 [(8, 0x007F)] [] = true := by decide

-- `LBU x8, 511(x9)`: zero-extends; largest displacement.
theorem test_lbu_1 :
    runs (st 0x0100 [(9, 0x0001)] [(0x0200, 0x80)]) (.full 0xFF9845) 0x0103 [(8, 0x0080)] [] = true := by decide

-- `LBU x8, 0(x9)`: last byte of memory.
theorem test_lbu_2 :
    runs (st 0x0100 [(9, 0xFFFF)] [(0xFFFF, 0xFF)]) (.full 0x009805) 0x0103 [(8, 0x00FF)] [] = true := by decide

-- `SW x8, 4(x1)`: low byte first.
theorem test_sw_1 :
    runs (st 0x0100 [(1, 0x0100), (8, 0x1234)] []) (.full 0x04180D) 0x0103 [] [(0x0104, 0x34), (0x0105, 0x12)] = true := by decide

-- `SW x8, 0(x8)`: one register as base and data.
theorem test_sw_2 :
    runs (st 0x0100 [(8, 0x0200)] []) (.full 0x00880D) 0x0103 [] [(0x0200, 0x00), (0x0201, 0x02)] = true := by decide

-- `MOV x8, x9`: rd need not have been written before.
theorem test_mov_1 :
    runs (st 0x0100 [(9, 0xBEEF)] []) (.half 0x98C0) 0x0102 [(8, 0xBEEF)] [] = true := by decide

-- `ADD2 x8, x9`: rd is source and destination; wraps.
theorem test_add2_1 :
    runs (st 0x0100 [(8, 0xFFFF), (9, 0x0002)] []) (.half 0x9880) 0x0102 [(8, 0x0001)] [] = true := by decide

-- `SUB2 x8, x9`: rd - rs (conflict C4), not rs - rd.
theorem test_sub2_1 :
    runs (st 0x0100 [(8, 0x0005), (9, 0x0007)] []) (.half 0x9888) 0x0102 [(8, 0xFFFE)] [] = true := by decide

-- `AND2 x8, x9`: section 2.
theorem test_and2_1 :
    runs (st 0x0100 [(8, 0xF0F0), (9, 0x3C3C)] []) (.half 0x9890) 0x0102 [(8, 0x3030)] [] = true := by decide

-- `XOR2 x8, x9`: section 2.
theorem test_xor2_1 :
    runs (st 0x0100 [(8, 0xF0F0), (9, 0x3C3C)] []) (.half 0x9898) 0x0102 [(8, 0xCCCC)] [] = true := by decide

-- `OR2 x8, x9`: section 2.
theorem test_or2_1 :
    runs (st 0x0100 [(8, 0xF0F0), (9, 0x3C3C)] []) (.half 0x98A0) 0x0102 [(8, 0xFCFC)] [] = true := by decide

-- `LSL2 x8, x9`: distance register 17: low four bits are 1.
theorem test_lsl2_1 :
    runs (st 0x0100 [(8, 0x0003), (9, 0x0011)] []) (.half 0x98A8) 0x0102 [(8, 0x0006)] [] = true := by decide

-- `LSR2 x8, x9`: zero fill.
theorem test_lsr2_1 :
    runs (st 0x0100 [(8, 0x8000), (9, 0x0004)] []) (.half 0x98B0) 0x0102 [(8, 0x0800)] [] = true := by decide

-- `ASR2 x8, x9`: sign fill (conflict C5).
theorem test_asr2_1 :
    runs (st 0x0100 [(8, 0x8000), (9, 0x0004)] []) (.half 0x98B8) 0x0102 [(8, 0xF800)] [] = true := by decide

-- `ASR2 x8, x8`: value and distance from one register: distance 1.
theorem test_asr2_2 :
    runs (st 0x0100 [(8, 0xFFF1)] []) (.half 0x88B8) 0x0102 [(8, 0xFFF8)] [] = true := by decide

-- `ADDI2 x1, -4`: the stack adjustment of the examples.
theorem test_addi2_1 :
    runs (st 0x0100 [(1, 0x0200)] []) (.half 0xC1C2) 0x0102 [(1, 0x01FC)] [] = true := by decide

-- `ADDI2 x8, 31`: largest immediate; wraps to 0.
theorem test_addi2_2 :
    runs (st 0x0100 [(8, 0xFFE1)] []) (.half 0xF842) 0x0102 [(8, 0x0000)] [] = true := by decide

-- `ANDI2 x8, 15`: immediate 0x000F.
theorem test_andi2_1 :
    runs (st 0x0100 [(8, 0xABCD)] []) (.half 0xF812) 0x0102 [(8, 0x000D)] [] = true := by decide

-- `ANDI2 x8, -32`: immediate 0xFFE0 after sign extension (decision D12).
theorem test_andi2_2 :
    runs (st 0x0100 [(8, 0xABCD)] []) (.half 0x0892) 0x0102 [(8, 0xABC0)] [] = true := by decide

-- `LSI x8, -1`: reads nothing.
theorem test_lsi_1 :
    runs (st 0x0100 [] []) (.half 0xF8F4) 0x0102 [(8, 0xFFFF)] [] = true := by decide

-- `LSI x8, 31`: section 2.
theorem test_lsi_2 :
    runs (st 0x0100 [] []) (.half 0xF874) 0x0102 [(8, 0x001F)] [] = true := by decide

-- `LUI x8, 5`: 5 << 10.
theorem test_lui_1 :
    runs (st 0x0100 [] []) (.half 0x5804) 0x0102 [(8, 0x1400)] [] = true := by decide

-- `LUI x8, -1`: 0x3F << 10: bits 15:10 set, 9:0 clear.
theorem test_lui_2 :
    runs (st 0x0100 [] []) (.half 0xF8C4) 0x0102 [(8, 0xFC00)] [] = true := by decide

-- `LSLI2 x8, 4`: section 2.
theorem test_lsli2_1 :
    runs (st 0x0100 [(8, 0x0ABC)] []) (.half 0x482A) 0x0102 [(8, 0xABC0)] [] = true := by decide

-- `LSRI2 x8, 15`: section 2.
theorem test_lsri2_1 :
    runs (st 0x0100 [(8, 0x8000)] []) (.half 0xF832) 0x0102 [(8, 0x0001)] [] = true := by decide

-- `ASRI2 x8, 1`: sign fill (conflict C5).
theorem test_asri2_1 :
    runs (st 0x0100 [(8, 0x8002)] []) (.half 0x183A) 0x0102 [(8, 0xC001)] [] = true := by decide

-- `JALR x8`: link is pc + 2; target taken whole, odd allowed (rule R182).
theorem test_jalr_1 :
    runs (st 0x0100 [(8, 0x0203)] []) (.half 0x0816) 0x0203 [(0, 0x0102)] [] = true := by decide

-- `JALR x0`: `JALR x0`: jumps to the old x0, then x0 gets the link (decision D11).
theorem test_jalr_2 :
    runs (st 0x0100 [(0, 0x0300)] []) (.half 0x0016) 0x0300 [(0, 0x0102)] [] = true := by decide

-- `JR x15`: any 16-bit target; the stop, if any, comes at the next fetch.
theorem test_jr_1 :
    runs (st 0x0100 [(15, 0xFFFF)] []) (.half 0x0F06) 0xFFFF [] [] = true := by decide

-- `JS -2`: backward.
theorem test_js_1 :
    runs (st 0x0100 [] []) (.half 0xFFCE) 0x00FE [] [] = true := by decide

-- `JS -1024`: smallest offset: 0x0100 - 0x0400 wraps.
theorem test_js_2 :
    runs (st 0x0100 [] []) (.half 0x800E) 0xFD00 [] [] = true := by decide

-- `JSAL 6`: link and jump; reads no register.
theorem test_jsal_1 :
    runs (st 0x0100 [] []) (.half 0x00DE) 0x0106 [(0, 0x0102)] [] = true := by decide

-- `JSAL 4`: link wraps to 0x0000, target to 0x0002.
theorem test_jsal_2 :
    runs (st 0xFFFE [] []) (.half 0x009E) 0x0002 [(0, 0x0000)] [] = true := by decide

-- `LWSP x8, 6(sp)`: address sp + 6.
theorem test_lwsp_1 :
    runs (st 0x0100 [(1, 0x01F8)] [(0x01FE, 0x02), (0x01FF, 0x01)]) (.half 0x3814) 0x0102 [(8, 0x0102)] [] = true := by decide

-- `LWSP x1, 2(sp)`: loading sp itself: address from the old sp.
theorem test_lwsp_2 :
    runs (st 0x0100 [(1, 0x0100)] [(0x0102, 0x00), (0x0103, 0x02)]) (.half 0x1114) 0x0102 [(1, 0x0200)] [] = true := by decide

-- `SWSP x8, 2(sp)`: low byte first.
theorem test_swsp_1 :
    runs (st 0x0100 [(1, 0x01F8), (8, 0xCAFE)] []) (.half 0x181C) 0x0102 [] [(0x01FA, 0xFE), (0x01FB, 0xCA)] = true := by decide

-- `SWSP x15, 32(sp)`: address wraps: 0xFFF0 + 0x20 = 0x0010.
theorem test_swsp_2 :
    runs (st 0x0100 [(1, 0xFFF0), (15, 0x1234)] []) (.half 0x0F5C) 0x0102 [] [(0x0010, 0x34), (0x0011, 0x12)] = true := by decide

-- `NOP `: the only NOP word.
theorem test_nop_1 :
    runs (st 0x0100 [] []) (.half 0x0000) 0x0102 [] [] = true := by decide

-- `NOP `: pc wraps to 0x0000 (rule R26).
theorem test_nop_2 :
    runs (st 0xFFFE [] []) (.half 0x0000) 0x0000 [] [] = true := by decide

-- SB by its rule (R158), word by the example opcode of `open3`.
theorem test_sb_1 :
    runs (under open3 (st 0x0100 [(8, 0xABCD), (9, 0x0200)] [(0x0203, 0x11), (0x0204, 0x22)]))
      (.full 0x039807) 0x0103 [] [(0x0203, 0xCD), (0x0204, 0x22)] = true := by decide

-- J by the reading R140 records (log 14): the offset counts from the J itself.
theorem test_j_1 : runs (under open3 (st 0x0100 [] [])) (.full 0xFFFE0B) 0x00FE [] [] = true := by decide

-- JAL likewise; its link is a free value (log 15), so only the pc is tested.
theorem test_jal_1 : runs (under open3 (st 0x0100 [] [])) (.full 0x00104B) 0x0110 [] [] = true := by decide

/-! ## Stops -/

theorem test_lw_misaligned :
    faultOf (step (placed (st 0x0100 [(9, 0x0100)] [(0x0101, 1), (0x0102, 2)]) (.full 0x019815)))
      = some (.misalignedAccess 0x0101) := by decide

theorem test_sw_misaligned :
    faultOf (step (placed (st 0x0100 [(8, 0x1234), (9, 0x0100)] []) (.full 0x03980D)))
      = some (.misalignedAccess 0x0103) := by decide

theorem test_lwsp_misaligned :
    faultOf (step (placed (st 0x0100 [(1, 0x01F9)] [(0x01FB, 1), (0x01FC, 2)]) (.half 0x1814)))
      = some (.misalignedAccess 0x01FB) := by decide

theorem test_lw_out_of_range :
    faultOf (step (placed (under small (st 0x0100 [(9, 0x0200)] [])) (.full 0x009815)))
      = some (.accessOutOfRange 0x0200) := by decide

-- Odd and outside: alignment is checked first (R204).
theorem test_lw_odd_and_outside :
    faultOf (step (placed (under small (st 0x0100 [(9, 0x0200)] [])) (.full 0x019815)))
      = some (.misalignedAccess 0x0201) := by decide

-- The second byte holds nothing (R35).
theorem test_lw_unwritten_byte :
    faultOf (step (placed (st 0x0100 [(9, 0x0100)] [(0x0100, 0x11)]) (.full 0x009815)))
      = some (.unwrittenMemory 0x0101) := by decide

-- Under `unified` a store whose second byte is the first of the code range stops (R41).
theorem test_sw_into_code :
    faultOf (execSw 8 0 9 (under { uni with memOrg := .unified 0x0101 0x010F } (st 0 [(9, 0x0100)] [])))
      = some (.storeToCode 0x0100) := by decide

-- `SHIFT_AMOUNT = refuse` (D7).
theorem test_lsl_refused_distance :
    faultOf (execLsl 3 4 5 (under { dflt with shiftAmount := .refuse } (st 0 [(4, 1), (5, 16)] [])))
      = some (.shiftDistanceOutOfRange 16) := by decide

theorem test_fetch_over_the_top :
    faultOf (step (placed (st 0xFFFE [] []) (.full 0x004301))) = some (.fetchOutOfRange 0xFFFE) ∧
    faultOf (step (placed (st 0xFFFF [] []) (.half 0x0000))) = some (.fetchOutOfRange 0xFFFF) := by decide

theorem test_fetch_beyond_imem :
    faultOf (step (under { dflt with imemSize := 4 } (placed (st 2 [] []) (.full 0x004301))))
      = some (.fetchOutOfRange 2) := by decide

-- R41, with the code in 0x0100..0x010F: the pc below it, the second byte above it, the third byte above it.
theorem test_fetch_outside_code :
    faultOf (step (placed (under uni (st 0x00FF [] [])) (.half 0x0000))) = some (.fetchOutOfRange 0x00FF) ∧
    faultOf (step (placed (under uni (st 0x010F [] [])) (.half 0x0000))) = some (.fetchOutOfRange 0x010F) ∧
    faultOf (step (placed (under uni (st 0x010E [] [])) (.full 0x004301))) = some (.fetchOutOfRange 0x010E) ∧
    runs (under uni (st 0x010E [] [])) (.half 0x0000) 0x0110 [] [] = true := by decide

-- R231 under R41, the overlap by log 17: byte 0x0101 is in both images, 0x0100 in the program's, 0x0200 in the data's.
theorem test_launch_unified :
    (State.launch uni [(0x0100, 0x0E), (0x0101, 0x00)] [(0x0101, 0xAA), (0x0200, 0xBB)]).dmem
      = [(0x0100, 0x0E), (0x0101, 0x00), (0x0200, 0xBB)] := by decide

theorem test_fetch_unwritten : faultOf (step (st 0x0010 [] [])) = some (.unwrittenMemory 0x0010) := by decide

theorem test_step_reserved :
    refusalOf (step (placed (st 0x0100 [] []) (.half 0x0100)))
      = some (.reservedInstruction 0x0100 (.half 0x0100)) := by decide

-- From reset with nothing loaded the first fetch finds no byte (log 19).
theorem test_reset_first_step : faultOf (step State.reset) = some (.unwrittenMemory 0) := by decide

-- R35 in the strict step: x5 and x9 were never written.
theorem test_strict_unwritten_register :
    faultOf (strictStep (placed (st 0x0100 [(4, 1)] []) (.full 0x054301))) = some (.unwrittenRegister 5) ∧
    faultOf (strictStep (placed (st 0x0100 [(8, 1)] []) (.full 0x09890F))) = some (.unwrittenRegister 9) := by
  decide

-- SWSP reads sp before the data register (R204); SW its base before its data.
theorem test_strict_order_of_reads :
    faultOf (strictStep (placed (st 0x0100 [] []) (.half 0x081C))) = some (.unwrittenRegister 1) ∧
    faultOf (strictStep (placed (st 0x0100 [(9, 0x0100)] []) (.full 0x00980D))) = some (.unwrittenRegister 8) := by
  decide

/-! ## Witnesses: concrete cases that meet the hypotheses of each obligation, clause by clause -/

/-- Bytes at the pc, byte by byte. -/
theorem holdsAtPc_of_all {s : State} {bs : List Byte} (hf : fetchable s.params s.pc.toNat bs.length = true)
    (h : (List.range bs.length).all (fun k => s.codeMem.read (s.pc.toNat + k) == bs[k]?) = true) :
    HoldsAtPc s bs := by
  refine ⟨hf, fun k b hk => ?_⟩
  have hlt : k < bs.length := (List.getElem?_eq_some_iff.mp hk).1
  have := List.all_eq_true.mp h k (List.mem_range.mpr hlt)
  rw [beq_iff_eq] at this
  rw [this, hk]

/-- x8 = 0x1234, x9 = 0x01FE (the last word of 512 bytes), sp = 0x0100, one data word. -/
def sA : State := under small (st 0x0100 [(8, 0x1234), (9, 0x01FE), (1, 0x0100)]
  [(0x0100, 0x34), (0x0101, 0x12), (0x01FE, 0xCD), (0x01FF, 0xAB)])

/-- The same registers under `unified`, code in `0x0100..0x010F`, no data. -/
def sU : State := under uni (st 0x0100 [(8, 0x0200), (9, 0x00FE), (1, 0x0110), (2, 0x0102)] [])

/-- A state at `JS 0`. -/
def sJs : State := placed (st 0x0100 [(8, 0x0100)] []) (.half 0x000E)

theorem witness_LaunchBuildsFirstState :
    dflt.memOrg = .harvard ∧ Memory.wf [(0, 0x0E), (65535, 0x00)] = true ∧
    Memory.within dflt.imemSize [(0, 0x0E), (65535, 0x00)] = true ∧
    Memory.within dflt.dmemSize [(0, 0x0E), (65535, 0x00)] = true := by decide

theorem witness_LaunchBuildsFirstState_unified :
    uni.memOrg = .unified 0x0100 0x010F ∧
    Memory.wf [(0x0100, 0x0E), (0x0101, 0x00)] = true ∧ Memory.wf [(0x0101, 0xAA), (65535, 0xBB)] = true ∧
    Memory.within uni.dmemSize [(0x0100, 0x0E), (0x0101, 0x00)] = true ∧
    Memory.within uni.dmemSize [(0x0101, 0xAA), (65535, 0xBB)] = true ∧
    Memory.read [(0x0100, 0x0E), (0x0101, 0x00)] 0x0101 = some 0x00 ∧
    Memory.read [(0x0100, 0x0E), (0x0101, 0x00)] 65535 = none := by decide

theorem witness_LaunchAndResetMeetInv : dflt.wf = true ∧ uni.wf = true := by decide

theorem witness_StepKeepsInv :
    (placed sA (.full 0x00980D)).Inv ∧ (∃ t, step (placed sA (.full 0x00980D)) = .next t) :=
  ⟨by decide, _, rfl⟩

theorem witness_StepKeepsInv_unified :
    (placed sU (.full 0x00880D)).Inv ∧ (∃ t, step (placed sU (.full 0x00880D)) = .next t) :=
  ⟨by decide, _, rfl⟩

theorem witness_StepKeepsProgram :
    (∃ t, step (placed sU (.full 0x00880D)) = .next t) ∧ fetchable sU.params 0x0100 1 = true ∧
    fetchable sU.params 0x010F 1 = true :=
  ⟨⟨_, rfl⟩, by decide⟩

theorem witness_DecodeOfEncodeInAnyStream :
    open3.wf = true ∧ (Instr.lwsp 8 126).wf open3 = true ∧ (Instr.sb 8 0 9).wf open3 = true ∧
    (Instr.j 0xFFFF).wf open3 = true ∧ (Instr.jal 0x8000).wf open3 = true ∧ (Instr.add 3 4 5).wf open3 = true := by
  decide

theorem witness_EncodeOfDecodeIsTheWord : decodeWord open3 (.full 0xFFFFFF) = some (.ble 15 15 (-1)) := by decide

theorem witness_NoOpenOpcodes : NoOpenOpcodes dflt := ⟨rfl, rfl, rfl⟩

theorem witness_MatchesRow : MatchesRow (.half 0x0000) ∧ MatchesRow (.full 0xFFFFFF) :=
  ⟨by unfold MatchesRow; decide, by unfold MatchesRow; decide⟩

theorem witness_FetchOutOfRangeExactly :
    (under { dflt with imemSize := 4 } (placed (st 2 [] []) (.full 0x004301))).params.memOrg = .harvard ∧
    (under { dflt with imemSize := 4 } (st 3 [] [])).params.memOrg = .harvard ∧
    faultOf (step (under { dflt with imemSize := 4 } (st 3 [] []))) = some (.fetchOutOfRange 3) := by decide

theorem witness_FetchOutOfRangeExactly_unified :
    (under uni (st 0x00FF [] [])).params.memOrg = .unified 0x0100 0x010F ∧
    step (under uni (st 0x00FF [] [])) = .fault (.fetchOutOfRange 0x00FF) ∧
    step (under uni (st 0x010F [] [])) = .fault (.fetchOutOfRange 0x010F) ∧
    step (placed (under uni (st 0x010E [] [])) (.full 0x004301)) = .fault (.fetchOutOfRange 0x010E) :=
  ⟨rfl, rfl, rfl, rfl⟩

/-- Every byte of the instruction at the pc lies in the range that fetch may read. -/
theorem fetchRange_of_fetchable {s : State} (h : fetchable s.params s.pc.toNat (fetchLength s) = true)
    (hn : 0 < fetchLength s) : ∀ k < fetchLength s, FetchRange s.params (s.pc.toNat + k) :=
  (fetchable_iff hn).mp h

/-- No byte is set, and the pc is the last address with two bytes in range, under either organisation. -/
theorem witness_FetchOfUnsetByteStops_first :
    (∀ k < fetchLength (st 0xFFFE [] []), FetchRange dflt ((st 0xFFFE [] []).pc.toNat + k)) ∧
    (st 0xFFFE [] []).codeMem.read 0xFFFE = none ∧
    (∀ k < fetchLength (under uni (st 0x010E [] [])),
      FetchRange uni ((under uni (st 0x010E [] [])).pc.toNat + k)) ∧
    (under uni (st 0x010E [] [])).codeMem.read 0x010E = none :=
  ⟨fetchRange_of_fetchable (by decide) (by decide), rfl, fetchRange_of_fetchable (by decide) (by decide), rfl⟩

/-- A state with these bytes of instruction memory. -/
def sCode (pc : Word) (bytes : Memory) : State := { st pc [] [] with imem := bytes }

/-- The second byte is unset, after a first byte of either length, at the last address that length allows. -/
theorem witness_FetchOfUnsetByteStops_second :
    (∀ k < fetchLength (sCode 0xFFFE [(0xFFFE, 0x0E)]),
      FetchRange dflt ((sCode 0xFFFE [(0xFFFE, 0x0E)]).pc.toNat + k)) ∧
    (sCode 0xFFFE [(0xFFFE, 0x0E)]).codeMem.read 0xFFFE ≠ none ∧
    (sCode 0xFFFE [(0xFFFE, 0x0E)]).codeMem.read 0xFFFF = none ∧
    (∀ k < fetchLength (sCode 0xFFFD [(0xFFFD, 0x01)]),
      FetchRange dflt ((sCode 0xFFFD [(0xFFFD, 0x01)]).pc.toNat + k)) ∧
    (sCode 0xFFFD [(0xFFFD, 0x01)]).codeMem.read 0xFFFD ≠ none ∧
    (sCode 0xFFFD [(0xFFFD, 0x01)]).codeMem.read 0xFFFE = none :=
  ⟨fetchRange_of_fetchable (by decide) (by decide), by decide, by decide,
    fetchRange_of_fetchable (by decide) (by decide), by decide, by decide⟩

/-- Only the third byte of a 24-bit instruction is unset. -/
theorem witness_FetchOfUnsetByteStops_third :
    (∀ k < fetchLength (sCode 0xFFFD [(0xFFFD, 0x01), (0xFFFE, 0x43)]),
      FetchRange dflt ((sCode 0xFFFD [(0xFFFD, 0x01), (0xFFFE, 0x43)]).pc.toNat + k)) ∧
    (sCode 0xFFFD [(0xFFFD, 0x01), (0xFFFE, 0x43)]).codeMem.read 0xFFFD = some 0x01 ∧
    (0x01 : Byte).toNat % 2 = 1 ∧
    (sCode 0xFFFD [(0xFFFD, 0x01), (0xFFFE, 0x43)]).codeMem.read 0xFFFE ≠ none ∧
    (sCode 0xFFFD [(0xFFFD, 0x01), (0xFFFE, 0x43)]).codeMem.read 0xFFFF = none :=
  ⟨fetchRange_of_fetchable (by decide) (by decide), by decide, by decide, by decide, by decide⟩

/-- A run that stays at `JS 0` is in range; a run from a pc whose second byte lies beyond the memory is not. -/
theorem witness_ProgramInRangeExcludesFetchOutOfRange :
    ProgramInRange sJs ∧ Host.Core.run core 1 (st 0xFFFF [] []) = .fault (Fault.fetchOutOfRange 0xFFFF) := by
  refine ⟨fun n t ht => ?_, rfl⟩
  have stays : ∀ n, Host.Core.run core n sJs = .next sJs := by
    intro n
    induction n with
    | zero => rfl
    | succ n ih => exact steps_next.mpr ⟨sJs, ih, rfl⟩
  obtain rfl : sJs = t := Host.Outcome.next.inj ((stays n).symm.trans ht)
  exact fetchRange_of_fetchable (by decide) (by decide)

theorem witness_StepRunsDecodedInstruction :
    dflt.wf = true ∧ decodeWord dflt (.full 0x054301) = some (.add 3 4 5) ∧
    HoldsAtPc (placed (st 0xFFFD [] []) (.full 0x054301)) (InstWord.full 0x054301).bytes :=
  ⟨by decide, by decide, holdsAtPc_of_all (by decide) (by decide)⟩

theorem witness_StepRefusesReservedWords :
    HoldsAtPc (placed (st 0xFFFE [] []) (.half 0x0100)) (InstWord.half 0x0100).bytes ∧
    (InstWord.half 0x0100).lengthBitOk = true ∧ ¬ MatchesRow (.half 0x0100) :=
  ⟨holdsAtPc_of_all (by decide) (by decide), by decide, by unfold MatchesRow; decide⟩

/-- Each row's mask and match are met by the row's word in the decode tests above. -/
theorem witness_Spells24 :
    ([(0x054301, 0x000001), (0x054309, 0x000009), (0x054311, 0x000011), (0x054319, 0x000019),
      (0x054321, 0x000021), (0x054329, 0x000029), (0x054331, 0x000031), (0x054339, 0x000039),
      (0x0F432B, 0x00002B), (0x014333, 0x000033), (0x08433B, 0x00003B)] : List (BitVec 24 × BitVec 24)).all
      (fun x => x.1 &&& 0xF000FF == x.2) = true ∧
    ([(0xFD98C3, 0x000003), (0xFF9813, 0x000013), (0xFF98DB, 0x00001B), (0x0098A3, 0x000023),
      (0x09890F, 0x00000F), (0xFA89EF, 0x00002F), (0x648937, 0x000037), (0x648917, 0x000017),
      (0xFF897F, 0x00003F), (0x03891F, 0x00001F), (0x041815, 0x000015), (0xFF98E5, 0x000025),
      (0xFF9845, 0x000005), (0x04180D, 0x00000D)] : List (BitVec 24 × BitVec 24)).all
      (fun x => x.1 &&& 0x00003F == x.2) = true ∧
    (0xFF08F5 &&& 0x00F03F : BitVec 24) = 0x000035 := by decide

theorem witness_Spells16 :
    ([(0x98C0, 0x00C0), (0x9880, 0x0080), (0x9888, 0x0088), (0x9890, 0x0090), (0x9898, 0x0098),
      (0x98A0, 0x00A0), (0x98A8, 0x00A8), (0x98B0, 0x00B0), (0x98B8, 0x00B8), (0x482A, 0x002A),
      (0xF832, 0x0032), (0x183A, 0x003A)] : List (BitVec 16 × BitVec 16)).all
      (fun x => x.1 &&& 0x00FF == x.2) = true ∧
    ([(0xC1C2, 0x0002), (0xF812, 0x0012), (0xF8F4, 0x0034), (0x5804, 0x0004), (0x3814, 0x0014),
      (0x0F5C, 0x001C)] : List (BitVec 16 × BitVec 16)).all (fun x => x.1 &&& 0x003F == x.2) = true ∧
    ([(0x0816, 0x0016), (0x0006, 0x0006)] : List (BitVec 16 × BitVec 16)).all
      (fun x => x.1 &&& 0xF0FF == x.2) = true ∧
    ([(0xFFCE, 0x000E), (0xF39E, 0x001E)] : List (BitVec 16 × BitVec 16)).all
      (fun x => x.1 &&& 0x001F == x.2) = true ∧
    (0x0000 &&& 0xFFFF : BitVec 16) = 0x0000 := by decide

theorem witness_shifts_low4 : sA.params.shiftAmount = .low4 := by decide

theorem witness_RegisterShiftsRefuseOrSaturate_refuse :
    (under { dflt with shiftAmount := .refuse } (st 0 [(5, 16)] [])).params.shiftAmount = .refuse ∧
    15 < ((under { dflt with shiftAmount := .refuse } (st 0 [(5, 16)] [])).reg 5).toNat := by decide

theorem witness_RegisterShiftsRefuseOrSaturate_allowed :
    (under { dflt with shiftAmount := .refuse } (st 0 [(5, 15)] [])).params.shiftAmount = .refuse ∧
    ((under { dflt with shiftAmount := .refuse } (st 0 [(5, 15)] [])).reg 5).toNat ≤ 15 ∧
    (under { dflt with shiftAmount := .saturate } (st 0 [(5, 16)] [])).params.shiftAmount = .saturate := by decide

theorem witness_JJalFollowTheirRecordedReading : dflt.jOpcode = none ∧ dflt.jalOpcode = none := by decide

theorem witness_LwLoadsAlignedWord_odd : (effectiveAddress (sA.reg 9) 1).toNat % 2 = 1 := by decide

theorem witness_LwLoadsAlignedWord_outside :
    (effectiveAddress (sA.reg 9) 2).toNat % 2 = 0 ∧
    sA.params.dmemSize ≤ (effectiveAddress (sA.reg 9) 2).toNat + 1 := by decide

theorem witness_LwLoadsAlignedWord_last :
    (effectiveAddress (sA.reg 9) 0).toNat % 2 = 0 ∧ (effectiveAddress (sA.reg 9) 0).toNat + 1 < sA.params.dmemSize ∧
    sA.dmem.read (effectiveAddress (sA.reg 9) 0).toNat = some 0xCD ∧
    sA.dmem.read ((effectiveAddress (sA.reg 9) 0).toNat + 1) = some 0xAB := by decide

theorem witness_LbLbuLoadByte_outside : sA.params.dmemSize ≤ (effectiveAddress (sA.reg 9) 2).toNat := by decide

theorem witness_LbLbuLoadByte_last :
    (effectiveAddress (sA.reg 9) 1).toNat < sA.params.dmemSize ∧
    sA.dmem.read (effectiveAddress (sA.reg 9) 1).toNat = some 0xAB := by decide

theorem witness_SwStoresAlignedWord_code :
    (effectiveAddress (sU.reg 2) 14).toNat % 2 = 0 ∧ (effectiveAddress (sU.reg 2) 14).toNat + 1 < sU.params.dmemSize ∧
    (effectiveAddress (sU.reg 2) (-2)).toNat % 2 = 0 ∧
    TouchesCode sU.params (effectiveAddress (sU.reg 2) (-2)).toNat 2 :=
  ⟨by decide, by decide, by decide, 0x0100, 0x010F, 0x0100, by decide⟩

theorem not_touchesCode {p : Params} {a n : Nat} {lo hi : Word} (hp : p.memOrg = .unified lo hi)
    (h : a + n ≤ lo.toNat ∨ hi.toNat < a) : ¬ TouchesCode p a n := by
  rintro ⟨l, u, k, hk, h1, h2, h3, h4⟩
  rw [hp] at hk
  injection hk with e1 e2
  subst e1 e2
  omega

theorem witness_SwStoresAlignedWord_below_code :
    (effectiveAddress (sU.reg 9) 0).toNat % 2 = 0 ∧ (effectiveAddress (sU.reg 9) 0).toNat + 1 < sU.params.dmemSize ∧
    ¬ TouchesCode sU.params (effectiveAddress (sU.reg 9) 0).toNat 2 :=
  ⟨by decide, by decide, not_touchesCode (lo := 0x0100) (hi := 0x010F) rfl (by decide)⟩

theorem witness_SwStoresAlignedWord_stops :
    (effectiveAddress (sA.reg 9) 1).toNat % 2 = 1 ∧ (effectiveAddress (sA.reg 9) 2).toNat % 2 = 0 ∧
    sA.params.dmemSize ≤ (effectiveAddress (sA.reg 9) 2).toNat + 1 := by decide

theorem witness_SbStoresByte_opcode :
    open3.sbOpcode = some .b000111 ∧ (0x039807 : BitVec 24).extractLsb' 0 6 = SbOpcode.b000111.bits ∧
    dflt.sbOpcode = none := by decide

theorem witness_SbStoresByte_outside : sA.params.dmemSize ≤ (effectiveAddress (sA.reg 9) 2).toNat := by decide

theorem witness_SbStoresByte_code :
    (effectiveAddress (sU.reg 2) 13).toNat < sU.params.dmemSize ∧
    TouchesCode sU.params (effectiveAddress (sU.reg 2) 13).toNat 1 :=
  ⟨by decide, 0x0100, 0x010F, 0x010F, by decide⟩

theorem witness_SbStoresByte_beside_code :
    (effectiveAddress (sU.reg 2) 14).toNat < sU.params.dmemSize ∧
    ¬ TouchesCode sU.params (effectiveAddress (sU.reg 2) 14).toNat 1 ∧
    ¬ TouchesCode sU.params (effectiveAddress (sU.reg 9) 1).toNat 1 :=
  ⟨by decide, not_touchesCode (lo := 0x0100) (hi := 0x010F) rfl (by decide),
    not_touchesCode (lo := 0x0100) (hi := 0x010F) rfl (by decide)⟩

theorem witness_LoadOfUnwrittenByteStops_byte :
    (effectiveAddress (sA.reg 9) (-1)).toNat < sA.params.dmemSize ∧
    sA.dmem.read (effectiveAddress (sA.reg 9) (-1)).toNat = none := by decide

theorem witness_LoadOfUnwrittenByteStops_first :
    (effectiveAddress (sA.reg 9) (-2)).toNat % 2 = 0 ∧
    (effectiveAddress (sA.reg 9) (-2)).toNat + 1 < sA.params.dmemSize ∧
    sA.dmem.read (effectiveAddress (sA.reg 9) (-2)).toNat = none ∧
    (spAddress (sA.reg Reg.sp) 2).toNat % 2 = 0 ∧ (spAddress (sA.reg Reg.sp) 2).toNat + 1 < sA.params.dmemSize ∧
    sA.dmem.read (spAddress (sA.reg Reg.sp) 2).toNat = none := by decide

theorem witness_LoadOfUnwrittenByteStops_second :
    (effectiveAddress ((st 0 [(9, 0xFFFE)] [(0xFFFE, 1)]).reg 9) 0).toNat % 2 = 0 ∧
    (effectiveAddress ((st 0 [(9, 0xFFFE)] [(0xFFFE, 1)]).reg 9) 0).toNat + 1 < dflt.dmemSize ∧
    (st 0 [(9, 0xFFFE)] [(0xFFFE, 1)]).dmem.read 0xFFFE ≠ none ∧
    (st 0 [(9, 0xFFFE)] [(0xFFFE, 1)]).dmem.read 0xFFFF = none ∧
    spAddress ((st 0 [(1, 0xFFFE)] [(0xFFFE, 1)]).reg Reg.sp) 0 = 0xFFFE := by decide

/-- Both clauses: x9 is the base of the store and of the loads, at displacements 0 and 1. -/
theorem witness_StoredWordReadsBack :
    ∃ t, exec (.sw 8 0 9) sA = .next t ∧
      effectiveAddress (t.reg 9) 0 = effectiveAddress (sA.reg 9) 0 ∧
      effectiveAddress (t.reg 9) 1 = effectiveAddress (sA.reg 9) 0 + 1 :=
  ⟨_, rfl, by decide, by decide⟩

theorem witness_SixteenBitTwinsAgree :
    twin (.andi2 8 (-32)) = some (.andi 8 8 (-32)) ∧ twin (.swsp 8 126) = some (.sw 8 126 Reg.sp) := by decide

theorem witness_LwspSwsp_odd : (spAddress ((under small (st 0 [(1, 0x01F9)] [])).reg Reg.sp) 2).toNat % 2 = 1 := by
  decide

theorem witness_LwspSwsp_outside :
    (spAddress ((under small (st 0 [(1, 0x01FE)] [])).reg Reg.sp) 2).toNat % 2 = 0 ∧
    small.dmemSize ≤ (spAddress ((under small (st 0 [(1, 0x01FE)] [])).reg Reg.sp) 2).toNat + 1 := by decide

theorem witness_LwspLoadsFromStack :
    (spAddress (sA.reg Reg.sp) 0).toNat % 2 = 0 ∧ (spAddress (sA.reg Reg.sp) 0).toNat + 1 < sA.params.dmemSize ∧
    sA.dmem.read (spAddress (sA.reg Reg.sp) 0).toNat = some 0x34 ∧
    sA.dmem.read ((spAddress (sA.reg Reg.sp) 0).toNat + 1) = some 0x12 := by decide

theorem witness_SwspStoresToStack :
    (spAddress (sU.reg Reg.sp) 0).toNat % 2 = 0 ∧ (spAddress (sU.reg Reg.sp) 0).toNat + 1 < sU.params.dmemSize ∧
    ¬ TouchesCode sU.params (spAddress (sU.reg Reg.sp) 0).toNat 2 :=
  ⟨by decide, by decide, not_touchesCode (lo := 0x0100) (hi := 0x010F) rfl (by decide)⟩

theorem witness_SwspStoresToStack_code :
    (spAddress ((under uni (st 0 [(1, 0x010E)] [])).reg Reg.sp) 0).toNat % 2 = 0 ∧
    (spAddress ((under uni (st 0 [(1, 0x010E)] [])).reg Reg.sp) 0).toNat + 1 < uni.dmemSize ∧
    TouchesCode uni (spAddress ((under uni (st 0 [(1, 0x010E)] [])).reg Reg.sp) 0).toNat 2 :=
  ⟨by decide, by decide, 0x0100, 0x010F, 0x010F, by decide⟩

theorem witness_ExecNeverRefuses :
    step (placed (st 0x0100 [] []) (.half 0x0100)) = .refused (.reservedInstruction 0x0100 (.half 0x0100)) := rfl

theorem witness_StopsFollowTheTable :
    exec (.lw 8 1 9) sA = .fault (.misalignedAccess 0x01FF) ∧ exec (.sb 8 2 9) sA = .fault (.accessOutOfRange 0x0200) ∧
    exec (.swsp 8 0) (under uni (st 0 [(1, 0x0100)] [])) = .fault (.storeToCode 0x0100) :=
  ⟨rfl, rfl, rfl⟩

/-- For OnlyNamedRegistersChange, OnlyStoresChangeDataMemory and SequentialInstructionsAdvanceByLength. -/
theorem witness_exec_next :
    (∃ t, exec (.jalr 8) sA = .next t) ∧ isStore (.jalr 8) = false ∧
    (∃ t, exec (.sw 8 0 9) sA = .next t) ∧ isStore (.sw 8 0 9) = true ∧ isTransfer (.sw 8 0 9) = false :=
  ⟨⟨_, rfl⟩, rfl, ⟨_, rfl⟩, rfl, rfl⟩

theorem witness_OtherInstructionsIgnoreDataMemory :
    isLoad (.lsl 3 4 5) = false ∧ isStore (.lsl 3 4 5) = false ∧ (∃ t, exec (.lsl 3 4 5) sA = .next t) ∧
    exec (.lsl 3 4 5) (under { dflt with shiftAmount := .refuse } (st 0 [(5, 16)] []))
      = .fault (.shiftDistanceOutOfRange 16) :=
  ⟨rfl, rfl, ⟨_, rfl⟩, rfl⟩

theorem witness_SelfLoopsRepeatForever :
    step sJs = .next sJs ∧ ended sJs = true ∧ sJs.reg 8 = sJs.pc :=
  ⟨rfl, by decide, by decide⟩

theorem witness_RunsEndOnlyAtJsZero :
    run 0 sJs = .ended sJs ∧ run 1 State.reset = .fault (.unwrittenMemory 0) ∧
    run 1 (placed (st 0x0100 [] []) (.half 0x0100))
      = .refused (.reservedInstruction 0x0100 (.half 0x0100)) := by decide

/-- A NOP and then `JS 0`: unfinished with no budget, ended after one step, by steps of the machine. -/
theorem witness_RunsEndOnlyAtJsZero_one_step :
    run 0 (sCode 0x00FE [(0xFE, 0x00), (0xFF, 0x00), (0x100, 0x0E), (0x101, 0x00)])
      = .unfinished (sCode 0x00FE [(0xFE, 0x00), (0xFF, 0x00), (0x100, 0x0E), (0x101, 0x00)]) ∧
    run 1 (sCode 0x00FE [(0xFE, 0x00), (0xFF, 0x00), (0x100, 0x0E), (0x101, 0x00)])
      = .ended (sCode 0x0100 [(0xFE, 0x00), (0xFF, 0x00), (0x100, 0x0E), (0x101, 0x00)]) ∧
    fetch (sCode 0x0100 [(0xFE, 0x00), (0xFF, 0x00), (0x100, 0x0E), (0x101, 0x00)]) = .ok (.half 0x000E) := by
  decide

/-- Two different states that differ in an unwritten register only. -/
theorem witness_StrictStepIgnoresUnwrittenRegisters :
    SameButUnwritten (st 0 [(4, 1)] []) { st 0 [(4, 1)] [] with regs := (st 0 [(4, 1)] []).regs.set 5 7 } ∧
    st 0 [(4, 1)] [] ≠ { st 0 [(4, 1)] [] with regs := (st 0 [(4, 1)] []).regs.set 5 7 } :=
  ⟨by unfold SameButUnwritten; decide, by decide⟩

theorem witness_StrictStepIsStepOnWrittenReads :
    fetch (placed (st 0x0100 [(4, 1)] []) (.full 0x054301)) = .ok (.full 0x054301) ∧
    decodeWord dflt (.full 0x054301) = some (.add 3 4 5) ∧ reads (.add 3 4 5) = [4] ++ 5 :: [] ∧
    (∀ q ∈ ([4] : List Reg), (placed (st 0x0100 [(4, 1)] []) (.full 0x054301)).isWritten q = true) ∧
    (placed (st 0x0100 [(4, 1)] []) (.full 0x054301)).isWritten 5 = false :=
  ⟨rfl, by decide, rfl, by decide, by decide⟩

/-- LW from the odd address 0x01FF, its base written: the strict step stops with the step's own stop; and a reserved word
is refused by both. -/
theorem witness_StrictStepIsStepOnWrittenReads_stop :
    step (placed sA (.full 0x019815)) = .fault (.misalignedAccess 0x01FF) ∧
    strictStep (placed sA (.full 0x019815)) = .fault (.stop (.misalignedAccess 0x01FF)) ∧
    strictStep (placed sA (.half 0x0100)) = .refused (.reservedInstruction 0x0100 (.half 0x0100)) :=
  ⟨rfl, rfl, rfl⟩

theorem witness_StrictStepIsStepOnWrittenReads_next :
    ∃ t, strictStep (placed (st 0x0100 [(4, 1), (5, 2)] []) (.full 0x054301)) = .next t := ⟨_, rfl⟩

end Sys2Proof.Tests
end

section
/-! SUPPORT. The strict step taken apart: the four ways a step begins, what the step and the strict step are in each,
and that neither a fetch, a decode nor an instruction whose reads are written sees what an unwritten register holds. -/

namespace Sys2Proof.Machine

/-! ## How a step begins -/

/-- How a step begins, in R204's order: the fetch stops; the word is reserved; every register that the instruction
reads is written; or there is a first one that is not. -/
inductive StepShape (s : State) : Prop where
  | fetchStop (f : Fault) (hfetch : fetch s = .error f)
  | reserved (w : InstWord) (hfetch : fetch s = .ok w) (hdec : decodeWord s.params w = none)
  | written (w : InstWord) (i : Instr) (hfetch : fetch s = .ok w) (hdec : decodeWord s.params w = some i)
      (hreads : ∀ r ∈ reads i, s.isWritten r = true)
  | unwritten (w : InstWord) (i : Instr) (r : Reg) (hfetch : fetch s = .ok w)
      (hdec : decodeWord s.params w = some i) (hread : unwrittenRead i s = some r)

theorem unwrittenRead_eq_none {i : Instr} {s : State} :
    unwrittenRead i s = none ↔ ∀ r ∈ reads i, s.isWritten r = true := by
  simp [unwrittenRead]

/-- The first unwritten register in the order of `reads` is the one named (R204). -/
theorem unwrittenRead_of_split {i : Instr} {s : State} {before after : List Reg} {r : Reg}
    (hsplit : reads i = before ++ r :: after) (hbefore : ∀ q ∈ before, s.isWritten q = true)
    (hr : s.isWritten r = false) : unwrittenRead i s = some r :=
  List.find?_eq_some_iff_append.mpr
    ⟨by simp [hr], before, after, hsplit, fun q hq => by simp [hbefore q hq]⟩

theorem stepShape (s : State) : StepShape s := by
  cases hfetch : fetch s with
  | error f => exact .fetchStop f hfetch
  | ok w =>
    cases hdec : decodeWord s.params w with
    | none => exact .reserved w hfetch hdec
    | some i =>
      cases hread : unwrittenRead i s with
      | none => exact .written w i hfetch hdec (unwrittenRead_eq_none.mp hread)
      | some r => exact .unwritten w i r hfetch hdec hread

/-! ## The step and the strict step in each shape -/

/-- An instruction's outcome as the strict step answers it. -/
def toStrict : Res → Host.Outcome State StrictFault Refusal
  | .next t => .next t
  | .fault f => .fault (.stop f)
  | .refused r => .refused r

theorem toStrict_next {o : Res} {t : State} : toStrict o = .next t ↔ o = .next t := by
  cases o <;> simp [toStrict]

theorem toStrict_stop {o : Res} {f : Fault} : toStrict o = .fault (.stop f) ↔ o = .fault f := by
  cases o <;> simp [toStrict]

theorem toStrict_refused {o : Res} {r : Refusal} : toStrict o = .refused r ↔ o = .refused r := by
  cases o <;> simp [toStrict]

theorem step_of_fetch_error {s : State} {f : Fault} (hfetch : fetch s = .error f) : step s = .fault f := by
  simp only [step, hfetch]

theorem step_of_reserved {s : State} {w : InstWord} (hfetch : fetch s = .ok w)
    (hdec : decodeWord s.params w = none) : step s = .refused (.reservedInstruction s.pc w) := by
  simp only [step, hfetch, hdec]

theorem step_of_decoded {s : State} {w : InstWord} {i : Instr} (hfetch : fetch s = .ok w)
    (hdec : decodeWord s.params w = some i) : step s = exec i s := by
  simp only [step, hfetch, hdec]

theorem strictStep_of_fetch_error {s : State} {f : Fault} (hfetch : fetch s = .error f) :
    strictStep s = .fault (.stop f) := by
  simp only [strictStep, hfetch]

theorem strictStep_of_reserved {s : State} {w : InstWord} (hfetch : fetch s = .ok w)
    (hdec : decodeWord s.params w = none) :
    strictStep s = .refused (.reservedInstruction s.pc w) := by
  simp only [strictStep, hfetch, hdec]

theorem strictStep_of_written {s : State} {w : InstWord} {i : Instr} (hfetch : fetch s = .ok w)
    (hdec : decodeWord s.params w = some i) (hreads : ∀ r ∈ reads i, s.isWritten r = true) :
    strictStep s = toStrict (exec i s) := by
  simp only [strictStep, hfetch, hdec, unwrittenRead_eq_none.mpr hreads]
  cases exec i s <;> rfl

theorem strictStep_of_unwritten {s : State} {w : InstWord} {i : Instr} {r : Reg} (hfetch : fetch s = .ok w)
    (hdec : decodeWord s.params w = some i) (hread : unwrittenRead i s = some r) :
    strictStep s = .fault (.unwrittenRegister r) := by
  simp only [strictStep, hfetch, hdec, hread]

/-! ## States that differ in unwritten registers only -/

theorem SameButUnwritten.isWritten_eq {s t : State} (h : SameButUnwritten s t) (r : Reg) :
    t.isWritten r = s.isWritten r := by
  obtain ⟨_, _, _, _, hwritten, _⟩ := h
  simp only [State.isWritten, hwritten]

theorem SameButUnwritten.unwrittenRead_eq {s t : State} (h : SameButUnwritten s t) (i : Instr) :
    unwrittenRead i t = unwrittenRead i s := by
  simp only [unwrittenRead, h.isWritten_eq]

/-- Fetch reads no register. -/
theorem SameButUnwritten.fetch_eq {s t : State} (h : SameButUnwritten s t) : fetch t = fetch s := by
  obtain ⟨hpc, hdmem, himem, hparams, _, _⟩ := h
  have hcode : t.codeMem = s.codeMem := by simp only [State.codeMem, hparams, hdmem, himem]
  simp only [fetch, hpc, hparams, hcode]

theorem SameButUnwritten.setPc {s t : State} (h : SameButUnwritten s t) (target : Word) :
    SameButUnwritten (s.setPc target) (t.setPc target) := by
  obtain ⟨_, hdmem, himem, hparams, hwritten, hregs⟩ := h
  exact ⟨rfl, hdmem, himem, hparams, hwritten, hregs⟩

theorem SameButUnwritten.setDmem {s t : State} (h : SameButUnwritten s t) (m : Memory) :
    SameButUnwritten (s.setDmem m) (t.setDmem m) := by
  obtain ⟨hpc, _, himem, hparams, hwritten, hregs⟩ := h
  exact ⟨hpc, rfl, himem, hparams, hwritten, hregs⟩

/-- The register written holds the same value in both afterwards. -/
theorem SameButUnwritten.setReg {s t : State} (h : SameButUnwritten s t) (r : Reg) (v : Word) :
    SameButUnwritten (s.setReg r v) (t.setReg r v) := by
  obtain ⟨hpc, hdmem, himem, hparams, hwritten, hregs⟩ := h
  refine ⟨hpc, hdmem, himem, hparams, congrArg (·.set r.val true) hwritten, fun q hq => ?_⟩
  by_cases hqr : q = r
  · simp [hqr]
  · simp only [isWritten_setReg, reg_setReg, if_neg hqr] at hq ⊢
    exact hregs q hq

theorem SameButUnwritten.writeback {s t : State} (h : SameButUnwritten s t) (rd : Reg) (v len : Word) :
    SameButUnwritten (s.writeback rd v len) (t.writeback rd v len) := by
  have ⟨hpc, _⟩ := h
  simp only [State.writeback, hpc]
  exact (h.setReg rd v).setPc _

/-! ## The shared operations on two such states -/

/-- The outcomes of an instruction on two states are the same to the strict step. -/
abbrev SameRes (o o' : Res) : Prop := SameOutcome (toStrict o) (toStrict o')

theorem SameButUnwritten.next24 {s t : State} (h : SameButUnwritten s t) (rd : Reg) {v v' : Word} (hv : v' = v) :
    SameRes (next24 s rd v) (next24 t rd v') :=
  hv ▸ h.writeback rd v 3

theorem SameButUnwritten.next16 {s t : State} (h : SameButUnwritten s t) (rd : Reg) {v v' : Word} (hv : v' = v) :
    SameRes (next16 s rd v) (next16 t rd v') :=
  hv ▸ h.writeback rd v 2

theorem SameButUnwritten.shift24 {s t : State} (h : SameButUnwritten s t) (rd : Reg) {a a' d d' : Word}
    (op : Word → Nat → Word) (ha : a' = a) (hd : d' = d) :
    SameRes (shift24 s rd a d op) (shift24 t rd a' d' op) := by
  have ⟨_, _, _, hparams, _⟩ := h
  simp only [Machine.shift24, ha, hd, hparams]
  cases shamt s.params.shiftAmount d with
  | none => exact rfl
  | some n => exact h.next24 rd rfl

theorem SameButUnwritten.shift16 {s t : State} (h : SameButUnwritten s t) (rd : Reg) {a a' d d' : Word}
    (op : Word → Nat → Word) (ha : a' = a) (hd : d' = d) :
    SameRes (shift16 s rd a d op) (shift16 t rd a' d' op) := by
  have ⟨_, _, _, hparams, _⟩ := h
  simp only [Machine.shift16, ha, hd, hparams]
  cases shamt s.params.shiftAmount d with
  | none => exact rfl
  | some n => exact h.next16 rd rfl

theorem SameButUnwritten.goTo {s t : State} (h : SameButUnwritten s t) {target target' : Word}
    (ht : target' = target) : SameRes (.next (s.setPc target)) (.next (t.setPc target')) :=
  ht ▸ h.setPc target

theorem SameButUnwritten.branchOn {s t : State} (h : SameButUnwritten s t) {taken taken' : Bool}
    (simm10 : BitVec 10) (htaken : taken' = taken) :
    SameRes (branchOn s taken simm10) (branchOn t taken' simm10) := by
  have ⟨hpc, _⟩ := h
  exact h.goTo (by rw [htaken, hpc])

theorem SameButUnwritten.link {s t : State} (h : SameButUnwritten s t) {v v' target target' : Word}
    (hv : v' = v) (ht : target' = target) :
    SameRes (.next ((s.setReg Reg.ra v).setPc target)) (.next ((t.setReg Reg.ra v').setPc target')) :=
  hv ▸ (h.setReg Reg.ra v).goTo ht

theorem SameButUnwritten.loadWordInto {s t : State} (h : SameButUnwritten s t) (rd : Reg) {ea ea' : Word}
    (len : Word) (hea : ea' = ea) : SameRes (loadWordInto s rd ea len) (loadWordInto t rd ea' len) := by
  have ⟨_, hdmem, _, hparams, _⟩ := h
  have hread : memReadWord t ea = memReadWord s ea := by simp only [memReadWord, hdmem, hparams]
  simp only [Machine.loadWordInto, hea, hread]
  cases memReadWord s ea with
  | error f => exact rfl
  | ok v => exact h.writeback rd v len

theorem SameButUnwritten.loadByteInto {s t : State} (h : SameButUnwritten s t) (rd : Reg) {ea ea' : Word}
    (ext : Byte → Word) (hea : ea' = ea) :
    SameRes (loadByteInto s rd ea ext) (loadByteInto t rd ea' ext) := by
  have ⟨_, hdmem, _, hparams, _⟩ := h
  have hread : memReadByte t ea = memReadByte s ea := by simp only [memReadByte, hdmem, hparams]
  simp only [Machine.loadByteInto, hea, hread]
  cases memReadByte s ea with
  | error f => exact rfl
  | ok b => exact h.writeback rd (ext b) 3

theorem SameButUnwritten.storeWordAt {s t : State} (h : SameButUnwritten s t) {ea ea' v v' : Word} (len : Word)
    (hea : ea' = ea) (hv : v' = v) : SameRes (storeWordAt s ea v len) (storeWordAt t ea' v' len) := by
  have ⟨hpc, hdmem, _, hparams, _⟩ := h
  simp only [Machine.storeWordAt, memWriteWord, hea, hv, hpc, hdmem, hparams]
  cases checkStore s.params .word ea with
  | error f => exact rfl
  | ok _ => exact (h.setDmem _).setPc _

theorem SameButUnwritten.storeByteAt {s t : State} (h : SameButUnwritten s t) {ea ea' : Word} {b b' : Byte}
    (hea : ea' = ea) (hb : b' = b) : SameRes (storeByteAt s ea b) (storeByteAt t ea' b') := by
  have ⟨hpc, hdmem, _, hparams, _⟩ := h
  simp only [Machine.storeByteAt, memWriteByte, hea, hb, hpc, hdmem, hparams]
  cases checkStore s.params .byte ea with
  | error f => exact rfl
  | ok _ => exact (h.setDmem _).setPc _

/-! ## Every instruction on two such states -/

/-- An instruction whose reads are written does the same on two states that differ in unwritten registers only: each
operand it takes from a register is the same in both. -/
theorem SameButUnwritten.exec {s t : State} (h : SameButUnwritten s t) {i : Instr}
    (hreads : ∀ r ∈ reads i, s.isWritten r = true) : SameRes (exec i s) (exec i t) := by
  have ⟨hpc, _, _, _, _, hregs⟩ := h
  have hreg : ∀ r ∈ reads i, t.reg r = s.reg r := fun r hr => hregs r (hreads r hr)
  cases i <;>
    simp only [reads, List.mem_cons, List.not_mem_nil, or_false, forall_eq_or_imp, forall_eq] at hreg
  case add | sub | and | xor | or | addi | andi | xori | ori | lsli | lsri | asri =>
    exact h.next24 _ (by simp only [hreg])
  case mov | add2 | sub2 | and2 | xor2 | or2 | addi2 | andi2 | lsli2 | lsri2 | asri2 =>
    exact h.next16 _ (by simp only [hreg])
  case li => exact h.next24 _ rfl
  case lsi | lui => exact h.next16 _ rfl
  case lsl | lsr | asr =>
    obtain ⟨hdist, hval⟩ := hreg
    exact h.shift24 _ _ hval hdist
  case lsl2 | lsr2 | asr2 =>
    obtain ⟨hdist, hval⟩ := hreg
    exact h.shift16 _ _ hval hdist
  case beq | bne | blt | bltu | ble | bleu => exact h.branchOn _ (by simp only [hreg])
  case j | js | nop => exact h.goTo (by rw [hpc])
  case jr => exact h.goTo hreg
  case jal | jsal => exact h.link (by rw [hpc]) (by rw [hpc])
  case jalr => exact h.link (by rw [hpc]) hreg
  case lw | lwsp => exact h.loadWordInto _ _ (by rw [hreg])
  case lb | lbu => exact h.loadByteInto _ _ (by rw [hreg])
  case sw | swsp =>
    obtain ⟨hbase, hval⟩ := hreg
    exact h.storeWordAt _ (by rw [hbase]) hval
  case sb =>
    obtain ⟨hbase, hval⟩ := hreg
    exact h.storeByteAt (by rw [hbase]) (by rw [hval])

/-- Settles O53: fetch, decode and the record of written registers are the same in both states, and so is every operand
of an instruction that passes the strict step's check. -/
theorem strictStepIgnoresUnwrittenRegisters : Obligations.StrictStepIgnoresUnwrittenRegisters := by
  intro s t h
  have ⟨hpc, _, _, hparams, _⟩ := h
  cases stepShape s with
  | fetchStop f hfetch =>
    rw [strictStep_of_fetch_error hfetch, strictStep_of_fetch_error (h.fetch_eq.trans hfetch)]
    exact rfl
  | reserved w hfetch hdec =>
    rw [strictStep_of_reserved hfetch hdec,
      strictStep_of_reserved (h.fetch_eq.trans hfetch) (hparams ▸ hdec), hpc]
    exact rfl
  | written w i hfetch hdec hreads =>
    rw [strictStep_of_written hfetch hdec hreads,
      strictStep_of_written (h.fetch_eq.trans hfetch) (hparams ▸ hdec)
        fun r hr => (h.isWritten_eq r).trans (hreads r hr)]
    exact h.exec hreads
  | unwritten w i r hfetch hdec hread =>
    rw [strictStep_of_unwritten hfetch hdec hread,
      strictStep_of_unwritten (h.fetch_eq.trans hfetch) (hparams ▸ hdec)
        ((h.unwrittenRead_eq i).trans hread)]
    exact rfl

/-! ## The strict step and the step -/

theorem next_ne_refused (t : State) (r : Refusal) : (.next t : Res) ≠ .refused r := nofun

/-- No instruction's meaning is a refusal: a step is refused only by its decode. -/
theorem exec_not_refused (i : Instr) (s : State) (r : Refusal) : exec i s ≠ .refused r := by
  cases i
  case lsl | lsr | asr => exact shift24_not_refused _ _ _ _ _ _
  case lsl2 | lsr2 | asr2 => exact shift16_not_refused _ _ _ _ _ _
  case lw | lwsp | lb | lbu | sw | swsp | sb => exact andThen_not_refused _ _ _
  all_goals exact next_ne_refused _ _

/-- Fetch and decode answer one instruction, so that a claim about every instruction at the pc is about that one. -/
theorem forall_decoded_iff {s : State} {w : InstWord} {i : Instr} (hfetch : fetch s = .ok w)
    (hdec : decodeWord s.params w = some i) {P : Instr → Prop} :
    (∀ w' i', fetch s = .ok w' → decodeWord s.params w' = some i' → P i') ↔ P i := by
  refine ⟨fun h => h w i hfetch hdec, fun h w' i' hf hd => ?_⟩
  cases hfetch.symm.trans hf
  cases hdec.symm.trans hd
  exact h

/-- The same for a claim that some instruction stands at the pc. -/
theorem exists_decoded_iff {s : State} {w : InstWord} {i : Instr} (hfetch : fetch s = .ok w)
    (hdec : decodeWord s.params w = some i) {P : Instr → Prop} :
    (∃ w' i', fetch s = .ok w' ∧ decodeWord s.params w' = some i' ∧ P i') ↔ P i := by
  refine ⟨?_, fun h => ⟨w, i, hfetch, hdec, h⟩⟩
  rintro ⟨w', i', hf, hd, h⟩
  cases hfetch.symm.trans hf
  cases hdec.symm.trans hd
  exact h

/-- An instruction that reads an unwritten register does not read written ones only. -/
theorem not_reads_written {i : Instr} {s : State} {r : Reg} (hread : unwrittenRead i s = some r) :
    ¬ ∀ q ∈ reads i, s.isWritten q = true := by
  rw [← unwrittenRead_eq_none, hread]
  exact Option.some_ne_none r

/-- The strict step goes on exactly as the step does over written reads. -/
theorem strictStep_next {s t : State} :
    strictStep s = .next t ↔ (step s = .next t ∧ ∃ w i, fetch s = .ok w ∧ decodeWord s.params w = some i ∧
      ∀ r ∈ reads i, s.isWritten r = true) := by
  cases stepShape s with
  | fetchStop f hfetch => simp [strictStep_of_fetch_error hfetch, step_of_fetch_error hfetch]
  | reserved w hfetch hdec => simp [strictStep_of_reserved hfetch hdec, step_of_reserved hfetch hdec]
  | written w i hfetch hdec hreads =>
    rw [strictStep_of_written hfetch hdec hreads, step_of_decoded hfetch hdec, toStrict_next,
      exists_decoded_iff hfetch hdec]
    exact (and_iff_left hreads).symm
  | unwritten w i r hfetch hdec hread =>
    rw [strictStep_of_unwritten hfetch hdec hread, exists_decoded_iff hfetch hdec]
    simp [not_reads_written hread]

/-- The strict step meets a stop of the step exactly where the step does and no unwritten register comes before it. -/
theorem strictStep_stop {s : State} {f : Fault} :
    strictStep s = .fault (.stop f) ↔
      (step s = .fault f ∧ ∀ w i, fetch s = .ok w → decodeWord s.params w = some i →
        ∀ r ∈ reads i, s.isWritten r = true) := by
  cases stepShape s with
  | fetchStop g hfetch => simp [strictStep_of_fetch_error hfetch, step_of_fetch_error hfetch, hfetch]
  | reserved w hfetch hdec => simp [strictStep_of_reserved hfetch hdec, step_of_reserved hfetch hdec]
  | written w i hfetch hdec hreads =>
    rw [strictStep_of_written hfetch hdec hreads, step_of_decoded hfetch hdec, toStrict_stop,
      forall_decoded_iff hfetch hdec]
    exact (and_iff_left hreads).symm
  | unwritten w i r hfetch hdec hread =>
    rw [strictStep_of_unwritten hfetch hdec hread, forall_decoded_iff hfetch hdec]
    simp [not_reads_written hread]

/-- Both steps are refused by the same decode. -/
theorem strictStep_refused {s : State} {q : Refusal} : strictStep s = .refused q ↔ step s = .refused q := by
  cases stepShape s with
  | fetchStop f hfetch => simp [strictStep_of_fetch_error hfetch, step_of_fetch_error hfetch]
  | reserved w hfetch hdec => simp [strictStep_of_reserved hfetch hdec, step_of_reserved hfetch hdec]
  | written w i hfetch hdec hreads =>
    rw [strictStep_of_written hfetch hdec hreads, step_of_decoded hfetch hdec, toStrict_refused]
  | unwritten w i r hfetch hdec hread =>
    rw [strictStep_of_unwritten hfetch hdec hread, step_of_decoded hfetch hdec]
    simp [exec_not_refused]

/-- Settles O54, one lemma for each outcome; the last clause is the first unwritten register in R204's order. -/
theorem strictStepIsStepOnWrittenReads : Obligations.StrictStepIsStepOnWrittenReads :=
  ⟨fun _ _ => strictStep_next, fun _ _ => strictStep_stop, fun _ _ => strictStep_refused,
    fun _ _ _ _ _ _ hfetch hdec hsplit hbefore hr =>
      strictStep_of_unwritten hfetch hdec (unwrittenRead_of_split hsplit hbefore hr)⟩

end Sys2Proof.Machine
end

section
/-! SUPPORT. What every instruction that goes on changes and leaves unchanged, read off the shapes of `Effect`: its
registers, its data bytes and its pc. -/

namespace Sys2Proof.Machine

/-- Only the registers in `writes` change, or change their mark. -/
theorem Effect.keepsRegsBut {i : Instr} {s t : State} (h : Effect i s t) : KeepsRegsBut (writes i) s t := by
  intro q hq
  cases h with
  | result rd v hw =>
    rw [hw, List.mem_singleton] at hq
    simp [hq]
  | link v target hw =>
    rw [hw, List.mem_singleton] at hq
    simp [hq]
  | goTo => simp
  | storeByte => simp
  | storeWord => simp

theorem Effect.keepsData {i : Instr} {s t : State} (h : Effect i s t) (hother : isStore i = false) :
    KeepsData s t := by
  intro k
  cases h with
  | result => simp
  | link => simp
  | goTo => simp
  | storeByte a b _ hs => cases hother.symm.trans hs
  | storeWord a v _ hs => cases hother.symm.trans hs

/-- A store writes the bytes of its access and no others. -/
theorem Effect.keepsData_outside {i : Instr} {s t : State} (h : Effect i s t) (hstore : isStore i = true) :
    ∃ size a, dataAccess s i = some (size, a) ∧
      ∀ k, (k < a.toNat ∨ a.toNat + size.bytes ≤ k) → t.dmem.read k = s.dmem.read k := by
  cases h with
  | result _ _ _ hs => cases hstore.symm.trans hs
  | link _ _ _ hs => cases hstore.symm.trans hs
  | goTo _ _ hs => cases hstore.symm.trans hs
  | storeByte a b _ _ _ hd =>
    refine ⟨.byte, a, hd, fun k hk => ?_⟩
    have hne : k ≠ a.toNat := by simp only [AccessSize.bytes] at hk; omega
    simp [hne]
  | storeWord a v _ _ _ hd =>
    refine ⟨.word, a, hd, fun k hk => ?_⟩
    have hne : k ≠ a.toNat ∧ k ≠ a.toNat + 1 := by simp only [AccessSize.bytes] at hk; omega
    simp [hne]

theorem Effect.pc_of_sequential {i : Instr} {s t : State} (h : Effect i s t) (hseq : isTransfer i = false) :
    t.pc = s.pc + BitVec.ofNat 16 i.length := by
  cases h with
  | result => simp
  | link _ _ _ _ ht => cases hseq.symm.trans ht
  | goTo target _ _ ht => exact ht hseq
  | storeByte => simp
  | storeWord => simp

/-- A sum of words is an offset modulo 2^16. -/
theorem isOffsetFrom_add_ofNat (pc : Word) (n : Nat) : IsOffsetFrom pc n (pc + BitVec.ofNat 16 n) := by
  simp only [IsOffsetFrom, BitVec.toNat_add, BitVec.toNat_ofNat]
  omega

/-- Settles O47. -/
theorem onlyNamedRegistersChange : Obligations.OnlyNamedRegistersChange :=
  fun _ _ _ h => (exec_effect h).keepsRegsBut

/-- Settles O48: no shape but the two stores touches data memory. -/
theorem onlyStoresChangeDataMemory : Obligations.OnlyStoresChangeDataMemory :=
  fun _ _ _ h => ⟨(exec_effect h).keepsData, (exec_effect h).keepsData_outside⟩

/-- Settles O50. -/
theorem sequentialInstructionsAdvanceByLength : Obligations.SequentialInstructionsAdvanceByLength := by
  intro i s t h hseq
  rw [(exec_effect h).pc_of_sequential hseq]
  exact isOffsetFrom_add_ofNat s.pc i.length

end Sys2Proof.Machine
end

section
/-! SUPPORT. Loads at an address where memory holds no value. -/

namespace Sys2Proof.Machine

/-- Bit 0 of a bit vector tells whether the number is odd. -/
theorem getLsbD_zero_iff {n : Nat} (x : BitVec n) : x.getLsbD 0 = true ↔ x.toNat % 2 = 1 := by
  simp [BitVec.getLsbD, Nat.testBit_zero]

theorem misaligned_word_of_even {a : Word} (h : a.toNat % 2 = 0) : misaligned .word a = false := by
  have hodd := (getLsbD_zero_iff a).not.mpr (by omega)
  simpa [misaligned] using hodd

theorem inDmem_iff {p : Params} {size : AccessSize} {a : Word} :
    inDmem p size a = true ↔ a.toNat + size.bytes ≤ p.dmemSize := decide_eq_true_iff

theorem loadByteInto_unset {s : State} {ea : Word} (rd : Reg) (ext : Byte → Word)
    (hin : ea.toNat < s.params.dmemSize) (hunset : s.dmem.read ea.toNat = none) :
    loadByteInto s rd ea ext = .fault (.unwrittenMemory ea) :=
  loadByteInto_fault.mpr (memReadByte_error.mpr (.inr ⟨inDmem_iff.mpr hin, hunset, rfl⟩))

/-- A word load stops at its lower byte if that is unset, whatever the other holds (log 16). -/
theorem loadWordInto_first_unset {s : State} {ea : Word} (rd : Reg) (len : Word) (heven : ea.toNat % 2 = 0)
    (hin : ea.toNat + 1 < s.params.dmemSize) (hunset : s.dmem.read ea.toNat = none) :
    loadWordInto s rd ea len = .fault (.unwrittenMemory ea) :=
  loadWordInto_fault.mpr (memReadWord_error.mpr
    (.inr (.inr ⟨misaligned_word_of_even heven, inDmem_iff.mpr hin, .inl ⟨hunset, rfl⟩⟩)))

theorem loadWordInto_second_unset {s : State} {ea : Word} (rd : Reg) (len : Word) (heven : ea.toNat % 2 = 0)
    (hin : ea.toNat + 1 < s.params.dmemSize) (hset : s.dmem.read ea.toNat ≠ none)
    (hunset : s.dmem.read (ea.toNat + 1) = none) :
    loadWordInto s rd ea len = .fault (.unwrittenMemory (ea + 1)) :=
  loadWordInto_fault.mpr (memReadWord_error.mpr
    (.inr (.inr ⟨misaligned_word_of_even heven, inDmem_iff.mpr hin, .inr ⟨hset, hunset, rfl⟩⟩)))

/-- Settles O30: LB and LBU are byte loads, LW and LWSP word loads, each at its own effective address. -/
theorem loadOfUnwrittenByteStops : Obligations.LoadOfUnwrittenByteStops := by
  intro s rd rs simm10 uimm7 ea
  refine ⟨?_, ?_, ?_⟩
  · rintro rfl hin hunset
    exact ⟨loadByteInto_unset rd sext16 hin hunset, loadByteInto_unset rd zext16 hin hunset⟩
  · rintro rfl heven hin
    exact ⟨loadWordInto_first_unset rd 3 heven hin, loadWordInto_second_unset rd 3 heven hin⟩
  · rintro rfl heven hin
    exact ⟨loadWordInto_first_unset rd 2 heven hin, loadWordInto_second_unset rd 2 heven hin⟩

end Sys2Proof.Machine
end

section
/-! SUPPORT. What a fetch answers, by the bytes at the pc: the converse of `fetch_ok` and `fetch_error`. -/

namespace Sys2Proof.Machine

theorem fetchable_of_le {p : Params} {a m n : Nat} (hm : 0 < m) (hmn : m ≤ n) (h : fetchable p a n = true) :
    fetchable p a m = true :=
  (fetchable_iff hm).mpr fun k hk => (fetchable_iff (by omega)).mp h k (by omega)

theorem two_le_lengthOfFirstByte (b0 : Byte) : 2 ≤ lengthOfFirstByte b0 := by
  unfold lengthOfFirstByte
  split <;> decide

theorem readByteOf_some {m : Memory} {a : Nat} {b : Byte} (h : m.read a = some b) : readByteOf m a = .ok b :=
  readByteOf_ok.mpr h

theorem readByteOf_unset {m : Memory} {a : Nat} (h : m.read a = none) :
    readByteOf m a = .error (.unwrittenMemory (BitVec.ofNat 16 a)) :=
  readByteOf_error.mpr ⟨h, rfl⟩

/-- A 16-bit word of two bytes that hold values. -/
theorem fetch_half {s : State} {b0 b1 : Byte} (hf : fetchable s.params s.pc.toNat 2 = true)
    (h0 : s.codeMem.read s.pc.toNat = some b0) (h1 : s.codeMem.read (s.pc.toNat + 1) = some b1)
    (hbit : b0.getLsbD 0 = false) : fetch s = .ok (halfOfBytes b0 b1) := by
  simp only [fetch, hf, readByteOf_some h0, readByteOf_some h1, hbit, Bool.not_true, Bool.false_eq_true, if_false]

/-- A 24-bit word of three bytes that hold values. -/
theorem fetch_full {s : State} {b0 b1 b2 : Byte} (hf : fetchable s.params s.pc.toNat 3 = true)
    (h0 : s.codeMem.read s.pc.toNat = some b0) (h1 : s.codeMem.read (s.pc.toNat + 1) = some b1)
    (h2 : s.codeMem.read (s.pc.toNat + 2) = some b2) (hbit : b0.getLsbD 0 = true) :
    fetch s = .ok (fullOfBytes b0 b1 b2) := by
  have hf2 := fetchable_of_le (m := 2) (by omega) (by omega) hf
  simp [fetch, hf, hf2, readByteOf_some h0, readByteOf_some h1, readByteOf_some h2, hbit]

theorem fetch_first_unset {s : State} (hf : fetchable s.params s.pc.toNat 2 = true)
    (h0 : s.codeMem.read s.pc.toNat = none) : fetch s = .error (.unwrittenMemory s.pc) := by
  simp [fetch, hf, readByteOf_unset h0]

/-- The second byte is read whatever the first says of the length, once all bytes are in range. -/
theorem fetch_second_unset {s : State} {b0 : Byte}
    (hf : fetchable s.params s.pc.toNat (lengthOfFirstByte b0) = true)
    (h0 : s.codeMem.read s.pc.toNat = some b0) (h1 : s.codeMem.read (s.pc.toNat + 1) = none) :
    fetch s = .error (.unwrittenMemory (s.pc + 1)) := by
  have hf2 := fetchable_of_le (m := 2) (by omega) (two_le_lengthOfFirstByte b0) hf
  cases hbit : b0.getLsbD 0 with
  | false =>
    simp only [fetch, hf2, readByteOf_some h0, readByteOf_unset h1, hbit, Bool.not_true, Bool.false_eq_true, if_false]
    simp [BitVec.ofNat_add]
  | true =>
    simp only [lengthOfFirstByte, hbit, if_true] at hf
    simp [fetch, hf2, hf, readByteOf_some h0, readByteOf_unset h1, hbit, BitVec.ofNat_add]

theorem fetch_third_unset {s : State} {b0 b1 : Byte} (hf : fetchable s.params s.pc.toNat 3 = true)
    (h0 : s.codeMem.read s.pc.toNat = some b0) (hbit : b0.getLsbD 0 = true)
    (h1 : s.codeMem.read (s.pc.toNat + 1) = some b1) (h2 : s.codeMem.read (s.pc.toNat + 2) = none) :
    fetch s = .error (.unwrittenMemory (s.pc + 2)) := by
  have hf2 := fetchable_of_le (m := 2) (by omega) (by omega) hf
  simp [fetch, hf, hf2, readByteOf_some h0, readByteOf_some h1, readByteOf_unset h2, hbit, BitVec.ofNat_add]

theorem fetchLength_unset {s : State} (h0 : s.codeMem.read s.pc.toNat = none) : fetchLength s = 2 := by
  simp only [fetchLength, h0]

theorem fetchLength_some {s : State} {b0 : Byte} (h0 : s.codeMem.read s.pc.toNat = some b0) :
    fetchLength s = lengthOfFirstByte b0 := by
  simp only [fetchLength, h0]

/-- The bytes at the pc may be fetched exactly where each lies in the range of a fetch. -/
theorem fetchable_fetchLength {s : State} :
    fetchable s.params s.pc.toNat (fetchLength s) = true ↔
      ∀ k < fetchLength s, FetchRange s.params (s.pc.toNat + k) := by
  refine fetchable_iff ?_
  cases h0 : s.codeMem.read s.pc.toNat with
  | none => rw [fetchLength_unset h0]; omega
  | some b0 => rw [fetchLength_some h0]; exact Nat.lt_of_lt_of_le (by omega) (two_le_lengthOfFirstByte b0)

/-- Settles O55: the step stops as its fetch does, at the lowest byte of the three that is unset. -/
theorem fetchOfUnsetByteStops : Obligations.FetchOfUnsetByteStops := by
  intro s hrange
  have hf := fetchable_fetchLength.mpr hrange
  refine ⟨fun h0 => ?_, fun h0 h1 => ?_, fun b0 h0 hodd h1 h2 => ?_⟩
  · rw [fetchLength_unset h0] at hf
    exact step_of_fetch_error (fetch_first_unset hf h0)
  · obtain ⟨b0, h0⟩ := Option.ne_none_iff_exists'.mp h0
    rw [fetchLength_some h0] at hf
    exact step_of_fetch_error (fetch_second_unset hf h0 h1)
  · obtain ⟨b1, h1⟩ := Option.ne_none_iff_exists'.mp h1
    have hbit := (getLsbD_zero_iff b0).mpr hodd
    rw [fetchLength_some h0, lengthOfFirstByte, if_pos hbit] at hf
    exact step_of_fetch_error (fetch_third_unset hf h0 hbit h1 h2)

end Sys2Proof.Machine
end

section
/-! SUPPORT. A word that decodes has the length that its bit 0 tells and that its instruction has; and such a word at
the pc is the word fetched. -/

namespace Sys2Proof

/-- Every 24-bit row's opcode is odd, and its instruction has three bytes (R72, R89): a row with a must-be-zero field, a
row without one, or no row. -/
theorem decodeRow24_some {d c b a : BitVec 4} {hi : BitVec 2} {op : BitVec 6} {i : Instr}
    (h : decodeRow24 d c b a hi op = some i) : op.getLsbD 0 = true ∧ i.length = 3 := by
  unfold decodeRow24 at h
  split at h
  case h_1 | h_2 | h_3 | h_4 | h_5 | h_6 | h_7 | h_8 | h_13 | h_14 | h_15 | h_16 =>
    obtain ⟨_, ⟨⟩⟩ := Option.ite_none_right_eq_some.mp h
    exact ⟨rfl, rfl⟩
  case h_27 => cases h
  all_goals
    cases h
    exact ⟨rfl, rfl⟩

/-- Every 16-bit row's opcode is even, and its instruction has two bytes (R72, R90): the three rows of opcode 0, a row
with a must-be-zero field, a row without one, or no row. -/
theorem decodeFields16_some {b a : BitVec 4} {hi : BitVec 2} {op : BitVec 6} {i : Instr}
    (h : decodeFields16 b a hi op = some i) : op.getLsbD 0 = false ∧ i.length = 2 := by
  unfold decodeFields16 at h
  split at h
  case h_1 =>
    split_ifs at h
    all_goals
      cases h
      exact ⟨rfl, rfl⟩
  case h_2 | h_3 | h_4 | h_5 | h_6 | h_7 | h_8 | h_13 | h_14 | h_15 | h_16 | h_17 =>
    obtain ⟨_, ⟨⟩⟩ := Option.ite_none_right_eq_some.mp h
    exact ⟨rfl, rfl⟩
  case h_24 => cases h
  all_goals
    cases h
    exact ⟨rfl, rfl⟩

/-- A free 8-bit opcode is odd (R91). -/
theorem odd_of_opcode8Free {o : BitVec 8} (h : opcode8Free o = true) :
    (o.extractLsb' 0 6).getLsbD 0 = true := by
  have hunused : ∀ op ∈ unusedOpcodes6, op.getLsbD 0 = true := by decide
  have hrows : ∀ op ∈ opcodes8Low6, op.getLsbD 0 = true := by decide
  simp only [opcode8Free, Bool.or_eq_true, Bool.and_eq_true, List.contains_iff_mem] at h
  obtain hmem | ⟨hmem, _⟩ := h
  · exact hunused _ hmem
  · exact hrows _ hmem

/-- The low six bits of an 8-bit opcode put together from its two fields. -/
theorem opcode8_low6 (hi : BitVec 2) (op : BitVec 6) : BitVec.extractLsb' (n := 8) 0 6 (hi ++ op) = op :=
  (slice_append_low hi op 0 6 (by omega)).trans (slice_all op)

/-- Under legal parameters a supplied open opcode is odd too, and SB, J and JAL have three bytes. -/
theorem decodeOpen24_some {p : Params} {d c b a : BitVec 4} {hi : BitVec 2} {op : BitVec 6} {i : Instr}
    (hwf : p.wf = true) (h : decodeOpen24 p d c b a hi op = some i) : op.getLsbD 0 = true ∧ i.length = 3 := by
  obtain ⟨hj, hjal, _⟩ := Laws.wf_openOpcodes hwf
  have hfree : p.openOpcodeWf (hi ++ op) = true → op.getLsbD 0 = true := fun ho =>
    opcode8_low6 hi op ▸ odd_of_opcode8Free (Laws.openOpcode_spec ho).1
  unfold decodeOpen24 at h
  split_ifs at h with hsb hjop hjalop
  · obtain ⟨o, _, rfl⟩ := Option.map_eq_some_iff.mp hsb
    cases h
    exact ⟨by cases o <;> rfl, rfl⟩
  · cases h
    exact ⟨hfree (hj _ hjop), rfl⟩
  · cases h
    exact ⟨hfree (hjal _ hjalop), rfl⟩

/-- Bit 0 of a word is bit 0 of its opcode field. -/
theorem getLsbD_zero_opcode {n : Nat} (w : BitVec n) : (w.extractLsb' 0 6).getLsbD 0 = w.getLsbD 0 := by
  rw [BitVec.getLsbD_extractLsb']
  simp

/-- Under legal parameters a word that decodes is one that a fetch can produce, and as long as its instruction. -/
theorem decodeWord_some {p : Params} {w : InstWord} {i : Instr} (hwf : p.wf = true)
    (h : decodeWord p w = some i) : w.lengthBitOk = true ∧ w.bytes.length = i.length := by
  cases w with
  | half w =>
    obtain ⟨hbit, hlen⟩ := decodeFields16_some h
    rw [getLsbD_zero_opcode] at hbit
    exact ⟨by simp only [InstWord.lengthBitOk, hbit, Bool.not_false], hlen.symm⟩
  | full w =>
    obtain ⟨hbit, hlen⟩ : (w.extractLsb' 0 6).getLsbD 0 = true ∧ i.length = 3 := by
      obtain hrow | ⟨_, hopen⟩ := Option.or_eq_some_iff.mp h
      · exact decodeRow24_some hrow
      · exact decodeOpen24_some hwf hopen
    rw [getLsbD_zero_opcode] at hbit
    exact ⟨hbit, hlen.symm⟩

/-- A 16-bit word is put together from its two bytes. -/
theorem halfOfBytes_split (w : BitVec 16) : halfOfBytes (w.extractLsb' 0 8) (w.extractLsb' 8 8) = .half w := by
  unfold halfOfBytes
  rw [slice_append_slice w 0 8 8 rfl 8]
  exact congrArg _ (slice_all w)

/-- A 24-bit word is put together from its three bytes. -/
theorem fullOfBytes_split (w : BitVec 24) :
    fullOfBytes (w.extractLsb' 0 8) (w.extractLsb' 8 8) (w.extractLsb' 16 8) = .full w := by
  unfold fullOfBytes
  rw [slice_append_slice w 8 8 16 rfl 8, slice_append_slice w 0 8 8 rfl 16]
  exact congrArg _ (slice_all w)

end Sys2Proof

namespace Sys2Proof.Machine

/-- A word whose bit 0 tells its length, its bytes at the pc, is the word fetched. -/
theorem fetch_of_holdsAtPc {s : State} {w : InstWord} (h : HoldsAtPc s w.bytes) (hbit : w.lengthBitOk = true) :
    fetch s = .ok w := by
  obtain ⟨hf, hbytes⟩ := h
  cases w with
  | half w =>
    have hbit0 : (w.extractLsb' 0 8).getLsbD 0 = false := by
      simpa [InstWord.lengthBitOk, BitVec.getLsbD_extractLsb'] using hbit
    rw [← halfOfBytes_split w]
    exact fetch_half hf (hbytes 0 _ rfl) (hbytes 1 _ rfl) hbit0
  | full w =>
    have hbit0 : (w.extractLsb' 0 8).getLsbD 0 = true := by
      simpa [InstWord.lengthBitOk, BitVec.getLsbD_extractLsb'] using hbit
    rw [← fullOfBytes_split w]
    exact fetch_full hf (hbytes 0 _ rfl) (hbytes 1 _ rfl) (hbytes 2 _ rfl) hbit0

/-- Settles O12: the bytes at the pc are fetched as the word they spell, and the step is what it decodes to. -/
theorem stepRunsDecodedInstruction : Obligations.StepRunsDecodedInstruction := by
  intro s w i hwf hdec hbytes
  obtain ⟨hbit, hlen⟩ := decodeWord_some hwf hdec
  exact ⟨step_of_decoded (fetch_of_holdsAtPc hbytes hbit) hdec, hlen⟩

end Sys2Proof.Machine
end

section
/-! SUPPORT. The memory invariant: what a store's checks say of each byte stored, and that launch, reset and every step
meet `State.Inv`. -/

namespace Sys2Proof.Machine

theorem even_of_aligned_word {a : Word} (h : misaligned .word a = false) : a.toNat % 2 = 0 := by
  have hodd := (getLsbD_zero_iff a).not.mp (by simpa [misaligned] using h)
  omega

/-- A store that passes its checks stores only bytes that exist: an aligned word does not wrap. -/
theorem lt_size_of_checkStore {p : Params} {size : AccessSize} {a : Word} (h : checkStore p size a = .ok ())
    {k : Nat} (hk : k < size.bytes) : a.toNat + k < min p.dmemSize 65536 := by
  obtain ⟨haligned, hin, _⟩ := checkStore_ok.mp h
  have hin := inDmem_iff.mp hin
  have ha := a.isLt
  cases size with
  | byte => simp only [AccessSize.bytes] at hk hin; omega
  | word =>
    have heven := even_of_aligned_word haligned
    simp only [AccessSize.bytes] at hk hin
    omega

theorem State.Inv.setPc {s : State} (h : s.Inv) (target : Word) : (s.setPc target).Inv := h

theorem State.Inv.setReg {s : State} (h : s.Inv) (r : Reg) (v : Word) : (s.setReg r v).Inv := h

/-- A byte put at an address that exists keeps the invariant. -/
theorem State.Inv.setDmem_write {s : State} (h : s.Inv) {a : Nat} (b : Byte)
    (ha : a < min s.params.dmemSize 65536) : (s.setDmem (s.dmem.write a b)).Inv := by
  obtain ⟨hwf, hin, himem⟩ := h
  exact ⟨Memory.wf_write _ a b hwf, Memory.within_write _ _ a b hin ha, himem⟩

/-- Each shape of a next state meets the invariant; a word store is two writes of a byte. -/
theorem Effect.inv {i : Instr} {s t : State} (h : Effect i s t) (hs : s.Inv) : t.Inv := by
  cases h with
  | result rd v => exact (hs.setReg rd v).setPc _
  | link v target => exact (hs.setReg Reg.ra v).setPc target
  | goTo target => exact hs.setPc target
  | storeByte a b _ _ _ _ hc =>
    exact (hs.setDmem_write b (lt_size_of_checkStore hc (k := 0) (by decide))).setPc _
  | storeWord a v _ _ _ _ hc =>
    have hlow := hs.setDmem_write (v.extractLsb' 0 8) (lt_size_of_checkStore hc (k := 0) (by decide))
    exact (hlow.setDmem_write (v.extractLsb' 8 8) (lt_size_of_checkStore hc (k := 1) (by decide))).setPc _

/-- Settles O3: a step that goes on is an instruction that does, in one of the five shapes. -/
theorem stepKeepsInv : Obligations.StepKeepsInv := by
  intro s t hs hstep
  obtain ⟨_, _, _, _, hexec⟩ := step_next.mp hstep
  exact (exec_effect hexec).inv hs

theorem sizes_le_of_wf {p : Params} (h : p.wf = true) : p.imemSize ≤ 65536 ∧ p.dmemSize ≤ 65536 := by
  simp only [Params.wf, Bool.and_eq_true, decide_eq_true_eq] at h
  obtain ⟨⟨⟨⟨⟨⟨_, himem⟩, _, hdmem⟩, _⟩, _⟩, _⟩, _⟩ := h
  exact ⟨himem, hdmem⟩

/-- A memory loaded from images, one over the other, is canonical and lists only bytes that exist. -/
theorem launch_inv {p : Params} (h : p.wf = true) (imemInit dmemInit : List Host.Cell) :
    (State.launch p imemInit dmemInit).Inv := by
  obtain ⟨himem, hdmem⟩ := sizes_le_of_wf h
  have hmin : min p.imemSize 65536 = p.imemSize ∧ min p.dmemSize 65536 = p.dmemSize := by omega
  simp only [State.Inv, State.launch, hmin]
  cases p.memOrg with
  | harvard =>
    exact ⟨Memory.wf_load _ _ _ rfl, Memory.within_load _ _ _ rfl, Memory.wf_load _ _ _ rfl,
      Memory.within_load _ _ _ rfl, fun hne => absurd rfl hne⟩
  | unified lo hi =>
    exact ⟨Memory.wf_load _ _ _ (Memory.wf_load _ _ _ rfl),
      Memory.within_load _ _ _ (Memory.within_load _ _ _ rfl), rfl, rfl, fun _ => rfl⟩

/-- Settles O2: reset is the launch of the defaults, which are legal, with empty images. -/
theorem launchAndResetMeetInv : Obligations.LaunchAndResetMeetInv :=
  ⟨fun _ imemInit dmemInit h => launch_inv h imemInit dmemInit, launch_inv (p := Params.default) (by decide) [] []⟩

end Sys2Proof.Machine
end

section
/-! SUPPORT. The program text is constant: no store that passes its checks touches a byte that fetch may read. -/

namespace Sys2Proof.Machine

/-- A store that passes its checks stores no byte of the code range (R41). -/
theorem not_inCodeRange_of_checkStore {p : Params} {size : AccessSize} {a : Word}
    (h : checkStore p size a = .ok ()) {k : Nat} (hk : k < size.bytes) : inCodeRange p (a.toNat + k) = false := by
  obtain ⟨_, _, hcode⟩ := checkStore_ok.mp h
  cases size with
  | byte =>
    obtain rfl : k = 0 := Nat.lt_one_iff.mp hk
    exact hcode
  | word =>
    obtain ⟨hlow, hhigh⟩ := Bool.or_eq_false_iff.mp hcode
    obtain rfl | rfl : k = 0 ∨ k = 1 := by simp only [AccessSize.bytes] at hk; omega
    · exact hlow
    · exact hhigh

theorem Effect.params_eq {i : Instr} {s t : State} (h : Effect i s t) : t.params = s.params := by
  cases h <;> rfl

theorem Effect.imem_eq {i : Instr} {s t : State} (h : Effect i s t) : t.imem = s.imem := by
  cases h <;> rfl

/-- No shape changes a data byte in the code range. -/
theorem Effect.keepsCodeRange {i : Instr} {s t : State} (h : Effect i s t) {k : Nat}
    (hk : inCodeRange s.params k = true) : t.dmem.read k = s.dmem.read k := by
  have hne : ∀ {n : Nat}, inCodeRange s.params n = false → k ≠ n := by
    rintro n hn rfl
    exact Bool.false_ne_true (hn.symm.trans hk)
  cases h with
  | result => simp
  | link => simp
  | goTo => simp
  | storeByte a b _ _ _ _ hc =>
    have h0 : k ≠ a.toNat := hne (not_inCodeRange_of_checkStore hc (k := 0) (by decide))
    simp [h0]
  | storeWord a v _ _ _ _ hc =>
    have h0 : k ≠ a.toNat := hne (not_inCodeRange_of_checkStore hc (k := 0) (by decide))
    have h1 : k ≠ a.toNat + 1 := hne (not_inCodeRange_of_checkStore hc (k := 1) (by decide))
    simp [h0, h1]

theorem codeMem_of_harvard {s : State} (h : s.params.memOrg = .harvard) : s.codeMem = s.imem := by
  simp only [State.codeMem, h]

theorem codeMem_of_unified {s : State} {lo hi : Word} (h : s.params.memOrg = .unified lo hi) :
    s.codeMem = s.dmem := by
  simp only [State.codeMem, h]

theorem inCodeRange_of_fetchable {p : Params} {lo hi : Word} (h : p.memOrg = .unified lo hi) {a : Nat}
    (hf : fetchable p a 1 = true) : inCodeRange p a = true := by
  simp only [fetchable, h, Bool.and_eq_true, decide_eq_true_eq] at hf
  simp only [inCodeRange, h, decide_eq_true_eq]
  omega

/-- A byte that fetch may read is as before: `IMem` is never written, and no store enters the code range. -/
theorem Effect.keepsFetchable {i : Instr} {s t : State} (h : Effect i s t) {a : Nat}
    (ha : fetchable s.params a 1 = true) : t.codeMem.read a = s.codeMem.read a := by
  cases horg : s.params.memOrg with
  | harvard => rw [codeMem_of_harvard horg, codeMem_of_harvard (h.params_eq ▸ horg), h.imem_eq]
  | unified lo hi =>
    rw [codeMem_of_unified horg, codeMem_of_unified (h.params_eq ▸ horg)]
    exact h.keepsCodeRange (inCodeRange_of_fetchable horg ha)

/-- Settles O4: every next state has a shape that keeps the parameters, `IMem` and each byte that fetch may read. -/
theorem stepKeepsProgram : Obligations.StepKeepsProgram := by
  intro s t hstep
  obtain ⟨_, _, _, _, hexec⟩ := step_next.mp hstep
  have heffect := exec_effect hexec
  exact ⟨heffect.params_eq, fun a => by rw [heffect.imem_eq], fun _ ha => heffect.keepsFetchable ha⟩

end Sys2Proof.Machine
end

section
/-! SUPPORT. Every well-formed instruction has a word, and the decoder reads a word's bytes from the front of any
stream. -/

namespace Sys2Proof

namespace Laws

/-- The family `DecodeEncode` as one rule: one line for each constructor. -/
theorem decodeEncode : ∀ i : Instr, DecodeEncode.Statement i
  | .add rd rs1 rs2 => DecodeEncode.add rd rs1 rs2
  | .sub rd rs1 rs2 => DecodeEncode.sub rd rs1 rs2
  | .and rd rs1 rs2 => DecodeEncode.and rd rs1 rs2
  | .xor rd rs1 rs2 => DecodeEncode.xor rd rs1 rs2
  | .or rd rs1 rs2 => DecodeEncode.or rd rs1 rs2
  | .lsl rd rs1 rs2 => DecodeEncode.lsl rd rs1 rs2
  | .lsr rd rs1 rs2 => DecodeEncode.lsr rd rs1 rs2
  | .asr rd rs1 rs2 => DecodeEncode.asr rd rs1 rs2
  | .addi rd rs1 simm10 => DecodeEncode.addi rd rs1 simm10
  | .andi rd rs1 simm10 => DecodeEncode.andi rd rs1 simm10
  | .xori rd rs1 simm10 => DecodeEncode.xori rd rs1 simm10
  | .ori rd rs1 simm10 => DecodeEncode.ori rd rs1 simm10
  | .li rd simm10 => DecodeEncode.li rd simm10
  | .lsli rd rs1 uimm4 => DecodeEncode.lsli rd rs1 uimm4
  | .lsri rd rs1 uimm4 => DecodeEncode.lsri rd rs1 uimm4
  | .asri rd rs1 uimm4 => DecodeEncode.asri rd rs1 uimm4
  | .beq rs1 rs2 simm10 => DecodeEncode.beq rs1 rs2 simm10
  | .bne rs1 rs2 simm10 => DecodeEncode.bne rs1 rs2 simm10
  | .blt rs1 rs2 simm10 => DecodeEncode.blt rs1 rs2 simm10
  | .bltu rs1 rs2 simm10 => DecodeEncode.bltu rs1 rs2 simm10
  | .ble rs1 rs2 simm10 => DecodeEncode.ble rs1 rs2 simm10
  | .bleu rs1 rs2 simm10 => DecodeEncode.bleu rs1 rs2 simm10
  | .j simm16 => DecodeEncode.j simm16
  | .jal simm16 => DecodeEncode.jal simm16
  | .lw rd simm10 rs => DecodeEncode.lw rd simm10 rs
  | .lb rd simm10 rs => DecodeEncode.lb rd simm10 rs
  | .lbu rd simm10 rs => DecodeEncode.lbu rd simm10 rs
  | .sw rs simm10 rd => DecodeEncode.sw rs simm10 rd
  | .sb rs simm10 rd => DecodeEncode.sb rs simm10 rd
  | .mov rd rs => DecodeEncode.mov rd rs
  | .add2 rd rs => DecodeEncode.add2 rd rs
  | .sub2 rd rs => DecodeEncode.sub2 rd rs
  | .and2 rd rs => DecodeEncode.and2 rd rs
  | .xor2 rd rs => DecodeEncode.xor2 rd rs
  | .or2 rd rs => DecodeEncode.or2 rd rs
  | .lsl2 rd rs => DecodeEncode.lsl2 rd rs
  | .lsr2 rd rs => DecodeEncode.lsr2 rd rs
  | .asr2 rd rs => DecodeEncode.asr2 rd rs
  | .addi2 rd simm6 => DecodeEncode.addi2 rd simm6
  | .andi2 rd simm6 => DecodeEncode.andi2 rd simm6
  | .lsi rd simm6 => DecodeEncode.lsi rd simm6
  | .lui rd simm6 => DecodeEncode.lui rd simm6
  | .lsli2 rd uimm4 => DecodeEncode.lsli2 rd uimm4
  | .lsri2 rd uimm4 => DecodeEncode.lsri2 rd uimm4
  | .asri2 rd uimm4 => DecodeEncode.asri2 rd uimm4
  | .jalr rs => DecodeEncode.jalr rs
  | .jr rs => DecodeEncode.jr rs
  | .js simm11 => DecodeEncode.js simm11
  | .jsal simm11 => DecodeEncode.jsal simm11
  | .lwsp rd uimm7 => DecodeEncode.lwsp rd uimm7
  | .swsp rs uimm7 => DecodeEncode.swsp rs uimm7
  | .nop => DecodeEncode.nop

end Laws

/-- Only SB, J and JAL without an opcode and an odd `uimm7` have no word, and those `Instr.wf` leaves out (R97). -/
theorem encode_of_wf {p : Params} {i : Instr} (h : i.wf p = true) : ∃ w, encode p i = some w := by
  cases i
  case j | jal | sb =>
    obtain ⟨o, ho⟩ := Option.isSome_iff_exists.mp h
    exact ⟨_, congrArg (Option.map _) ho⟩
  case lwsp | swsp =>
    exact ⟨_, if_neg (by simpa [Instr.wf] using h)⟩
  all_goals exact ⟨_, rfl⟩

/-- Bit 0 of a word's first byte is bit 0 of the word. -/
theorem getLsbD_zero_firstByte {n : Nat} (w : BitVec n) : (w.extractLsb' 0 8).getLsbD 0 = w.getLsbD 0 := by
  rw [BitVec.getLsbD_extractLsb']
  simp

/-- The bytes of a word whose bit 0 tells its length are read as that word, and nothing after them is (R72). -/
theorem decodeBytes_bytes {p : Params} {w : InstWord} {i : Instr} (hbit : w.lengthBitOk = true)
    (hdec : decodeWord p w = some i) (rest : List Byte) : decodeBytes p (w.bytes ++ rest) = .ok (i, rest) := by
  cases w with
  | half w =>
    have h0 : w.getLsbD 0 = false := by simpa [InstWord.lengthBitOk] using hbit
    simp only [InstWord.bytes, List.cons_append, List.nil_append, decodeBytes, getLsbD_zero_firstByte, h0,
      Bool.false_eq_true, if_false, halfOfBytes_split, hdec]
  | full w =>
    have h0 : w.getLsbD 0 = true := hbit
    simp only [InstWord.bytes, List.cons_append, List.nil_append, decodeBytes, getLsbD_zero_firstByte, h0,
      if_true, fullOfBytes_split, hdec]

/-- Settles O5: the word of the instruction decodes to it, so its bit 0 tells its length and its bytes are read
as that word. -/
theorem decodeOfEncodeInAnyStream : Obligations.DecodeOfEncodeInAnyStream := by
  intro p i rest hp hi
  obtain ⟨w, henc⟩ := encode_of_wf hi
  have hdec := Laws.decodeEncode i p w hp henc
  obtain ⟨hbit, hlen⟩ := decodeWord_some hp hdec
  exact ⟨w.bytes, congrArg (Option.map InstWord.bytes) henc, hlen, decodeBytes_bytes hbit hdec rest⟩

end Sys2Proof
end

section
/-! SUPPORT. What a fetch answers, said exactly: its word by the bytes at the pc, and where it is out of range; and so a
step, since no instruction stops with `FetchOutOfRange`. -/

namespace Sys2Proof.Machine

/-! ## The word fetched -/

theorem bytes_halfOfBytes (b0 b1 : Byte) : (halfOfBytes b0 b1).bytes = [b0, b1] := by
  have h0 : BitVec.extractLsb' (n := 8 + 8) 0 8 (b1 ++ b0) = b0 :=
    (slice_append_low b1 b0 0 8 (by omega)).trans (slice_all b0)
  have h1 : BitVec.extractLsb' (n := 8 + 8) 8 8 (b1 ++ b0) = b1 :=
    (slice_append_high b1 b0 8 8 (by omega)).trans (slice_all b1)
  exact congrArg₂ (fun x y => [x, y]) h0 h1

theorem bytes_fullOfBytes (b0 b1 b2 : Byte) : (fullOfBytes b0 b1 b2).bytes = [b0, b1, b2] := by
  have h0 : BitVec.extractLsb' (n := 8 + 8 + 8) 0 8 (b2 ++ b1 ++ b0) = b0 :=
    (slice_append_low (b2 ++ b1) b0 0 8 (by omega)).trans (slice_all b0)
  have h1 : BitVec.extractLsb' (n := 8 + 8 + 8) 8 8 (b2 ++ b1 ++ b0) = b1 := by
    rw [slice_append_high _ _ _ _ (by omega), slice_append_low _ _ _ _ (by omega)]
    exact slice_all b1
  have h2 : BitVec.extractLsb' (n := 8 + 8 + 8) 16 8 (b2 ++ b1 ++ b0) = b2 := by
    iterate 2 rw [slice_append_high _ _ _ _ (by omega)]
    exact slice_all b2
  simp only [fullOfBytes, InstWord.bytes, h0, h1, h2]

theorem lengthBitOk_halfOfBytes (b0 b1 : Byte) : (halfOfBytes b0 b1).lengthBitOk = !b0.getLsbD 0 :=
  congrArg (!·) ((BitVec.getLsbD_append ..).trans (if_pos (by decide)))

theorem lengthBitOk_fullOfBytes (b0 b1 b2 : Byte) : (fullOfBytes b0 b1 b2).lengthBitOk = b0.getLsbD 0 :=
  (BitVec.getLsbD_append ..).trans (if_pos (by decide))

/-- The word fetched has its bytes at the pc, and its bit 0 is the first byte's, which told its length. -/
theorem holdsAtPc_of_fetch {s : State} {w : InstWord} (h : fetch s = .ok w) :
    HoldsAtPc s w.bytes ∧ w.lengthBitOk = true := by
  obtain ⟨b0, b1, h0, h1, hf2, ⟨hbit, rfl⟩ | ⟨hbit, hf3, b2, h2, rfl⟩⟩ := fetch_ok h
  · rw [bytes_halfOfBytes, lengthBitOk_halfOfBytes, hbit]
    refine ⟨⟨hf2, fun k b hk => ?_⟩, rfl⟩
    match k, hk with
    | 0, rfl => exact h0
    | 1, rfl => exact h1
  · rw [bytes_fullOfBytes, lengthBitOk_fullOfBytes, hbit]
    refine ⟨⟨hf3, fun k b hk => ?_⟩, rfl⟩
    match k, hk with
    | 0, rfl => exact h0
    | 1, rfl => exact h1
    | 2, rfl => exact h2

/-- Settles O10: the bytes of the word fetched are those read, and the other way round. -/
theorem fetchReadsBytesAtPc : Obligations.FetchReadsBytesAtPc :=
  fun _ _ => ⟨holdsAtPc_of_fetch, fun ⟨hbytes, hbit⟩ => fetch_of_holdsAtPc hbytes hbit⟩

/-! ## A fetch out of range -/

theorem lengthOfFirstByte_even {b0 : Byte} (h : b0.getLsbD 0 = false) : lengthOfFirstByte b0 = 2 :=
  if_neg (Bool.eq_false_iff.mp h)

theorem lengthOfFirstByte_odd {b0 : Byte} (h : b0.getLsbD 0 = true) : lengthOfFirstByte b0 = 3 := if_pos h

/-- Two bytes are checked before the first is read, a third once the first says 24 bits. -/
theorem fetch_of_not_fetchable {s : State} (h : fetchable s.params s.pc.toNat (fetchLength s) = false) :
    fetch s = .error (.fetchOutOfRange s.pc) := by
  cases hf2 : fetchable s.params s.pc.toNat 2 with
  | false => simp [fetch, hf2]
  | true =>
    cases h0 : s.codeMem.read s.pc.toNat with
    | none => rw [fetchLength_unset h0, hf2] at h; cases h
    | some b0 =>
      rw [fetchLength_some h0] at h
      cases hbit : b0.getLsbD 0 with
      | false => rw [lengthOfFirstByte_even hbit, hf2] at h; cases h
      | true =>
        rw [lengthOfFirstByte_odd hbit] at h
        simp [fetch, hf2, readByteOf_some h0, hbit, h]

/-- With every byte in range, a fetch answers the word or stops at a byte that is unset. -/
theorem fetch_ne_fetchOutOfRange {s : State} (h : fetchable s.params s.pc.toNat (fetchLength s) = true)
    (a : Word) : fetch s ≠ .error (.fetchOutOfRange a) := by
  cases h0 : s.codeMem.read s.pc.toNat with
  | none =>
    rw [fetchLength_unset h0] at h
    simp [fetch_first_unset h h0]
  | some b0 =>
    rw [fetchLength_some h0] at h
    cases h1 : s.codeMem.read (s.pc.toNat + 1) with
    | none => simp [fetch_second_unset h h0 h1]
    | some b1 =>
      cases hbit : b0.getLsbD 0 with
      | false =>
        rw [lengthOfFirstByte_even hbit] at h
        simp [fetch_half h h0 h1 hbit]
      | true =>
        rw [lengthOfFirstByte_odd hbit] at h
        cases h2 : s.codeMem.read (s.pc.toNat + 2) with
        | none => simp [fetch_third_unset h h0 hbit h1 h2]
        | some b2 => simp [fetch_full h h0 h1 h2 hbit]

/-- A fetch is out of range exactly where a byte that it reads is, and it names the pc. -/
theorem fetch_fetchOutOfRange_iff {s : State} {a : Word} :
    fetch s = .error (.fetchOutOfRange a) ↔
      a = s.pc ∧ fetchable s.params s.pc.toNat (fetchLength s) = false := by
  cases h : fetchable s.params s.pc.toNat (fetchLength s) with
  | false => simp [fetch_of_not_fetchable h, eq_comm]
  | true => simp [fetch_ne_fetchOutOfRange h]

/-- No instruction's meaning stops as a fetch does. -/
theorem exec_ne_fetchOutOfRange (i : Instr) (s : State) (a : Word) : exec i s ≠ .fault (.fetchOutOfRange a) := by
  intro h
  cases i
  case lsl | lsr | asr => cases (shift24_fault.mp h).2
  case lsl2 | lsr2 | asr2 => cases (shift16_fault.mp h).2
  case lw | lwsp => simpa using memReadWord_error.mp (loadWordInto_fault.mp h)
  case lb | lbu => simpa using memReadByte_error.mp (loadByteInto_fault.mp h)
  case sw | swsp => simpa using checkStore_error.mp (storeWordAt_fault.mp h)
  case sb => simpa using checkStore_error.mp (storeByteAt_fault.mp h)
  all_goals cases h

/-- A step stops with `FetchOutOfRange` exactly as its fetch does. -/
theorem step_fetchOutOfRange_iff {s : State} {a : Word} :
    step s = .fault (.fetchOutOfRange a) ↔
      a = s.pc ∧ fetchable s.params s.pc.toNat (fetchLength s) = false := by
  rw [← fetch_fetchOutOfRange_iff]
  cases stepShape s with
  | fetchStop f hfetch => simp [step_of_fetch_error hfetch, hfetch]
  | reserved w hfetch hdec => simp [step_of_reserved hfetch hdec, hfetch]
  | written w i hfetch hdec => simp [step_of_decoded hfetch hdec, hfetch, exec_ne_fetchOutOfRange]
  | unwritten w i r hfetch hdec => simp [step_of_decoded hfetch hdec, hfetch, exec_ne_fetchOutOfRange]

/-- A step from `s` stops with `FetchOutOfRange` of some address exactly where the fetch reads a byte out of range. -/
theorem exists_step_fetchOutOfRange {s : State} :
    (∃ a, step s = .fault (.fetchOutOfRange a)) ↔
      ¬ ∀ k < fetchLength s, FetchRange s.params (s.pc.toNat + k) := by
  rw [← fetchable_fetchLength, Bool.not_eq_true]
  simp [step_fetchOutOfRange_iff]

/-! ## Where R56 and R41 say -/

/-- The bytes at the pc are out of range exactly where the first two are, or the first is there, odd, and the three
are. -/
theorem not_fetchable_fetchLength {s : State} :
    fetchable s.params s.pc.toNat (fetchLength s) = false ↔
      fetchable s.params s.pc.toNat 2 = false ∨
        ∃ b0, s.codeMem.read s.pc.toNat = some b0 ∧ b0.toNat % 2 = 1 ∧
          fetchable s.params s.pc.toNat 3 = false := by
  have hmono : fetchable s.params s.pc.toNat 2 = false → fetchable s.params s.pc.toNat 3 = false := fun h2 =>
    Bool.eq_false_iff.mpr fun h3 => Bool.eq_false_iff.mp h2 (fetchable_of_le (by omega) (by omega) h3)
  cases h0 : s.codeMem.read s.pc.toNat with
  | none => simp [fetchLength_unset h0]
  | some b0 =>
    have hodd := getLsbD_zero_iff b0
    rw [fetchLength_some h0]
    cases hbit : b0.getLsbD 0 with
    | false =>
      have hne : ¬ b0.toNat % 2 = 1 := hodd.not.mp (Bool.eq_false_iff.mp hbit)
      simp [lengthOfFirstByte_even hbit, hne]
    | true => simpa [lengthOfFirstByte_odd hbit, hodd.mp hbit] using hmono

theorem not_fetchable_harvard {p : Params} (h : p.memOrg = .harvard) {a n : Nat} :
    fetchable p a (n + 1) = false ↔ min p.imemSize 65536 ≤ a + n := by
  rw [Bool.eq_false_iff]
  simp only [fetchable, h, ne_eq, Bool.and_eq_true, decide_eq_true_eq]
  omega

/-- Under `unified` no bound of 2^16 is needed: `CODE_HI` is an address. -/
theorem not_fetchable_unified {p : Params} {lo hi : Word} (h : p.memOrg = .unified lo hi) {a n : Nat} :
    fetchable p a (n + 1) = false ↔ a < lo.toNat ∨ hi.toNat < a + n ∨ p.dmemSize ≤ a + n := by
  have hhi := hi.isLt
  rw [Bool.eq_false_iff]
  simp only [fetchable, h, ne_eq, Bool.and_eq_true, decide_eq_true_eq]
  omega

/-- Settles O11: out of range is what `fetchable` excludes under each organisation. -/
theorem fetchOutOfRangeExactly : Obligations.FetchOutOfRangeExactly := by
  refine ⟨fun s horg => ?_, fun s lo hi horg => ?_, fun s a h => (step_fetchOutOfRange_iff.mp h).1⟩
  · rw [step_fetchOutOfRange_iff, not_fetchable_fetchLength, not_fetchable_harvard horg, not_fetchable_harvard horg,
      codeMem_of_harvard horg]
    simp
  · rw [step_fetchOutOfRange_iff, not_fetchable_fetchLength, not_fetchable_unified horg, not_fetchable_unified horg,
      codeMem_of_unified horg]
    by_cases hlo : s.pc.toNat < lo.toNat <;> simp [hlo, or_assoc]

/-! ## A run that stays in range -/

/-- A run that stops reaches the state whose step stops. -/
theorem exists_step_of_run_fault {n : Nat} {s : State} {f : Fault} (h : Host.Core.run core n s = .fault f) :
    ∃ (m : Nat) (t : State), Host.Core.run core m s = .next t ∧ step t = .fault f := by
  induction n with
  | zero => cases h
  | succ n ih =>
    obtain hearlier | ⟨t, ht, hstep⟩ := steps_fault.mp h
    · exact ih hearlier
    · exact ⟨n, t, ht, hstep⟩

/-- Settles O56: a run stops with `FetchOutOfRange` just at a state it reaches whose fetch reads a byte out of range. -/
theorem programInRangeExcludesFetchOutOfRange : Obligations.ProgramInRangeExcludesFetchOutOfRange := by
  intro s
  constructor
  · intro hrange n a hstop
    obtain ⟨m, t, ht, hstep⟩ := exists_step_of_run_fault hstop
    exact exists_step_fetchOutOfRange.mp ⟨a, hstep⟩ (hrange m t ht)
  · intro hnever n t ht
    by_contra hout
    obtain ⟨a, hstep⟩ := exists_step_fetchOutOfRange.mpr hout
    exact hnever (n + 1) a (steps_fault.mpr (.inr ⟨t, ht, hstep⟩))

end Sys2Proof.Machine
end

section
/-! SUPPORT. Effective addresses as integer sums, and what loads read after a word store. -/

namespace Sys2Proof.Machine

/-! ## Effective addresses -/

/-- A sum with a signed number is an offset modulo 2^16. -/
theorem isOffsetFrom_add_ofInt (base : Word) (k : Int) : IsOffsetFrom base k (base + BitVec.ofInt 16 k) := by
  simp only [IsOffsetFrom, BitVec.toNat_add, BitVec.toNat_ofInt]
  omega

theorem sext16_eq_ofInt {n : Nat} (v : BitVec n) : sext16 v = BitVec.ofInt 16 v.toInt := rfl

theorem zext16_eq_ofNat {n : Nat} (v : BitVec n) : zext16 v = BitVec.ofNat 16 v.toNat :=
  BitVec.eq_of_toNat_eq (by simp [zext16])

/-- Settles O25: a sign-extended displacement is its signed value, a zero-extended one its unsigned value. -/
theorem effectiveAddressesWrap : Obligations.EffectiveAddressesWrap := by
  refine ⟨fun base simm10 => ?_, fun sp uimm7 => ?_⟩
  · rw [effectiveAddress, sext16_eq_ofInt]
    exact isOffsetFrom_add_ofInt base simm10.toInt
  · rw [spAddress, zext16_eq_ofNat]
    exact isOffsetFrom_add_ofNat sp uimm7.toNat

/-! ## The bytes of a word -/

theorem toNat_lowByte (v : Word) : (v.extractLsb' 0 8).toNat = v.toNat % 256 := by
  simp

theorem toNat_highByte (v : Word) : (v.extractLsb' 8 8).toNat = v.toNat / 256 := by
  have hv := v.isLt
  simp [Nat.shiftRight_eq_div_pow]
  omega

/-- A word is put together from its two bytes. -/
theorem highByte_append_lowByte (v : Word) : v.extractLsb' 8 8 ++ v.extractLsb' 0 8 = v :=
  InstWord.half.inj (halfOfBytes_split v)

theorem toNat_zext16_byte (b : Byte) : (zext16 b).toNat = b.toNat :=
  BitVec.toNat_setWidth_of_le (by decide)

theorem toInt_sext16_byte (b : Byte) : (sext16 b).toInt = b.toInt :=
  BitVec.toInt_signExtend_of_le (by decide)

/-! ## Loads of bytes that hold values -/

theorem lw_setsReg {s : State} (rd rs : Reg) (d : BitVec 10) {v : Word}
    (h : memReadWord s (effectiveAddress (s.reg rs) d) = .ok v) {post : Word → Prop} (hpost : post v) :
    SetsReg (.lw rd d rs) s rd 3 post :=
  setsReg_of_writeback (loadWordInto_next.mpr ⟨v, h, rfl⟩) hpost

theorem lbu_setsReg {s : State} (rd rs : Reg) (d : BitVec 10) {b : Byte}
    (h : memReadByte s (effectiveAddress (s.reg rs) d) = .ok b) {n : Nat} (hn : b.toNat = n) :
    SetsReg (.lbu rd d rs) s rd 3 (fun v => v.toNat = n) :=
  setsReg_of_writeback (loadByteInto_next.mpr ⟨b, h, rfl⟩) ((toNat_zext16_byte b).trans hn)

/-- LB's value is the byte's unsigned one brought into the signed range. -/
theorem lb_setsReg {s : State} (rd rs : Reg) (d : BitVec 10) {b : Byte}
    (h : memReadByte s (effectiveAddress (s.reg rs) d) = .ok b) :
    SetsReg (.lb rd d rs) s rd 3 (fun v => v.toInt = Int.bmod b.toNat 256) :=
  setsReg_of_writeback (loadByteInto_next.mpr ⟨b, h, rfl⟩)
    ((toInt_sext16_byte b).trans (BitVec.toInt_eq_toNat_bmod b))

/-! ## Reads after a word store -/

/-- After a word store its two bytes stand in memory and its address passes the checks of a load. -/
theorem reads_after_storeWordAt {s t : State} {ea v len : Word} (h : storeWordAt s ea v len = .next t) :
    memReadWord t ea = .ok v ∧ memReadByte t ea = .ok (v.extractLsb' 0 8) ∧
      memReadByte t (ea + 1) = .ok (v.extractLsb' 8 8) := by
  obtain ⟨u, hu, rfl⟩ := storeWordAt_next.mp h
  obtain ⟨haligned, hin, _, rfl⟩ := memWriteWord_ok.mp hu
  have heven := even_of_aligned_word haligned
  have hnext : (ea + 1).toNat = ea.toNat + 1 := by bv_omega
  have hsize := inDmem_iff.mp hin
  simp only [AccessSize.bytes] at hsize
  refine ⟨memReadWord_ok.mpr ⟨haligned, hin, v.extractLsb' 0 8, v.extractLsb' 8 8, ?_, ?_, ?_⟩,
    memReadByte_ok.mpr ⟨inDmem_iff.mpr ?_, ?_⟩, memReadByte_ok.mpr ⟨inDmem_iff.mpr ?_, ?_⟩⟩
  · simp
  · simp
  · exact (highByte_append_lowByte v).symm
  · simp only [setPc_params, setDmem_params, AccessSize.bytes]; omega
  · simp
  · simp only [setPc_params, setDmem_params, AccessSize.bytes, hnext]; omega
  · rw [setPc_dmem, setDmem_dmem, hnext, Memory.read_write, if_pos rfl]

/-- Settles O31: each load reads the bytes that the store put there. -/
theorem storedWordReadsBack : Obligations.StoredWordReadsBack := by
  intro s t rs rd q r simm10 d h
  obtain ⟨hword, hlow, hhigh⟩ := reads_after_storeWordAt h
  refine ⟨fun hea => ?_, fun hea => ?_⟩
  · rw [← hea] at hword hlow
    have hlb := lb_setsReg q r d hlow
    rw [toNat_lowByte, Int.natCast_mod, Int.emod_bmod] at hlb
    exact ⟨lw_setsReg q r d hword rfl, lbu_setsReg q r d hlow (toNat_lowByte _), hlb⟩
  · rw [← hea] at hhigh
    have hlb := lb_setsReg q r d hhigh
    rw [toNat_highByte] at hlb
    exact ⟨lbu_setsReg q r d hhigh (toNat_highByte _), hlb⟩

end Sys2Proof.Machine
end

section
/-! SUPPORT. An instruction outside R52's table on two states that differ in data memory only. -/

namespace Sys2Proof.Machine

/-- An outcome with data memory replaced in the next state. -/
def replaceDmem (m : Memory) : Res → Res
  | .next t => .next (t.setDmem m)
  | .fault f => .fault f
  | .refused r => .refused r

theorem shift24_setDmem (s : State) (m : Memory) (rd : Reg) (a d : Word) (op : Word → Nat → Word) :
    shift24 (s.setDmem m) rd a d op = replaceDmem m (shift24 s rd a d op) := by
  simp only [shift24, setDmem_params]
  cases shamt s.params.shiftAmount d <;> rfl

theorem shift16_setDmem (s : State) (m : Memory) (rd : Reg) (a d : Word) (op : Word → Nat → Word) :
    shift16 (s.setDmem m) rd a d op = replaceDmem m (shift16 s rd a d op) := by
  simp only [shift16, setDmem_params]
  cases shamt s.params.shiftAmount d <;> rfl

/-- What is no load and no store carries data memory along: only the register shifts have more than one outcome. -/
theorem exec_setDmem {i : Instr} (s : State) (m : Memory) (hload : isLoad i = false) (hstore : isStore i = false) :
    exec i (s.setDmem m) = replaceDmem m (exec i s) := by
  cases i
  case lw | lb | lbu | lwsp => cases hload
  case sw | sb | swsp => cases hstore
  case lsl | lsr | asr => exact shift24_setDmem s m _ _ _ _
  case lsl2 | lsr2 | asr2 => exact shift16_setDmem s m _ _ _ _
  all_goals rfl

/-- Settles O49: neither outcome depends on data memory, which a next state carries along. -/
theorem otherInstructionsIgnoreDataMemory : Obligations.OtherInstructionsIgnoreDataMemory := by
  intro i s m hload hstore
  rw [exec_setDmem s m hload hstore]
  exact ⟨fun _ h => congrArg (replaceDmem m) h, fun _ h => congrArg (replaceDmem m) h⟩

end Sys2Proof.Machine
end

section
/-! SUPPORT. A word as its fields: which word a decoded instruction is encoded in, and which words the opcode table's
masks and matches let decode. -/

namespace Sys2Proof

/-! ## The word of fields and the fields of a word -/

/-- A 24-bit word is put together from its fields. -/
theorem word24_fields (w : BitVec 24) :
    word24 (w.extractLsb' 20 4) (w.extractLsb' 16 4) (w.extractLsb' 12 4) (w.extractLsb' 8 4) (w.extractLsb' 6 2)
      (w.extractLsb' 0 6) = .full w := by
  unfold word24
  rw [slice_append_slice w 16 4 20 rfl 4, slice_append_slice w 12 4 16 rfl 8, slice_append_slice w 8 4 12 rfl 12,
    slice_append_slice w 6 2 8 rfl 16, slice_append_slice w 0 6 6 rfl 18]
  exact congrArg _ (slice_all w)

/-- A 16-bit word is put together from its fields. -/
theorem word16_fields (w : BitVec 16) :
    word16 (w.extractLsb' 12 4) (w.extractLsb' 8 4) (w.extractLsb' 6 2) (w.extractLsb' 0 6) = .half w := by
  unfold word16
  rw [slice_append_slice w 8 4 12 rfl 4, slice_append_slice w 6 2 8 rfl 8, slice_append_slice w 0 6 6 rfl 10]
  exact congrArg _ (slice_all w)

/-- A 24-bit word agrees with `mtch` on `mask` exactly where each of its fields does. -/
theorem and_eq_iff_fields24 (w mask mtch : BitVec 24) :
    w &&& mask = mtch ↔
      w.extractLsb' 20 4 &&& mask.extractLsb' 20 4 = mtch.extractLsb' 20 4 ∧
      w.extractLsb' 16 4 &&& mask.extractLsb' 16 4 = mtch.extractLsb' 16 4 ∧
      w.extractLsb' 12 4 &&& mask.extractLsb' 12 4 = mtch.extractLsb' 12 4 ∧
      w.extractLsb' 8 4 &&& mask.extractLsb' 8 4 = mtch.extractLsb' 8 4 ∧
      w.extractLsb' 6 2 &&& mask.extractLsb' 6 2 = mtch.extractLsb' 6 2 ∧
      w.extractLsb' 0 6 &&& mask.extractLsb' 0 6 = mtch.extractLsb' 0 6 := by
  simp only [← BitVec.extractLsb'_and]
  refine ⟨fun h => by simp only [h, and_self], fun ⟨hd, hc, hb, ha, hhi, hop⟩ => InstWord.full.inj ?_⟩
  rw [← word24_fields (w &&& mask), ← word24_fields mtch, hd, hc, hb, ha, hhi, hop]

/-- A 16-bit word agrees with `mtch` on `mask` exactly where each of its fields does. -/
theorem and_eq_iff_fields16 (w mask mtch : BitVec 16) :
    w &&& mask = mtch ↔
      w.extractLsb' 12 4 &&& mask.extractLsb' 12 4 = mtch.extractLsb' 12 4 ∧
      w.extractLsb' 8 4 &&& mask.extractLsb' 8 4 = mtch.extractLsb' 8 4 ∧
      w.extractLsb' 6 2 &&& mask.extractLsb' 6 2 = mtch.extractLsb' 6 2 ∧
      w.extractLsb' 0 6 &&& mask.extractLsb' 0 6 = mtch.extractLsb' 0 6 := by
  simp only [← BitVec.extractLsb'_and]
  refine ⟨fun h => by simp only [h, and_self], fun ⟨hb, ha, hhi, hop⟩ => InstWord.half.inj ?_⟩
  rw [← word16_fields (w &&& mask), ← word16_fields mtch, hb, ha, hhi, hop]

/-! ## Decode and the encoder's formats -/

theorem encodeImm24_simm10Of (op : BitVec 6) (f15 f11 : BitVec 4) (hi : BitVec 2) (d c : BitVec 4) :
    encodeImm24 op f15 f11 (simm10Of hi d c) = word24 d c f15 f11 hi op := by
  have h8 : (simm10Of hi d c).extractLsb' 8 2 = hi := by
    unfold simm10Of
    iterate 2 rw [slice_append_high _ _ _ _ (by omega)]
    exact slice_all hi
  have h4 : (simm10Of hi d c).extractLsb' 4 4 = d := by
    unfold simm10Of
    rw [slice_append_high _ _ _ _ (by omega), slice_append_low _ _ _ _ (by omega)]
    exact slice_all d
  have h0 : (simm10Of hi d c).extractLsb' 0 4 = c := by
    unfold simm10Of
    rw [slice_append_low _ _ _ _ (by omega)]
    exact slice_all c
  rw [encodeImm24, h8, h4, h0]

theorem encodeI16_simm6Of (op : BitVec 6) (rd : Reg) (hi : BitVec 2) (b : BitVec 4) :
    encodeI16 op rd (simm6Of hi b) = word16 b (regBits rd) hi op := by
  have h4 : (simm6Of hi b).extractLsb' 4 2 = hi := (slice_append_high hi b 4 2 (by omega)).trans (slice_all hi)
  have h0 : (simm6Of hi b).extractLsb' 0 4 = b := (slice_append_low hi b 0 4 (by omega)).trans (slice_all b)
  rw [encodeI16, h4, h0]

theorem encodeSP16_uimm7Of (op : BitVec 6) (r : Reg) (hi : BitVec 2) (b : BitVec 4) :
    encodeSP16 op r (uimm7Of hi b) = word16 b (regBits r) hi op := by
  have h5 : (uimm7Of hi b).extractLsb' 5 2 = hi := by
    unfold uimm7Of
    iterate 2 rw [slice_append_high _ _ _ _ (by omega)]
    exact slice_all hi
  have h1 : (uimm7Of hi b).extractLsb' 1 4 = b := by
    unfold uimm7Of
    rw [slice_append_high _ _ _ _ (by omega), slice_append_low _ _ _ _ (by omega)]
    exact slice_all b
  rw [encodeSP16, h5, h1]

/-- The zero at the end of a `uimm7` (R85). -/
theorem uimm7Of_even (hi : BitVec 2) (b : BitVec 4) : (uimm7Of hi b).getLsbD 0 = false :=
  (BitVec.getLsbD_append ..).trans (if_pos (by decide))

theorem encodeJS16_simm11Of (op5 : BitVec 5) (b a : BitVec 4) (hi : BitVec 2) (top : BitVec 1) :
    encodeJS16 op5 (simm11Of b a hi top) = word16 b a hi (top ++ op5) := by
  have h7 : (simm11Of b a hi top).extractLsb' 7 4 = b := by
    unfold simm11Of
    iterate 3 rw [slice_append_high _ _ _ _ (by omega)]
    exact slice_all b
  have h3 : (simm11Of b a hi top).extractLsb' 3 4 = a := by
    unfold simm11Of
    iterate 2 rw [slice_append_high _ _ _ _ (by omega)]
    rw [slice_append_low _ _ _ _ (by omega)]
    exact slice_all a
  have h1 : (simm11Of b a hi top).extractLsb' 1 2 = hi := by
    unfold simm11Of
    rw [slice_append_high _ _ _ _ (by omega), slice_append_low _ _ _ _ (by omega)]
    exact slice_all hi
  have h0 : (simm11Of b a hi top).extractLsb' 0 1 = top :=
    (slice_append_low (b ++ a ++ hi) top 0 1 (by omega)).trans (slice_all top)
  rw [encodeJS16, h7, h3, h1, h0]

/-- An 8-bit opcode's upper two bits, put together from its two fields. -/
theorem opcode8_high2 (hi : BitVec 2) (op : BitVec 6) : BitVec.extractLsb' (n := 8) 6 2 (hi ++ op) = hi :=
  (slice_append_high hi op 6 2 (by omega)).trans (slice_all hi)

theorem encodeJ24_fields (d c b a : BitVec 4) (hi : BitVec 2) (op : BitVec 6) :
    encodeJ24 (hi ++ op) (d ++ c ++ b ++ a) = word24 d c b a hi op := by
  have h12 : BitVec.extractLsb' (n := 4 + 4 + 4 + 4) 12 4 (d ++ c ++ b ++ a) = d := by
    iterate 3 rw [slice_append_high _ _ _ _ (by omega)]
    exact slice_all d
  have h8 : BitVec.extractLsb' (n := 4 + 4 + 4 + 4) 8 4 (d ++ c ++ b ++ a) = c := by
    iterate 2 rw [slice_append_high _ _ _ _ (by omega)]
    rw [slice_append_low _ _ _ _ (by omega)]
    exact slice_all c
  have h4 : BitVec.extractLsb' (n := 4 + 4 + 4 + 4) 4 4 (d ++ c ++ b ++ a) = b := by
    rw [slice_append_high _ _ _ _ (by omega), slice_append_low _ _ _ _ (by omega)]
    exact slice_all b
  have h0 : BitVec.extractLsb' (n := 4 + 4 + 4 + 4) 0 4 (d ++ c ++ b ++ a) = a :=
    (slice_append_low (d ++ c ++ b) a 0 4 (by omega)).trans (slice_all a)
  simp only [encodeJ24, opcode8_high2, opcode8_low6, h12, h8, h4, h0]

/-! ## A word that decodes is the word of its instruction -/

/-- The instruction is well-formed and `w` is its word. -/
def IsWordOf (p : Params) (w : InstWord) (i : Instr) : Prop := i.wf p = true ∧ encode p i = some w

/-- What a table row decodes has the fields' own word: a format that prints zeros gives zeros, and a `simm10` is split
into the fields that it came from. -/
theorem isWordOf_of_decodeRow24 {p : Params} {d c b a : BitVec 4} {hi : BitVec 2} {op : BitVec 6} {i : Instr}
    (h : decodeRow24 d c b a hi op = some i) : IsWordOf p (word24 d c b a hi op) i := by
  unfold decodeRow24 at h
  split at h
  case h_1 | h_2 | h_3 | h_4 | h_5 | h_6 | h_7 | h_8 | h_14 | h_15 | h_16 => -- R24, S24
    obtain ⟨⟨rfl, rfl⟩, ⟨⟩⟩ := Option.ite_none_right_eq_some.mp h
    exact ⟨rfl, rfl⟩
  case h_13 => -- LI
    obtain ⟨rfl, ⟨⟩⟩ := Option.ite_none_right_eq_some.mp h
    exact ⟨rfl, congrArg some (encodeImm24_simm10Of ..)⟩
  case h_27 => cases h
  all_goals -- the other formats with a `simm10`
    cases h
    exact ⟨rfl, congrArg some (encodeImm24_simm10Of ..)⟩

/-- So has what a supplied opcode decodes. -/
theorem isWordOf_of_decodeOpen24 {p : Params} {d c b a : BitVec 4} {hi : BitVec 2} {op : BitVec 6} {i : Instr}
    (h : decodeOpen24 p d c b a hi op = some i) : IsWordOf p (word24 d c b a hi op) i := by
  unfold decodeOpen24 at h
  split_ifs at h with hsb hj hjal
  · cases h
    obtain ⟨o, ho, rfl⟩ := Option.map_eq_some_iff.mp hsb
    exact ⟨by simp [Instr.wf, ho], by simp [encode, ho, encodeImm24_simm10Of]⟩
  · cases h
    exact ⟨by simp [Instr.wf, hj], by simp [encode, hj, encodeJ24_fields]⟩
  · cases h
    exact ⟨by simp [Instr.wf, hjal], by simp [encode, hjal, encodeJ24_fields]⟩

/-- What a 16-bit row decodes has the fields' own word. -/
theorem isWordOf_of_decodeFields16 {p : Params} {b a : BitVec 4} {hi : BitVec 2} {op : BitVec 6} {i : Instr}
    (h : decodeFields16 b a hi op = some i) : IsWordOf p (word16 b a hi op) i := by
  unfold decodeFields16 at h
  split at h
  case h_1 => -- MOV, ADD2, NOP
    split_ifs at h with hmov hadd2 hnop
    · cases h
      exact ⟨rfl, hmov ▸ rfl⟩
    · cases h
      exact ⟨rfl, hadd2 ▸ rfl⟩
    · obtain ⟨rfl, rfl, rfl⟩ := hnop
      cases h
      exact ⟨rfl, rfl⟩
  case h_2 | h_3 | h_4 | h_5 | h_6 | h_7 | h_8 | h_13 | h_14 | h_15 => -- R16, S16
    obtain ⟨rfl, ⟨⟩⟩ := Option.ite_none_right_eq_some.mp h
    exact ⟨rfl, rfl⟩
  case h_16 | h_17 => -- JR16
    obtain ⟨⟨rfl, rfl⟩, ⟨⟩⟩ := Option.ite_none_right_eq_some.mp h
    exact ⟨rfl, rfl⟩
  case h_9 | h_10 | h_11 | h_12 => -- I16
    cases h
    exact ⟨rfl, congrArg some (encodeI16_simm6Of ..)⟩
  case h_18 | h_19 | h_20 | h_21 => -- JS16
    cases h
    exact ⟨rfl, congrArg some (encodeJS16_simm11Of ..)⟩
  case h_22 | h_23 => -- SP16
    cases h
    exact ⟨congrArg (!·) (uimm7Of_even ..),
      (if_neg (Bool.eq_false_iff.mp (uimm7Of_even ..))).trans (congrArg some (encodeSP16_uimm7Of ..))⟩
  case h_24 => cases h

/-- Settles O6: the fields of a word that decodes are those that its instruction is encoded with. -/
theorem encodeOfDecodeIsTheWord : Obligations.EncodeOfDecodeIsTheWord := by
  intro p w i h
  cases w with
  | half w =>
    rw [← word16_fields w]
    exact isWordOf_of_decodeFields16 h
  | full w =>
    rw [← word24_fields w]
    obtain hrow | ⟨_, hopen⟩ := Option.or_eq_some_iff.mp h
    · exact isWordOf_of_decodeRow24 hrow
    · exact isWordOf_of_decodeOpen24 hopen

/-! ## Decode and the opcode table -/

theorem and_ones2 (x : BitVec 2) : x &&& 3#2 = x := BitVec.and_allOnes

theorem and_ones4 (x : BitVec 4) : x &&& 15#4 = x := BitVec.and_allOnes

theorem and_ones6 (x : BitVec 6) : x &&& 63#6 = x := BitVec.and_allOnes

/-- The five bits of JS and JSAL leave bit 5 of the word to the offset (R84). -/
theorem and_ones5_iff (op : BitVec 6) :
    (op &&& 31#6 = 14#6 ↔ op = 14#6 ∨ op = 46#6) ∧ (op &&& 31#6 = 30#6 ↔ op = 30#6 ∨ op = 62#6) := by
  revert op; decide

/-- The fields of a word that a 24-bit row matches, format by format in the table's order: R24; I24; LI; S24; then B24,
L24 and M24 (R73 to R78, R89). Fields that a format prints as zeros are zero. -/
def RowFields24 (d b : BitVec 4) (hi : BitVec 2) (op : BitVec 6) : Prop :=
  (d = 0 ∧ hi = 0 ∧ op ∈
    [0b000001#6, 0b001001#6, 0b010001#6, 0b011001#6, 0b100001#6, 0b101001#6, 0b110001#6, 0b111001#6]) ∨
  op ∈ [0b000011#6, 0b010011#6, 0b011011#6, 0b100011#6] ∨
  (b = 0 ∧ op = 0b110101#6) ∨
  (d = 0 ∧ hi = 0 ∧ op ∈ [0b101011#6, 0b110011#6, 0b111011#6]) ∨
  op ∈ [0b001111#6, 0b101111#6, 0b110111#6, 0b010111#6, 0b111111#6, 0b011111#6,
    0b010101#6, 0b100101#6, 0b000101#6, 0b001101#6]

/-- Each mask covers the opcode and the fields printed as zeros, and no other field. -/
theorem matchesRow_full_iff (w : BitVec 24) :
    Machine.MatchesRow (.full w) ↔
      RowFields24 (w.extractLsb' 20 4) (w.extractLsb' 12 4) (w.extractLsb' 6 2) (w.extractLsb' 0 6) := by
  simp [Machine.MatchesRow, RowFields24, and_eq_iff_fields24, rows24, or_and_right, exists_or, and_ones2, and_ones4,
    and_ones6, and_or_left, or_assoc]

/-- Each arm asks for the zeros of its format, and an opcode without an arm is in no format's list. -/
theorem decodeRow24_iff (d c b a : BitVec 4) (hi : BitVec 2) (op : BitVec 6) :
    (∃ i, decodeRow24 d c b a hi op = some i) ↔ RowFields24 d b hi op := by
  unfold decodeRow24 RowFields24
  split
  case h_27 => simp_all
  all_goals simp [and_comm]

/-- The fields of a word that a 16-bit row matches, format by format in the table's order: MOV, then the rest of R16;
I16; S16; JR16; JS16; SP16; NOP (R80 to R86, R90). -/
def RowFields16 (b a : BitVec 4) (hi : BitVec 2) (op : BitVec 6) : Prop :=
  (hi = 0b11 ∧ op = 0b000000#6) ∨
  (hi = 0b10 ∧ op ∈
    [0b000000#6, 0b001000#6, 0b010000#6, 0b011000#6, 0b100000#6, 0b101000#6, 0b110000#6, 0b111000#6]) ∨
  op ∈ [0b000010#6, 0b010010#6, 0b110100#6, 0b000100#6] ∨
  (hi = 0 ∧ op ∈ [0b101010#6, 0b110010#6, 0b111010#6]) ∨
  (b = 0 ∧ hi = 0 ∧ op ∈ [0b010110#6, 0b000110#6]) ∨
  op ∈ [0b001110#6, 0b101110#6, 0b011110#6, 0b111110#6] ∨
  op ∈ [0b010100#6, 0b011100#6] ∨
  (b = 0 ∧ a = 0 ∧ hi = 0 ∧ op = 0b000000#6)

/-- The same of the 16-bit masks, but that JS and JSAL have two opcodes of six bits each. -/
theorem matchesRow_half_iff (w : BitVec 16) :
    Machine.MatchesRow (.half w) ↔
      RowFields16 (w.extractLsb' 12 4) (w.extractLsb' 8 4) (w.extractLsb' 6 2) (w.extractLsb' 0 6) := by
  simp [Machine.MatchesRow, RowFields16, and_eq_iff_fields16, rows16, or_and_right, exists_or, and_ones2, and_ones4,
    and_ones6, and_ones5_iff, and_or_left, or_assoc]

/-- The arm of opcode 0 is three rows apart by bits 7:6: MOV, ADD2, NOP. -/
theorem decodeFields16_iff (b a : BitVec 4) (hi : BitVec 2) (op : BitVec 6) :
    (∃ i, decodeFields16 b a hi op = some i) ↔ RowFields16 b a hi op := by
  unfold decodeFields16 RowFields16
  split
  case h_1 => split_ifs <;> simp_all
  case h_24 => simp_all
  all_goals simp [and_comm]

theorem decodeOpen24_of_noOpenOpcodes {p : Params} (hp : Machine.NoOpenOpcodes p) (d c b a : BitVec 4) (hi : BitVec 2)
    (op : BitVec 6) : decodeOpen24 p d c b a hi op = none := by
  obtain ⟨hsb, hj, hjal⟩ := hp
  simp [decodeOpen24, hsb, hj, hjal]

/-- Settles O7: decode and the table's masks and matches ask the same of a word's fields. -/
theorem decodeAgreesWithOpcodeTable : Obligations.DecodeAgreesWithOpcodeTable := by
  intro p w hp
  cases w with
  | half w =>
    rw [matchesRow_half_iff]
    exact decodeFields16_iff ..
  | full w =>
    rw [matchesRow_full_iff, ← decodeRow24_iff _ (w.extractLsb' 16 4) _ (w.extractLsb' 8 4)]
    simp only [decodeWord, decode24, decodeFields24, decodeOpen24_of_noOpenOpcodes hp, Option.or_none]

/-- Rows that match one word agree where both masks cover it. -/
theorem match_eq_of_common_word {n : Nat} {w mask mtch mask' mtch' : BitVec n} (h : w &&& mask = mtch)
    (h' : w &&& mask' = mtch') : mtch &&& (mask &&& mask') = mtch' &&& (mask &&& mask') := by
  subst h h'
  calc w &&& mask &&& (mask &&& mask')
      = w &&& (mask &&& mask') := by rw [BitVec.and_assoc, ← BitVec.and_assoc mask, BitVec.and_self]
    _ = w &&& mask' &&& (mask &&& mask') := by
      rw [BitVec.and_comm mask, BitVec.and_assoc w, ← BitVec.and_assoc mask', BitVec.and_self]

/-- Settles O8: each pair of rows differs in a bit that both masks cover, so that no word matches both. -/
theorem opcodeRowsNeverOverlap : Obligations.OpcodeRowsNeverOverlap := by
  have h24 : rows24.Pairwise fun r q => r.2 &&& (r.1 &&& q.1) ≠ q.2 &&& (r.1 &&& q.1) := by decide
  have h16 : rows16.Pairwise fun r q => r.2 &&& (r.1 &&& q.1) ≠ q.2 &&& (r.1 &&& q.1) := by decide
  exact ⟨rfl, rfl, h24.imp fun hne => ⟨hne, fun _ ⟨hr, hq⟩ => hne (match_eq_of_common_word hr hq)⟩,
    h16.imp fun hne => ⟨hne, fun _ ⟨hr, hq⟩ => hne (match_eq_of_common_word hr hq)⟩⟩

end Sys2Proof

namespace Sys2Proof.Machine

/-- Settles O13: such a word is fetched as it is, and decodes to nothing. -/
theorem stepRefusesReservedWords : Obligations.StepRefusesReservedWords := by
  intro s w hp hbytes hbit hrow
  have hdec : decodeWord s.params w = none :=
    Option.eq_none_iff_forall_ne_some.mpr fun i hi =>
      hrow ((decodeAgreesWithOpcodeTable s.params w hp).mp ⟨i, hi⟩)
  exact step_of_reserved (fetch_of_holdsAtPc hbytes hbit) hdec

end Sys2Proof.Machine
end

section
/-! SUPPORT. How an instruction's meaning, and a step, can end other than by going on. -/

namespace Sys2Proof.Machine

/-- The stop of a meaning is one that R203's table lists for the instruction. -/
theorem mayRaise_of_exec_fault {i : Instr} {s : State} {f : Fault} (h : exec i s = .fault f) :
    mayRaise i f = true := by
  cases i
  case lsl | lsr | asr =>
    obtain ⟨_, rfl⟩ := shift24_fault.mp h
    rfl
  case lsl2 | lsr2 | asr2 =>
    obtain ⟨_, rfl⟩ := shift16_fault.mp h
    rfl
  case lw | lwsp =>
    obtain ⟨_, rfl⟩ | ⟨_, _, rfl⟩ | ⟨_, _, ⟨_, rfl⟩ | ⟨_, _, rfl⟩⟩ :=
      memReadWord_error.mp (loadWordInto_fault.mp h) <;> rfl
  case lb | lbu =>
    obtain ⟨_, rfl⟩ | ⟨_, _, rfl⟩ := memReadByte_error.mp (loadByteInto_fault.mp h) <;> rfl
  case sw | swsp =>
    obtain ⟨_, rfl⟩ | ⟨_, _, rfl⟩ | ⟨_, _, _, rfl⟩ := checkStore_error.mp (storeWordAt_fault.mp h) <;> rfl
  case sb =>
    obtain ⟨hmis, _⟩ | ⟨_, _, rfl⟩ | ⟨_, _, _, rfl⟩ := checkStore_error.mp (storeByteAt_fault.mp h)
    · cases hmis
    · rfl
    · rfl
  all_goals cases h

/-- A step is refused only where the word fetched decodes to nothing. -/
theorem step_refused {s : State} {r : Refusal} :
    step s = .refused r ↔
      ∃ w, fetch s = .ok w ∧ decodeWord s.params w = none ∧ r = .reservedInstruction s.pc w := by
  cases stepShape s with
  | fetchStop f hfetch => simp [step_of_fetch_error hfetch, hfetch]
  | reserved w hfetch hdec => simp [step_of_reserved hfetch hdec, hfetch, hdec, eq_comm]
  | written w i hfetch hdec => simp [step_of_decoded hfetch hdec, hfetch, hdec, exec_not_refused]
  | unwritten w i r hfetch hdec => simp [step_of_decoded hfetch hdec, hfetch, hdec, exec_not_refused]

/-- A meaning goes on, or meets a stop of the table. -/
theorem exec_next_or_mayRaise (i : Instr) (s : State) :
    (∃ t, exec i s = .next t) ∨ ∃ f, exec i s = .fault f ∧ mayRaise i f = true := by
  cases h : exec i s with
  | next t => exact .inl ⟨t, rfl⟩
  | fault f => exact .inr ⟨f, rfl, mayRaise_of_exec_fault h⟩
  | refused r => exact absurd h (exec_not_refused i s r)

/-- Settles O45: no meaning refuses, so a step is refused by its decode only. -/
theorem execNeverRefuses : Obligations.ExecNeverRefuses :=
  ⟨exec_next_or_mayRaise, exec_not_refused, fun _ _ => step_refused.mp⟩

end Sys2Proof.Machine
end

section
/-! SUPPORT. Pairs of instructions: the 16-bit twins of 24-bit instructions, and LUI with ADDI. -/

namespace Sys2Proof.Machine

/-! ## Twins -/

/-- A `simm6` widened to a `simm10` is the same word. -/
theorem sext16_signExtend (simm6 : BitVec 6) : sext16 (simm6.signExtend 10) = sext16 simm6 := by
  rw [sext16_eq_ofInt, sext16_eq_ofInt, BitVec.toInt_signExtend_of_le (by decide)]

/-- A zero-extended `uimm7` is not negative as a `simm10`. -/
theorem effectiveAddress_setWidth (sp : Word) (uimm7 : BitVec 7) :
    effectiveAddress sp (uimm7.setWidth 10) = spAddress sp uimm7 := by
  have hval : (uimm7.setWidth 10).toNat = uimm7.toNat := BitVec.toNat_setWidth_of_le (by decide)
  have hpos : (uimm7.setWidth 10).toInt = uimm7.toNat :=
    (BitVec.toInt_eq_toNat_of_lt (by omega)).trans (congrArg _ hval)
  rw [effectiveAddress, spAddress, sext16_eq_ofInt, zext16_eq_ofNat, hpos, BitVec.ofInt_natCast]

/-- A pc three bytes on is one byte further than two. -/
theorem setPc_add_three (s : State) (pc : Word) :
    s.setPc (pc + 3) = (s.setPc (pc + 2)).setPc ((s.setPc (pc + 2)).pc + 1) := by
  rw [setPc_pc, BitVec.add_assoc]
  rfl

theorem sameButLength_next (s : State) (rd : Reg) {v v' : Word} (hv : v' = v) :
    SameButLength (next16 s rd v) (next24 s rd v') :=
  hv ▸ setPc_add_three (s.setReg rd v) s.pc

theorem sameButLength_shift (s : State) (rd : Reg) (a d : Word) (op : Word → Nat → Word) :
    SameButLength (shift16 s rd a d op) (shift24 s rd a d op) := by
  unfold shift16 shift24
  cases shamt s.params.shiftAmount d with
  | none => exact rfl
  | some n => exact sameButLength_next s rd rfl

theorem sameButLength_loadWordInto (s : State) (rd : Reg) {ea ea' : Word} (hea : ea' = ea) :
    SameButLength (loadWordInto s rd ea 2) (loadWordInto s rd ea' 3) := by
  unfold loadWordInto
  rw [hea]
  cases memReadWord s ea with
  | error f => exact rfl
  | ok v => exact sameButLength_next s rd rfl

theorem sameButLength_storeWordAt (s : State) (v : Word) {ea ea' : Word} (hea : ea' = ea) :
    SameButLength (storeWordAt s ea v 2) (storeWordAt s ea' v 3) := by
  unfold storeWordAt
  rw [hea]
  cases memWriteWord s ea v with
  | error f => exact rfl
  | ok t => exact setPc_add_three t s.pc

/-- Settles O37: twins are one shared operation on the same operands, given different lengths. -/
theorem sixteenBitTwinsAgree : Obligations.SixteenBitTwinsAgree := by
  intro s i j h
  cases i
  case add2 | sub2 | and2 | xor2 | or2 | lsli2 | lsri2 | asri2 =>
    cases h
    exact sameButLength_next s _ rfl
  case addi2 | andi2 | lsi =>
    cases h
    exact sameButLength_next s _ (by rw [sext16_signExtend])
  case lsl2 | lsr2 | asr2 =>
    cases h
    exact sameButLength_shift s _ _ _ _
  case lwsp =>
    cases h
    exact sameButLength_loadWordInto s _ (effectiveAddress_setWidth _ _)
  case swsp =>
    cases h
    exact sameButLength_storeWordAt s _ (effectiveAddress_setWidth _ _)
  all_goals cases h

/-! ## Constants -/

/-- LUI's six bits are those that its shift leaves in the word. -/
theorem upperImmediate_setWidth (x : Word) : upperImmediate (x.setWidth 6) = x <<< 10 := by
  apply BitVec.eq_of_getLsbD_eq
  intro k hk
  by_cases h : k < 10
  · simp [upperImmediate, h]
  · have h6 : k - 10 < 6 := by omega
    have h16 : k - 10 < 16 := by omega
    simp [upperImmediate, sext16, BitVec.getElem_signExtend, h6, h16]

theorem shiftLeft_ushiftRight_of_mod (x : Word) (h : x.toNat % 1024 = 0) : (x >>> 10) <<< 10 = x := by
  apply BitVec.eq_of_toNat_eq
  simp [Nat.shiftLeft_eq, Nat.shiftRight_eq_div_pow]
  omega

/-- Sign extension leaves the field's bits as they are. -/
theorem toNat_sext16_mod (v : BitVec 10) : (sext16 v).toNat % 1024 = v.toNat := by
  rw [sext16, BitVec.toNat_signExtend, BitVec.toNat_setWidth]
  split <;> omega

/-- R98's two parts add up to the constant: without its signed low ten bits it is a multiple of 1024. -/
theorem lui_addi_eq (K : Word) :
    upperImmediate (((K - sext16 (K.extractLsb' 0 10)) >>> 10).setWidth 6) + sext16 (K.extractLsb' 0 10) = K := by
  have hlow := toNat_sext16_mod (K.extractLsb' 0 10)
  have hmod : (K - sext16 (K.extractLsb' 0 10)).toNat % 1024 = 0 := by
    simp only [BitVec.extractLsb'_toNat, Nat.shiftRight_zero] at hlow
    bv_omega
  rw [upperImmediate_setWidth, shiftLeft_ushiftRight_of_mod _ hmod, BitVec.sub_add_cancel]

/-- Settles O38: ADDI adds back the signed low ten bits that `h` was made without. -/
theorem luiAddiBuildAnyConstant : Obligations.LuiAddiBuildAnyConstant := by
  intro s rd K
  refine ⟨_, _, rfl, rfl, ?_, ?_⟩
  · simpa [sext16] using lui_addi_eq K
  · simp [BitVec.add_assoc]

end Sys2Proof.Machine
end

section
/-! SUPPORT. The words of a 24-bit row: each mask of the opcode table fixes the opcode and the fields that the row's
format prints as zeros, so that a word it matches decodes by the row, whatever its other fields. -/

namespace Sys2Proof.Machine

/-- A row of the table is read before any open opcode (R99). -/
theorem decodeWord_full_of_row {p : Params} {w : BitVec 24} {i : Instr}
    (h : decodeRow24 (w.extractLsb' 20 4) (w.extractLsb' 16 4) (w.extractLsb' 12 4) (w.extractLsb' 8 4)
      (w.extractLsb' 6 2) (w.extractLsb' 0 6) = some i) : decodeWord p (.full w) = some i := by
  simp only [decodeWord, decode24, decodeFields24, h, Option.some_or]

/-- `simm10` is the same from three fields as from two (R87). -/
theorem simm10Of_fields (w : BitVec 24) :
    simm10Of (w.extractLsb' 6 2) (w.extractLsb' 20 4) (w.extractLsb' 16 4) = simm10At w := by
  rw [simm10At, ← slice_append_slice w 16 4 20 rfl 4]
  exact BitVec.append_assoc

/-- The formats without a `simm10`, R24 and S24: bits 23:20 and 7:6 are zero. -/
theorem spells24_zeros {mtch : BitVec 24} {g : Reg → Reg → BitVec 4 → Instr}
    (hrow : ∀ c b a, decodeRow24 (mtch.extractLsb' 20 4) c b a (mtch.extractLsb' 6 2) (mtch.extractLsb' 0 6) =
      some (g (regOf a) (regOf b) c)) :
    Spells24 0xF000FF mtch (fun w => g (regAt w 8) (regAt w 12) (w.extractLsb' 16 4)) := by
  intro p w hw
  obtain ⟨hd, -, -, -, hhi, hop⟩ := (and_eq_iff_fields24 w _ mtch).mp hw
  apply decodeWord_full_of_row
  rw [(and_ones4 _).symm.trans hd, (and_ones2 _).symm.trans hhi, (and_ones6 _).symm.trans hop]
  exact hrow ..

/-- R24: the field at 19:16 names a register too. -/
theorem spells24_r24 {mtch : BitVec 24} {g : Reg → Reg → Reg → Instr}
    (hrow : ∀ c b a, decodeRow24 (mtch.extractLsb' 20 4) c b a (mtch.extractLsb' 6 2) (mtch.extractLsb' 0 6) =
      some (g (regOf a) (regOf b) (regOf c))) :
    Spells24 0xF000FF mtch (fun w => g (regAt w 8) (regAt w 12) (regAt w 16)) :=
  spells24_zeros (g := fun rd rs1 c => g rd rs1 (regOf c)) hrow

/-- The formats with a `simm10` and two registers, I24, B24, L24 and M24: the opcode alone is fixed. -/
theorem spells24_simm10 {mtch : BitVec 24} {g : Reg → Reg → BitVec 10 → Instr}
    (hrow : ∀ d c b a hi, decodeRow24 d c b a hi (mtch.extractLsb' 0 6) =
      some (g (regOf a) (regOf b) (simm10Of hi d c))) :
    Spells24 0x00003F mtch (fun w => g (regAt w 8) (regAt w 12) (simm10At w)) := by
  intro p w hw
  obtain ⟨-, -, -, -, -, hop⟩ := (and_eq_iff_fields24 w _ mtch).mp hw
  apply decodeWord_full_of_row
  rw [(and_ones6 _).symm.trans hop, hrow, simm10Of_fields]
  rfl

/-- LI's format, with a `simm10` and one register: bits 15:12 are zero. -/
theorem spells24_li : Spells24 0x00F03F 0x000035 (fun w => .li (regAt w 8) (simm10At w)) := by
  intro p w hw
  obtain ⟨-, -, hb, -, -, hop⟩ := (and_eq_iff_fields24 w _ _).mp hw
  apply decodeWord_full_of_row
  rw [(and_ones4 _).symm.trans hb, (and_ones6 _).symm.trans hop]
  exact congrArg (fun simm10 => some (Instr.li (regAt w 8) simm10)) (simm10Of_fields w)

/-- Settles O9: of each word the fields written out; the rows come before any open opcode, so that the parameters do
not matter. -/
theorem sampleWordsDecode : Obligations.SampleWordsDecode :=
  fun _ => ⟨decodeWord_full_of_row rfl, decodeWord_full_of_row rfl, decodeWord_full_of_row rfl,
    decodeWord_full_of_row rfl, rfl, rfl, rfl, rfl, rfl⟩

end Sys2Proof.Machine
end

section
/-! SUPPORT. The 24-bit computational instructions, and the register shifts of both lengths: the value of each operation
as arithmetic or bit by bit, and so what each instruction writes. -/

namespace Sys2Proof.Machine

/-! ## Values -/

theorem toInt_sext16 {n : Nat} (v : BitVec n) (hn : n ≤ 16) : (sext16 v).toInt = v.toInt :=
  BitVec.toInt_signExtend_of_le hn

/-- From bit 9 on a sign-extended `simm10` repeats its sign. -/
theorem getLsbD_sext16_simm10 (v : BitVec 10) {k : Nat} (hk : k < 16) :
    (sext16 v).getLsbD k = v.getLsbD (min k 9) := by
  rw [sext16, BitVec.getLsbD_signExtend, decide_eq_true hk, Bool.true_and]
  split
  case isTrue hlow => rw [Nat.min_eq_left (by omega)]
  case isFalse hhigh => rw [Nat.min_eq_right (by omega), BitVec.msb_eq_getLsbD_last]

theorem toNat_shiftLeft (a : Word) (n : Nat) : (shiftLeft a n).toNat = a.toNat * 2 ^ n % 65536 := by
  rw [shiftLeft, BitVec.toNat_shiftLeft, Nat.shiftLeft_eq]

theorem toNat_shiftRightLogical (a : Word) (n : Nat) : (shiftRightLogical a n).toNat = a.toNat / 2 ^ n := by
  rw [shiftRightLogical, BitVec.toNat_ushiftRight, Nat.shiftRight_eq_div_pow]

/-- The division rounds toward minus infinity. -/
theorem toInt_shiftRightArith (a : Word) (n : Nat) : (shiftRightArith a n).toInt = a.toInt / 2 ^ n := by
  rw [shiftRightArith, BitVec.toInt_sshiftRight, Int.shiftRight_eq_div_pow]
  norm_cast

/-! ## Distances -/

theorem shamt_low4 (v : Word) : shamt .low4 v = some (v.toNat % 16) := by
  simp [shamt]

/-- Where `refuse` allows the operand, and under `saturate`, the distance is the operand cut off at 16. -/
theorem shamt_eq_min {k : ShiftAmount} {v : Word} (h : (k = .refuse ∧ v.toNat ≤ 15) ∨ k = .saturate) :
    shamt k v = some (min v.toNat 16) := by
  obtain ⟨rfl, hle⟩ | rfl := h
  · rw [Nat.min_eq_left (by omega)]
    exact if_pos hle
  · rfl

/-- Cutting a distance off at 16 changes nothing once a shift by 16 has shifted everything out. -/
theorem shift_min {op : Word → Nat → Word} {a : Word} (hout : ∀ n, 16 ≤ n → op a n = op a 16) (n : Nat) :
    op a (min n 16) = op a n := by
  obtain hle | hge := Nat.le_total n 16
  · rw [Nat.min_eq_left hle]
  · rw [Nat.min_eq_right hge, hout n hge]

theorem toNat_shiftLeft_min (a : Word) (n : Nat) :
    (shiftLeft a (min n 16)).toNat = a.toNat * 2 ^ n % 65536 := by
  have hout : ∀ m, 16 ≤ m → shiftLeft a m = shiftLeft a 16 := fun _ hm =>
    (BitVec.shiftLeft_eq_zero hm).trans (BitVec.shiftLeft_eq_zero le_rfl).symm
  rw [shift_min hout, toNat_shiftLeft]

theorem toNat_shiftRightLogical_min (a : Word) (n : Nat) :
    (shiftRightLogical a (min n 16)).toNat = a.toNat / 2 ^ n := by
  have hout : ∀ m, 16 ≤ m → shiftRightLogical a m = shiftRightLogical a 16 := fun _ hm =>
    (BitVec.ushiftRight_eq_zero hm).trans (BitVec.ushiftRight_eq_zero le_rfl).symm
  rw [shift_min hout, toNat_shiftRightLogical]

/-- A shift by 16 or more fills every bit with the sign. -/
theorem getLsbD_shiftRightArith_of_le (a : Word) {n k : Nat} (hn : 16 ≤ n) (hk : k < 16) :
    (shiftRightArith a n).getLsbD k = a.msb := by
  have hin : ¬ 16 ≤ k := by omega
  have hpast : ¬ n + k < 16 := by omega
  rw [shiftRightArith, BitVec.getLsbD_sshiftRight, if_neg hpast]
  simp [hin]

theorem toInt_shiftRightArith_min (a : Word) (n : Nat) :
    (shiftRightArith a (min n 16)).toInt = a.toInt / 2 ^ n := by
  have hout : ∀ m, 16 ≤ m → shiftRightArith a m = shiftRightArith a 16 := fun _ hm =>
    BitVec.eq_of_getLsbD_eq fun _ hk =>
      (getLsbD_shiftRightArith_of_le a hm hk).trans (getLsbD_shiftRightArith_of_le a le_rfl hk).symm
  rw [shift_min hout, toInt_shiftRightArith]

/-! ## Register shifts -/

theorem setsReg_of_shift24 {i : Instr} {s : State} {rd : Reg} {a d : Word} {op : Word → Nat → Word} {n : Nat}
    {post : Word → Prop} (hexec : exec i s = shift24 s rd a d op) (hn : shamt s.params.shiftAmount d = some n)
    (hpost : post (op a n)) : SetsReg i s rd 3 post :=
  setsReg_of_writeback (hexec.trans (shift24_next.mpr ⟨n, hn, rfl⟩)) hpost

theorem setsReg_of_shift16 {i : Instr} {s : State} {rd : Reg} {a d : Word} {op : Word → Nat → Word} {n : Nat}
    {post : Word → Prop} (hexec : exec i s = shift16 s rd a d op) (hn : shamt s.params.shiftAmount d = some n)
    (hpost : post (op a n)) : SetsReg i s rd 2 post :=
  setsReg_of_writeback (hexec.trans (shift16_next.mpr ⟨n, hn, rfl⟩)) hpost

/-- Settles O20: `refuse` has no distance for an operand above 15; elsewhere the distance is the operand cut off at 16,
which shifts as the operand does. -/
theorem registerShiftsRefuseOrSaturate : Obligations.RegisterShiftsRefuseOrSaturate := by
  refine ⟨fun s rd rs1 rs2 hrefuse habove => ?_, fun s rd rs1 rs2 hallowed => ?_⟩
  · have hstop := shamt_eq_none.mpr ⟨hrefuse, habove⟩
    exact ⟨shift24_fault.mpr ⟨hstop, rfl⟩, shift24_fault.mpr ⟨hstop, rfl⟩, shift24_fault.mpr ⟨hstop, rfl⟩,
      shift16_fault.mpr ⟨hstop, rfl⟩, shift16_fault.mpr ⟨hstop, rfl⟩, shift16_fault.mpr ⟨hstop, rfl⟩⟩
  · have hn := shamt_eq_min hallowed
    exact ⟨setsReg_of_shift24 rfl hn (toNat_shiftLeft_min _ _),
      setsReg_of_shift24 rfl hn (toNat_shiftRightLogical_min _ _),
      setsReg_of_shift24 rfl hn (toInt_shiftRightArith_min _ _),
      setsReg_of_shift16 rfl hn (toNat_shiftLeft_min _ _),
      setsReg_of_shift16 rfl hn (toNat_shiftRightLogical_min _ _),
      setsReg_of_shift16 rfl hn (toInt_shiftRightArith_min _ _)⟩

/-- Settles O16: under `low4` each shifts by the operand's low four bits. -/
theorem lsl24Lsr24Asr24UnderLow4 : Obligations.Lsl24Lsr24Asr24UnderLow4 := by
  refine ⟨spells24_r24 (g := .lsl) fun _ _ _ => rfl,
    spells24_r24 (g := .lsr) fun _ _ _ => rfl,
    spells24_r24 (g := .asr) fun _ _ _ => rfl, fun s rd rs1 rs2 hlow4 => ?_⟩
  have hn : shamt s.params.shiftAmount (s.reg rs2) = some ((s.reg rs2).toNat % 16) := by
    rw [hlow4, shamt_low4]
  exact ⟨setsReg_of_shift24 rfl hn (toNat_shiftLeft _ _), setsReg_of_shift24 rfl hn (toNat_shiftRightLogical _ _),
    setsReg_of_shift24 rfl hn (toInt_shiftRightArith _ _)⟩

/-! ## The other instructions -/

/-- Settles O14. -/
theorem add24Sub24SetRd : Obligations.Add24Sub24SetRd := by
  refine ⟨spells24_r24 (g := .add) fun _ _ _ => rfl,
    spells24_r24 (g := .sub) fun _ _ _ => rfl, fun s rd rs1 rs2 => ⟨?_, ?_⟩⟩
  · exact setsReg_of_writeback rfl (BitVec.toNat_add _ _)
  · refine setsReg_of_writeback rfl ?_
    rw [BitVec.toNat_sub]
    omega

/-- Settles O15. -/
theorem and24Xor24Or24SetRd : Obligations.And24Xor24Or24SetRd :=
  ⟨spells24_r24 (g := .and) fun _ _ _ => rfl,
    spells24_r24 (g := .xor) fun _ _ _ => rfl,
    spells24_r24 (g := .or) fun _ _ _ => rfl, fun _ _ _ _ =>
    ⟨setsReg_of_writeback rfl fun _ _ => BitVec.getLsbD_and, setsReg_of_writeback rfl fun _ _ => BitVec.getLsbD_xor,
      setsReg_of_writeback rfl fun _ _ => BitVec.getLsbD_or⟩⟩

/-- Settles O17: ADDI's sum with a signed number is an offset modulo 2^16. -/
theorem addiLiSetRd : Obligations.AddiLiSetRd :=
  ⟨spells24_simm10 (g := .addi) fun _ _ _ _ _ => rfl, spells24_li, fun s _ rs1 simm10 =>
    ⟨setsReg_of_writeback rfl (isOffsetFrom_add_ofInt (s.reg rs1) simm10.toInt),
      setsReg_of_writeback rfl (toInt_sext16 simm10 (by decide))⟩⟩

/-- Settles O18: bit by bit, the immediate's bits being those of its sign extension. -/
theorem andiXoriOriSetRd : Obligations.AndiXoriOriSetRd := by
  refine ⟨spells24_simm10 (g := .andi) fun _ _ _ _ _ => rfl, spells24_simm10 (g := .xori) fun _ _ _ _ _ => rfl,
    spells24_simm10 (g := .ori) fun _ _ _ _ _ => rfl, fun s rd rs1 simm10 => ⟨?_, ?_, ?_⟩⟩
  · refine setsReg_of_writeback rfl fun k hk => ?_
    rw [BitVec.getLsbD_and, getLsbD_sext16_simm10 simm10 hk]
  · refine setsReg_of_writeback rfl fun k hk => ?_
    rw [BitVec.getLsbD_xor, getLsbD_sext16_simm10 simm10 hk]
  · refine setsReg_of_writeback rfl fun k hk => ?_
    rw [BitVec.getLsbD_or, getLsbD_sext16_simm10 simm10 hk]

/-- Settles O19: the distance is `uimm4`. -/
theorem lsliLsriAsriSetRd : Obligations.LsliLsriAsriSetRd :=
  ⟨spells24_zeros (g := .lsli) fun _ _ _ => rfl, spells24_zeros (g := .lsri) fun _ _ _ => rfl,
    spells24_zeros (g := .asri) fun _ _ _ => rfl, fun _ _ _ _ =>
    ⟨setsReg_of_writeback rfl (toNat_shiftLeft _ _), setsReg_of_writeback rfl (toNat_shiftRightLogical _ _),
      setsReg_of_writeback rfl (toInt_shiftRightArith _ _)⟩⟩

end Sys2Proof.Machine
end

section
/-! SUPPORT. The 24-bit branches, J and JAL: each condition as a relation of the numbers compared, where each of the
instructions goes, and which words spell it. -/

namespace Sys2Proof.Machine

/-! ## Conditions -/

theorem condEq_iff (a b : Word) : condEq a b = true ↔ a = b := beq_iff_eq

theorem condNe_iff (a b : Word) : condNe a b = true ↔ a ≠ b := bne_iff_ne

theorem condLt_iff (a b : Word) : condLt a b = true ↔ a.toInt < b.toInt := BitVec.slt_iff_toInt_lt

theorem condLe_iff (a b : Word) : condLe a b = true ↔ a.toInt ≤ b.toInt := BitVec.sle_iff_toInt_le

theorem condLtu_iff (a b : Word) : condLtu a b = true ↔ a.toNat < b.toNat := BitVec.ult_iff_lt

theorem condLeu_iff (a b : Word) : condLeu a b = true ↔ a.toNat ≤ b.toNat := BitVec.ule_iff_le

/-! ## Targets and words -/

theorem isOffsetFrom_branchTarget (pc : Word) (simm10 : BitVec 10) :
    IsOffsetFrom pc simm10.toInt (branchTarget pc simm10) :=
  isOffsetFrom_add_ofInt pc simm10.toInt

/-- A 16-bit offset is the whole word, so that nothing is extended. -/
theorem isOffsetFrom_longJumpTarget (pc : Word) (simm16 : BitVec 16) :
    IsOffsetFrom pc simm16.toInt (longJumpTarget pc simm16) := by
  have hadd := isOffsetFrom_add_ofInt pc simm16.toInt
  rwa [BitVec.ofInt_toInt] at hadd

/-- What all six branches do, once their condition is a relation of the numbers compared (R130, R131). -/
theorem movesPc_of_branchOn {i : Instr} {s : State} {taken : Bool} {simm10 : BitVec 10} {rel : Prop} [Decidable rel]
    (hexec : exec i s = branchOn s taken simm10) (htaken : taken = true ↔ rel) :
    MovesPc i s (fun pc' => if rel then IsOffsetFrom s.pc simm10.toInt pc' else IsOffsetFrom s.pc 3 pc') := by
  refine movesPc_of_setPc (hexec.trans (branchOn_eq s taken simm10)) ?_
  by_cases hrel : rel
  · rw [if_pos hrel, if_pos (htaken.mpr hrel)]
    exact isOffsetFrom_branchTarget s.pc simm10
  · rw [if_neg hrel, if_neg (mt htaken.mp hrel)]
    exact isOffsetFrom_add_ofNat s.pc 3

/-- B24: `rs1` is the field at 15:12, `rs2` the one at 11:8 (R76). -/
theorem spells24_b24 {mtch : BitVec 24} {g : Reg → Reg → BitVec 10 → Instr}
    (hrow : ∀ d c b a hi, decodeRow24 d c b a hi (mtch.extractLsb' 0 6) =
      some (g (regOf b) (regOf a) (simm10Of hi d c))) :
    Spells24 0x00003F mtch (fun w => g (regAt w 12) (regAt w 8) (simm10At w)) :=
  spells24_simm10 (g := fun rs2 rs1 simm10 => g rs1 rs2 simm10) hrow

/-! ## The branches -/

/-- Settles O21: the condition is equality of the words, or its negation. -/
theorem beqBneMovePc : Obligations.BeqBneMovePc :=
  ⟨spells24_b24 (g := .beq) fun _ _ _ _ _ => rfl, spells24_b24 (g := .bne) fun _ _ _ _ _ => rfl, fun _ _ _ _ =>
    ⟨movesPc_of_branchOn rfl (condEq_iff _ _), movesPc_of_branchOn rfl (condNe_iff _ _)⟩⟩

/-- Settles O22: the condition is the order of the words' signed values. -/
theorem bltBleMovePc : Obligations.BltBleMovePc :=
  ⟨spells24_b24 (g := .blt) fun _ _ _ _ _ => rfl, spells24_b24 (g := .ble) fun _ _ _ _ _ => rfl, fun _ _ _ _ =>
    ⟨movesPc_of_branchOn rfl (condLt_iff _ _), movesPc_of_branchOn rfl (condLe_iff _ _)⟩⟩

/-- Settles O23: the condition is the order of the words' unsigned values. -/
theorem bltuBleuMovePc : Obligations.BltuBleuMovePc :=
  ⟨spells24_b24 (g := .bltu) fun _ _ _ _ _ => rfl, spells24_b24 (g := .bleu) fun _ _ _ _ _ => rfl, fun _ _ _ _ =>
    ⟨movesPc_of_branchOn rfl (condLtu_iff _ _), movesPc_of_branchOn rfl (condLeu_iff _ _)⟩⟩

/-! ## J and JAL -/

/-- A word decodes to well-formed instructions only. -/
theorem decodeWord_ne_of_not_wf {p : Params} {i : Instr} (hwf : i.wf p = false) (w : InstWord) :
    decodeWord p w ≠ some i := by
  intro hdec
  obtain ⟨hwf', -⟩ := encodeOfDecodeIsTheWord p w i hdec
  cases hwf.symm.trans hwf'

/-- Settles O24: JAL is a link with J's jump, and `ra` reads as whatever value was linked; without its opcode neither is
well-formed. -/
theorem jJalFollowTheirRecordedReading : Obligations.JJalFollowTheirRecordedReading := by
  refine ⟨fun s simm16 => ⟨?_, ?_⟩, fun p w simm16 => ⟨?_, ?_⟩⟩
  · exact movesPc_of_setPc rfl (isOffsetFrom_longJumpTarget s.pc simm16)
  · exact ⟨(s.setReg Reg.ra (Config.jalLink s.pc)).setPc (longJumpTarget s.pc simm16), rfl, by simp,
      isOffsetFrom_longJumpTarget s.pc simm16, writesOnlyReg_of_link s _ _ _⟩
  · exact fun hnone => decodeWord_ne_of_not_wf (by simp [Instr.wf, hnone]) w
  · exact fun hnone => decodeWord_ne_of_not_wf (by simp [Instr.wf, hnone]) w

end Sys2Proof.Machine
end

section
/-! SUPPORT. The 24-bit loads and stores: an access's checks as bounds on its address, what the shared loads and stores
do by them, and which words spell SB. The lemmas on word accesses take the instruction's length, for LWSP and SWSP. -/

namespace Sys2Proof.Machine

/-! ## The checks as bounds on the address -/

theorem misaligned_word_of_odd {a : Word} (h : a.toNat % 2 = 1) : misaligned .word a = true :=
  (getLsbD_zero_iff a).mpr h

theorem inDmem_eq_false_iff {p : Params} {size : AccessSize} {a : Word} :
    inDmem p size a = false ↔ p.dmemSize < a.toNat + size.bytes := by
  rw [← Bool.not_eq_true, inDmem_iff, Nat.not_le]

/-- The code range byte by byte; harvard has none (R41). -/
theorem touchesCode_iff {p : Params} {a n : Nat} :
    TouchesCode p a n ↔ ∃ k, a ≤ k ∧ k < a + n ∧ inCodeRange p k = true := by
  cases horg : p.memOrg <;> simp [TouchesCode, inCodeRange, horg]

/-- A store hits the code exactly where one of its bytes lies there. -/
theorem hitsCode_iff {p : Params} {size : AccessSize} {a : Word} :
    hitsCode p size a = true ↔ TouchesCode p a.toNat size.bytes := by
  rw [touchesCode_iff]
  constructor
  · intro hhits
    cases size with
    | byte => exact ⟨a.toNat, le_rfl, Nat.lt_succ_self _, hhits⟩
    | word =>
      obtain hlow | hhigh := Bool.or_eq_true_iff.mp hhits
      · exact ⟨a.toNat, le_rfl, Nat.lt_add_of_pos_right Nat.two_pos, hlow⟩
      · exact ⟨a.toNat + 1, Nat.le_succ _, Nat.lt_succ_self _, hhigh⟩
  · rintro ⟨k, hfrom, hto, hcode⟩
    cases size with
    | byte =>
      obtain rfl : k = a.toNat := by simp only [AccessSize.bytes] at hto; omega
      exact hcode
    | word =>
      obtain rfl | rfl : k = a.toNat ∨ k = a.toNat + 1 := by simp only [AccessSize.bytes] at hto; omega
      · exact Bool.or_eq_true_iff.mpr (.inl hcode)
      · exact Bool.or_eq_true_iff.mpr (.inr hcode)

theorem hitsCode_eq_false_iff {p : Params} {size : AccessSize} {a : Word} :
    hitsCode p size a = false ↔ ¬ TouchesCode p a.toNat size.bytes := by
  rw [← hitsCode_iff, Bool.not_eq_true]

/-! ## Loads -/

theorem loadWordInto_misaligned {s : State} {ea : Word} (rd : Reg) (len : Word) (hodd : ea.toNat % 2 = 1) :
    loadWordInto s rd ea len = .fault (.misalignedAccess ea) :=
  loadWordInto_fault.mpr (memReadWord_error.mpr (.inl ⟨misaligned_word_of_odd hodd, rfl⟩))

theorem loadWordInto_outside {s : State} {ea : Word} (rd : Reg) (len : Word) (heven : ea.toNat % 2 = 0)
    (hout : s.params.dmemSize ≤ ea.toNat + 1) : loadWordInto s rd ea len = .fault (.accessOutOfRange ea) :=
  loadWordInto_fault.mpr (memReadWord_error.mpr
    (.inr (.inl ⟨misaligned_word_of_even heven, inDmem_eq_false_iff.mpr (Nat.lt_succ_of_le hout), rfl⟩)))

theorem loadByteInto_outside {s : State} {ea : Word} (rd : Reg) (ext : Byte → Word)
    (hout : s.params.dmemSize ≤ ea.toNat) : loadByteInto s rd ea ext = .fault (.accessOutOfRange ea) :=
  loadByteInto_fault.mpr (memReadByte_error.mpr
    (.inl ⟨inDmem_eq_false_iff.mpr (Nat.lt_succ_of_le hout), rfl⟩))

theorem memReadWord_of_bytes {s : State} {ea : Word} {lo hi : Byte} (heven : ea.toNat % 2 = 0)
    (hin : ea.toNat + 1 < s.params.dmemSize) (hlo : s.dmem.read ea.toNat = some lo)
    (hhi : s.dmem.read (ea.toNat + 1) = some hi) : memReadWord s ea = .ok (hi ++ lo) :=
  memReadWord_ok.mpr ⟨misaligned_word_of_even heven, inDmem_iff.mpr hin, lo, hi, hlo, hhi, rfl⟩

/-- Little-endian: the byte at the lower address counts ones (R45). -/
theorem toNat_append_bytes (lo hi : Byte) : (hi ++ lo).toNat = lo.toNat + 256 * hi.toNat := by
  rw [BitVec.toNat_append, ← Nat.shiftLeft_add_eq_or_of_lt lo.isLt, Nat.shiftLeft_eq]
  omega

theorem memReadByte_of_byte {s : State} {ea : Word} {b : Byte} (hin : ea.toNat < s.params.dmemSize)
    (hb : s.dmem.read ea.toNat = some b) : memReadByte s ea = .ok b :=
  memReadByte_ok.mpr ⟨inDmem_iff.mpr hin, hb⟩

/-- Settles O26: the stops are those of a word read, and the value is the word of its two bytes. -/
theorem lwLoadsAlignedWord : Obligations.LwLoadsAlignedWord := by
  refine ⟨spells24_simm10 (g := fun rd rs simm10 => .lw rd simm10 rs) fun _ _ _ _ _ => rfl,
    fun s rd rs simm10 => ⟨loadWordInto_misaligned rd 3, loadWordInto_outside rd 3, ?_⟩⟩
  intro lo hi heven hin hlo hhi
  exact lw_setsReg rd rs simm10 (memReadWord_of_bytes heven hin hlo hhi) (toNat_append_bytes lo hi)

/-- Settles O27: the two differ only in how the byte read is widened. -/
theorem lbLbuLoadByte : Obligations.LbLbuLoadByte := by
  refine ⟨spells24_simm10 (g := fun rd rs simm10 => .lb rd simm10 rs) fun _ _ _ _ _ => rfl,
    spells24_simm10 (g := fun rd rs simm10 => .lbu rd simm10 rs) fun _ _ _ _ _ => rfl,
    fun s rd rs simm10 => ⟨fun hout => ?_, fun b hin hb => ?_⟩⟩
  · exact ⟨loadByteInto_outside rd sext16 hout, loadByteInto_outside rd zext16 hout⟩
  · have hread := memReadByte_of_byte hin hb
    have hlb := loadByteInto_next (rd := rd) (ext := sext16).mpr ⟨b, hread, rfl⟩
    exact ⟨setsReg_of_writeback hlb (toInt_sext16_byte b), lbu_setsReg rd rs simm10 hread rfl⟩

/-! ## Stores -/

theorem storeWordAt_misaligned {s : State} {ea : Word} (v len : Word) (hodd : ea.toNat % 2 = 1) :
    storeWordAt s ea v len = .fault (.misalignedAccess ea) :=
  storeWordAt_fault.mpr (checkStore_error.mpr (.inl ⟨misaligned_word_of_odd hodd, rfl⟩))

theorem storeWordAt_outside {s : State} {ea : Word} (v len : Word) (heven : ea.toNat % 2 = 0)
    (hout : s.params.dmemSize ≤ ea.toNat + 1) : storeWordAt s ea v len = .fault (.accessOutOfRange ea) :=
  storeWordAt_fault.mpr (checkStore_error.mpr
    (.inr (.inl ⟨misaligned_word_of_even heven, inDmem_eq_false_iff.mpr (Nat.lt_succ_of_le hout), rfl⟩)))

theorem storeWordAt_code {s : State} {ea : Word} (v len : Word) (heven : ea.toNat % 2 = 0)
    (hin : ea.toNat + 1 < s.params.dmemSize) (hcode : TouchesCode s.params ea.toNat 2) :
    storeWordAt s ea v len = .fault (.storeToCode ea) :=
  storeWordAt_fault.mpr (checkStore_error.mpr
    (.inr (.inr ⟨misaligned_word_of_even heven, inDmem_iff.mpr hin, hitsCode_iff.mpr hcode, rfl⟩)))

theorem storeByteAt_outside {s : State} {ea : Word} (b : Byte) (hout : s.params.dmemSize ≤ ea.toNat) :
    storeByteAt s ea b = .fault (.accessOutOfRange ea) :=
  storeByteAt_fault.mpr (checkStore_error.mpr
    (.inr (.inl ⟨rfl, inDmem_eq_false_iff.mpr (Nat.lt_succ_of_le hout), rfl⟩)))

theorem storeByteAt_code {s : State} {ea : Word} (b : Byte) (hin : ea.toNat < s.params.dmemSize)
    (hcode : TouchesCode s.params ea.toNat 1) : storeByteAt s ea b = .fault (.storeToCode ea) :=
  storeByteAt_fault.mpr (checkStore_error.mpr
    (.inr (.inr ⟨rfl, inDmem_iff.mpr hin, hitsCode_iff.mpr hcode, rfl⟩)))

/-- A data write with a move of the pc meets `StoresOnly`, once the write stays inside the bytes stored. -/
theorem storesOnly_of_setDmem {s : State} {m : Memory} {a n : Nat} (target : Word)
    (h : ∀ k, (k < a ∨ a + n ≤ k) → m.read k = s.dmem.read k) :
    StoresOnly a n s ((s.setDmem m).setPc target) :=
  ⟨fun _ _ => by simp, h, fun _ => rfl, rfl⟩

/-- A word store that no check stops: low byte first, and nothing else but the pc (R45, R47). -/
theorem storeWordAt_stores {s : State} {ea : Word} (v len : Word) (heven : ea.toNat % 2 = 0)
    (hin : ea.toNat + 1 < s.params.dmemSize) (hcode : ¬ TouchesCode s.params ea.toNat 2) :
    ∃ t, storeWordAt s ea v len = .next t ∧ t.pc = s.pc + len ∧
      (t.dmem.read ea.toNat).map BitVec.toNat = some (v.toNat % 256) ∧
      (t.dmem.read (ea.toNat + 1)).map BitVec.toNat = some (v.toNat / 256) ∧ StoresOnly ea.toNat 2 s t := by
  have hwrite := memWriteWord_ok (v := v).mpr
    ⟨misaligned_word_of_even heven, inDmem_iff.mpr hin, hitsCode_eq_false_iff.mpr hcode, rfl⟩
  refine ⟨_, storeWordAt_next.mpr ⟨_, hwrite, rfl⟩, rfl, ?_, ?_, storesOnly_of_setDmem _ fun k hk => ?_⟩
  · simp
  · simp only [setPc_dmem, setDmem_dmem, Memory.read_write, if_true, Option.map_some, toNat_highByte]
  · have hne : k ≠ ea.toNat ∧ k ≠ ea.toNat + 1 := by omega
    simp [hne]

/-- A byte store that no check stops. -/
theorem storeByteAt_stores {s : State} {ea : Word} (b : Byte) (hin : ea.toNat < s.params.dmemSize)
    (hcode : ¬ TouchesCode s.params ea.toNat 1) :
    ∃ t, storeByteAt s ea b = .next t ∧ t.pc = s.pc + 3 ∧
      (t.dmem.read ea.toNat).map BitVec.toNat = some b.toNat ∧ StoresOnly ea.toNat 1 s t := by
  have hwrite := memWriteByte_ok (b := b).mpr ⟨inDmem_iff.mpr hin, hitsCode_eq_false_iff.mpr hcode, rfl⟩
  refine ⟨_, storeByteAt_next.mpr ⟨_, hwrite, rfl⟩, rfl, ?_, storesOnly_of_setDmem _ fun k hk => ?_⟩
  · simp
  · have hne : k ≠ ea.toNat := by omega
    simp [hne]

/-- Settles O28: the stops are those of a store's checks, in R204's order. -/
theorem swStoresAlignedWord : Obligations.SwStoresAlignedWord :=
  ⟨spells24_simm10 (g := fun rs rd simm10 => .sw rs simm10 rd) fun _ _ _ _ _ => rfl, fun _ _ _ _ =>
    ⟨storeWordAt_misaligned _ 3, storeWordAt_outside _ 3, storeWordAt_code _ 3, storeWordAt_stores _ 3⟩⟩

/-- No row of the table has an opcode that `SB_OPCODE` can take, so that a word with it spells SB. -/
theorem decodeWord_full_of_sbOpcode {p : Params} {o : SbOpcode} {w : BitVec 24} (hsb : p.sbOpcode = some o)
    (hop : w.extractLsb' 0 6 = o.bits) :
    decodeWord p (.full w) = some (.sb (regAt w 8) (simm10At w) (regAt w 12)) := by
  have hsupplied : p.sbOpcode.map SbOpcode.bits = some o.bits := congrArg _ hsb
  simp only [decodeWord, decode24, decodeFields24, hop, decodeRow24_of_sbOpcode, Option.none_or]
  rw [decodeOpen24, if_pos hsupplied, simm10Of_fields]
  rfl

/-- Settles O29: without its opcode SB is not well-formed; its stops are those of a store's checks, but that no byte is
misaligned. -/
theorem sbStoresByte : Obligations.SbStoresByte := by
  refine ⟨fun _ _ _ => decodeWord_full_of_sbOpcode, fun p w rs rd simm10 hnone => ?_, fun s rs rd simm10 =>
    ⟨storeByteAt_outside _, storeByteAt_code _, fun hin hcode => ?_⟩⟩
  · exact decodeWord_ne_of_not_wf (by simp [Instr.wf, hnone]) w
  · rw [← toNat_lowByte]
    exact storeByteAt_stores _ hin hcode

end Sys2Proof.Machine
end

section
/-! SUPPORT. The 16-bit computational instructions: the words of the formats R16, S16 and I16, the bits and values of a
`simm6`, and so what each instruction writes. -/

namespace Sys2Proof.Machine

/-! ## Words -/

/-- The formats with an 8-bit opcode, R16 and S16: bits 7:0 are fixed (R80, R82). -/
theorem spells16_opcode8 {mtch : BitVec 16} {g : Reg → BitVec 4 → Instr}
    (hrow : ∀ b a, decodeFields16 b a (mtch.extractLsb' 6 2) (mtch.extractLsb' 0 6) = some (g (regOf a) b)) :
    Spells16 0x00FF mtch (fun w => g (regAt w 8) (w.extractLsb' 12 4)) := by
  intro p w hw
  obtain ⟨-, -, hhi, hop⟩ := (and_eq_iff_fields16 w _ mtch).mp hw
  rw [decodeWord, decode16, (and_ones2 _).symm.trans hhi, (and_ones6 _).symm.trans hop]
  exact hrow ..

/-- R16: the field at 15:12 names a register too. -/
theorem spells16_r16 {mtch : BitVec 16} {g : Reg → Reg → Instr}
    (hrow : ∀ b a, decodeFields16 b a (mtch.extractLsb' 6 2) (mtch.extractLsb' 0 6) =
      some (g (regOf a) (regOf b))) :
    Spells16 0x00FF mtch (fun w => g (regAt w 8) (regAt w 12)) :=
  spells16_opcode8 (g := fun rd b => g rd (regOf b)) hrow

/-- The formats with a 6-bit opcode, I16 and SP16: bits 7:6 and 15:12 are an operand's (R81, R85). -/
theorem spells16_opcode6 {mtch : BitVec 16} {g : Reg → BitVec 2 → BitVec 4 → Instr}
    (hrow : ∀ b a hi, decodeFields16 b a hi (mtch.extractLsb' 0 6) = some (g (regOf a) hi b)) :
    Spells16 0x003F mtch (fun w => g (regAt w 8) (w.extractLsb' 6 2) (w.extractLsb' 12 4)) := by
  intro p w hw
  obtain ⟨-, -, -, hop⟩ := (and_eq_iff_fields16 w _ mtch).mp hw
  rw [decodeWord, decode16, (and_ones6 _).symm.trans hop]
  exact hrow ..

/-- I16: the operand is a `simm6`. -/
theorem spells16_i16 {mtch : BitVec 16} {g : Reg → BitVec 6 → Instr}
    (hrow : ∀ b a hi, decodeFields16 b a hi (mtch.extractLsb' 0 6) = some (g (regOf a) (simm6Of hi b))) :
    Spells16 0x003F mtch (fun w => g (regAt w 8) (simm6At w)) :=
  spells16_opcode6 (g := fun rd hi b => g rd (simm6Of hi b)) hrow

/-! ## Values -/

/-- From its last bit on a sign-extended field repeats its sign: `getLsbD_sext16_simm10` for a field of any width. -/
theorem getLsbD_sext16 {n : Nat} (v : BitVec (n + 1)) {k : Nat} (hk : k < 16) :
    (sext16 v).getLsbD k = v.getLsbD (min k n) := by
  rw [sext16, BitVec.getLsbD_signExtend, decide_eq_true hk, Bool.true_and]
  split
  case isTrue hlow => rw [Nat.min_eq_left (by omega)]
  case isFalse hhigh => rw [Nat.min_eq_right (by omega), BitVec.msb_eq_getLsbD_last, Nat.add_sub_cancel]

/-- The shift drops what the sign extension put above the six bits. -/
theorem toNat_upperImmediate (simm6 : BitVec 6) : (upperImmediate simm6).toNat = simm6.toNat * 1024 := by
  have hshift : upperImmediate simm6 = simm6.setWidth 16 <<< 10 := by
    rw [← upperImmediate_setWidth, BitVec.setWidth_setWidth_of_le _ (by decide), BitVec.setWidth_eq]
  rw [hshift, BitVec.toNat_shiftLeft, BitVec.toNat_setWidth, Nat.shiftLeft_eq]
  omega

/-! ## The instructions -/

/-- Settles O32. -/
theorem movAdd2Sub2SetRd : Obligations.MovAdd2Sub2SetRd := by
  refine ⟨spells16_r16 (g := .mov) fun _ _ => rfl, spells16_r16 (g := .add2) fun _ _ => rfl,
    spells16_r16 (g := .sub2) fun _ _ => rfl, fun s rd rs => ⟨?_, ?_, ?_⟩⟩
  · exact setsReg_of_writeback rfl rfl
  · exact setsReg_of_writeback rfl (BitVec.toNat_add _ _)
  · refine setsReg_of_writeback rfl ?_
    rw [BitVec.toNat_sub]
    omega

/-- Settles O33. -/
theorem and2Xor2Or2SetRd : Obligations.And2Xor2Or2SetRd :=
  ⟨spells16_r16 (g := .and2) fun _ _ => rfl, spells16_r16 (g := .xor2) fun _ _ => rfl,
    spells16_r16 (g := .or2) fun _ _ => rfl, fun _ _ _ =>
    ⟨setsReg_of_writeback rfl fun _ _ => BitVec.getLsbD_and, setsReg_of_writeback rfl fun _ _ => BitVec.getLsbD_xor,
      setsReg_of_writeback rfl fun _ _ => BitVec.getLsbD_or⟩⟩

/-- Settles O34: under `low4` each shifts by the low four bits of `rs`, read before `rd` is written. -/
theorem lsl2Lsr2Asr2UnderLow4 : Obligations.Lsl2Lsr2Asr2UnderLow4 := by
  refine ⟨spells16_r16 (g := .lsl2) fun _ _ => rfl, spells16_r16 (g := .lsr2) fun _ _ => rfl,
    spells16_r16 (g := .asr2) fun _ _ => rfl, fun s rd rs hlow4 => ?_⟩
  have hn : shamt s.params.shiftAmount (s.reg rs) = some ((s.reg rs).toNat % 16) := by
    rw [hlow4, shamt_low4]
  exact ⟨setsReg_of_shift16 rfl hn (toNat_shiftLeft _ _), setsReg_of_shift16 rfl hn (toNat_shiftRightLogical _ _),
    setsReg_of_shift16 rfl hn (toInt_shiftRightArith _ _)⟩

/-- Settles O35: ADDI2, ANDI2 and LSI use the immediate sign-extended; LUI's result does not depend on its sign. -/
theorem addi2Andi2LsiLuiSetRd : Obligations.Addi2Andi2LsiLuiSetRd := by
  refine ⟨spells16_i16 (g := .addi2) fun _ _ _ => rfl, spells16_i16 (g := .andi2) fun _ _ _ => rfl,
    spells16_i16 (g := .lsi) fun _ _ _ => rfl, spells16_i16 (g := .lui) fun _ _ _ => rfl,
    fun s rd simm6 => ⟨?_, ?_, ?_, ?_⟩⟩
  · exact setsReg_of_writeback rfl (isOffsetFrom_add_ofInt (s.reg rd) simm6.toInt)
  · refine setsReg_of_writeback rfl fun k hk => ?_
    rw [BitVec.getLsbD_and, getLsbD_sext16 simm6 hk]
  · exact setsReg_of_writeback rfl (toInt_sext16 simm6 (by decide))
  · exact setsReg_of_writeback rfl (toNat_upperImmediate simm6)

/-- Settles O36: the distance is `uimm4`. -/
theorem lsli2Lsri2Asri2SetRd : Obligations.Lsli2Lsri2Asri2SetRd :=
  ⟨spells16_opcode8 (g := .lsli2) fun _ _ => rfl, spells16_opcode8 (g := .lsri2) fun _ _ => rfl,
    spells16_opcode8 (g := .asri2) fun _ _ => rfl, fun _ _ _ =>
    ⟨setsReg_of_writeback rfl (toNat_shiftLeft _ _), setsReg_of_writeback rfl (toNat_shiftRightLogical _ _),
      setsReg_of_writeback rfl (toInt_shiftRightArith _ _)⟩⟩

end Sys2Proof.Machine
end

section
/-! SUPPORT. The 16-bit jumps: the words of the formats JR16 and JS16, the target of JS and JSAL, the link, and what ends
a run. -/

namespace Sys2Proof.Machine

/-! ## Words -/

/-- JR16: bits 15:12 and 7:0 are fixed (R83). -/
theorem spells16_jr16 {mtch : BitVec 16} {g : Reg → Instr}
    (hrow : ∀ a, decodeFields16 (mtch.extractLsb' 12 4) a (mtch.extractLsb' 6 2) (mtch.extractLsb' 0 6) =
      some (g (regOf a))) :
    Spells16 0xF0FF mtch (fun w => g (regAt w 8)) := by
  intro p w hw
  obtain ⟨hb, -, hhi, hop⟩ := (and_eq_iff_fields16 w _ mtch).mp hw
  rw [decodeWord, decode16, (and_ones4 _).symm.trans hb, (and_ones2 _).symm.trans hhi, (and_ones6 _).symm.trans hop]
  exact hrow ..

/-- `simm11` is the same from four fields as from one (R87). -/
theorem simm11Of_fields (w : BitVec 16) :
    simm11Of (w.extractLsb' 12 4) (w.extractLsb' 8 4) (w.extractLsb' 6 2) (w.extractLsb' 5 1) = w.extractLsb' 5 11 := by
  rw [simm11Of, slice_append_slice w 8 4 12 rfl 4, slice_append_slice w 6 2 8 rfl 8, slice_append_slice w 5 1 6 rfl 10]

/-- JS16: bits 4:0 alone are fixed, so that bit 5, the offset's lowest, stands in the decoder's opcode field (R84). -/
theorem spells16_js16 {mtch : BitVec 16} {g : BitVec 11 → Instr}
    (hrow : ∀ b a hi,
      decodeFields16 b a hi (0#1 ++ mtch.extractLsb' 0 5) = some (g (simm11Of b a hi 0#1)) ∧
      decodeFields16 b a hi (1#1 ++ mtch.extractLsb' 0 5) = some (g (simm11Of b a hi 1#1))) :
    Spells16 0x001F mtch (fun w => g (w.extractLsb' 5 11)) := by
  intro p w hw
  have hop5 : w.extractLsb' 0 5 = mtch.extractLsb' 0 5 := by
    rw [← hw, BitVec.extractLsb'_and]
    exact BitVec.and_allOnes.symm
  have hop : w.extractLsb' 0 6 = w.extractLsb' 5 1 ++ mtch.extractLsb' 0 5 := by
    rw [← hop5, slice_append_slice w 0 5 5 rfl 1]
  have hsimm11 := simm11Of_fields w
  obtain ⟨htop0, htop1⟩ := hrow (w.extractLsb' 12 4) (w.extractLsb' 8 4) (w.extractLsb' 6 2)
  rw [decodeWord, decode16, hop]
  obtain htop | htop := BitVec.eq_zero_or_eq_one (w.extractLsb' 5 1)
  · rw [htop] at hsimm11 ⊢
    rw [htop0, hsimm11]
  · rw [htop] at hsimm11 ⊢
    rw [htop1, hsimm11]

/-! ## Targets and the link -/

theorem isOffsetFrom_jumpTarget (pc : Word) (simm11 : BitVec 11) :
    IsOffsetFrom pc simm11.toInt (jumpTarget pc simm11) :=
  isOffsetFrom_add_ofInt pc simm11.toInt

/-- After a link with a jump `ra` reads as the address of the instruction after the 2-byte jump (R183). -/
theorem isOffsetFrom_link (s : State) (target : Word) :
    IsOffsetFrom s.pc 2 (((s.setReg Reg.ra (s.pc + 2)).setPc target).reg Reg.ra) := by
  rw [setPc_reg, reg_setReg, if_pos rfl]
  exact isOffsetFrom_add_ofNat s.pc 2

/-- JR goes where the link says, wherever the jump went. -/
theorem link_then_jr_returns {i : Instr} {s : State} {target : Word}
    (hexec : exec i s = .next ((s.setReg Reg.ra (s.pc + 2)).setPc target)) :
    ∃ t u, exec i s = .next t ∧ exec (.jr Reg.ra) t = .next u ∧ IsOffsetFrom s.pc 2 u.pc :=
  ⟨_, _, hexec, rfl, isOffsetFrom_link s target⟩

/-! ## The end of a run -/

/-- A run has ended exactly where the word of `JS 0` is fetched (R213). -/
theorem ended_iff {s : State} : ended s = true ↔ fetch s = .ok jsZero := by
  unfold ended
  cases fetch s with
  | ok w => rw [Except.ok.injEq]; exact beq_iff_eq
  | error f => exact ⟨nofun, nofun⟩

/-! ## The instructions -/

/-- Settles O39: the target is read from the state before the link, so that JALR through `ra` goes to the old value. -/
theorem jalrJrJumpToRegister : Obligations.JalrJrJumpToRegister := by
  refine ⟨spells16_jr16 (g := .jalr) fun _ => rfl, spells16_jr16 (g := .jr) fun _ => rfl, fun s rs => ⟨?_, ?_⟩⟩
  · exact ⟨_, rfl, rfl, isOffsetFrom_link s (s.reg rs), writesOnlyReg_of_link s _ _ _⟩
  · exact movesPc_of_setPc rfl rfl

/-- Settles O40: link and target are both offsets from the jump's own address. -/
theorem jsJsalJumpRelative : Obligations.JsJsalJumpRelative := by
  refine ⟨spells16_js16 (g := .js) fun _ _ _ => ⟨rfl, rfl⟩, spells16_js16 (g := .jsal) fun _ _ _ => ⟨rfl, rfl⟩,
    fun s simm11 => ⟨?_, ?_⟩, fun _ => rfl, fun _ => ended_iff⟩
  · exact movesPc_of_setPc rfl (isOffsetFrom_jumpTarget s.pc simm11)
  · exact ⟨_, rfl, isOffsetFrom_jumpTarget s.pc simm11, isOffsetFrom_link s (jumpTarget s.pc simm11),
      writesOnlyReg_of_link s _ _ _⟩

/-- Settles O41: both calls are a link with a jump. -/
theorem callThenReturnComesBack : Obligations.CallThenReturnComesBack :=
  fun _ _ _ => ⟨link_then_jr_returns rfl, link_then_jr_returns rfl⟩

end Sys2Proof.Machine
end

section
/-! SUPPORT. The 16-bit stack-pointer loads and stores, and NOP: the words of the format SP16, and LW's and SW's
accesses at the stack pointer's address by instructions of two bytes. -/

namespace Sys2Proof.Machine

/-- SP16: the operand is a `uimm7`, even by its format (R85). -/
theorem spells16_sp16 {mtch : BitVec 16} {g : Reg → BitVec 7 → Instr}
    (hrow : ∀ b a hi, decodeFields16 b a hi (mtch.extractLsb' 0 6) = some (g (regOf a) (uimm7Of hi b))) :
    Spells16 0x003F mtch (fun w => g (regAt w 8) (uimm7At w)) :=
  spells16_opcode6 (g := fun r hi b => g r (uimm7Of hi b)) hrow

/-- Settles O42: the stops and the value are those of LW's word read; `rd = sp` is no other case, as the address is
computed before `rd` is written. -/
theorem lwspLoadsFromStack : Obligations.LwspLoadsFromStack := by
  refine ⟨spells16_sp16 (g := .lwsp) fun _ _ _ => rfl,
    fun s rd uimm7 => ⟨loadWordInto_misaligned rd 2, loadWordInto_outside rd 2, ?_⟩⟩
  intro lo hi heven hin hlo hhi
  have hread := memReadWord_of_bytes heven hin hlo hhi
  exact setsReg_of_writeback (loadWordInto_next.mpr ⟨_, hread, rfl⟩) (toNat_append_bytes lo hi)

/-- Settles O43: the stops and the bytes stored are those of SW's word store. -/
theorem swspStoresToStack : Obligations.SwspStoresToStack :=
  ⟨spells16_sp16 (g := .swsp) fun _ _ _ => rfl, fun _ _ _ =>
    ⟨storeWordAt_misaligned _ 2, storeWordAt_outside _ 2, storeWordAt_code _ 2, storeWordAt_stores _ 2⟩⟩

/-- NOP's mask fixes every bit of the word (R86). -/
theorem spells16_nop : Spells16 0xFFFF 0x0000 (fun _ => .nop) := by
  intro p w hw
  obtain rfl : w = 0 := BitVec.and_allOnes.symm.trans hw
  rfl

/-- An instruction has one word, so that no other word than the encoder's decodes to NOP. -/
theorem eq_zero_of_decodeWord_nop {p : Params} {w : InstWord} (h : decodeWord p w = some .nop) :
    w = .half 0x0000 := by
  obtain ⟨-, hword⟩ := encodeOfDecodeIsTheWord p w .nop h
  exact (Option.some.inj hword).symm

/-- Settles O44: NOP is a move of the pc to the next 16-bit instruction. -/
theorem nopOnlyAdvancesPc : Obligations.NopOnlyAdvancesPc :=
  ⟨spells16_nop, fun _ _ => eq_zero_of_decodeWord_nop, fun s =>
    movesPc_of_setPc rfl (isOffsetFrom_add_ofNat s.pc 2)⟩

end Sys2Proof.Machine
end

section
/-! SUPPORT. The address that a stop of a data access carries. -/

namespace Sys2Proof.Machine

/-- The address that an address stop carries: misaligned, out of range, or into the code (R49, R50, R41). -/
def Fault.accessAddress : Fault → Option Word
  | .misalignedAccess a | .accessOutOfRange a | .storeToCode a => some a
  | .fetchOutOfRange _ | .shiftDistanceOutOfRange _ | .unwrittenMemory _ => none

theorem Fault.accessAddress_eq_some {f : Fault} {a : Word} :
    f.accessAddress = some a ↔ f = .misalignedAccess a ∨ f = .accessOutOfRange a ∨ f = .storeToCode a := by
  cases f <;> simp [Fault.accessAddress]

/-- A store's checks stop at the address they check. -/
theorem accessAddress_of_checkStore {p : Params} {size : AccessSize} {ea a : Word} {f : Fault}
    (h : checkStore p size ea = .error f) (ha : f.accessAddress = some a) : ea = a := by
  obtain ⟨_, rfl⟩ | ⟨_, _, rfl⟩ | ⟨_, _, _, rfl⟩ := checkStore_error.mp h <;> exact Option.some.inj ha

/-- A word read's address stops are at its own address; a byte that holds no value is no such stop. -/
theorem accessAddress_of_memReadWord {s : State} {ea a : Word} {f : Fault}
    (h : memReadWord s ea = .error f) (ha : f.accessAddress = some a) : ea = a := by
  obtain ⟨_, rfl⟩ | ⟨_, _, rfl⟩ | ⟨_, _, ⟨_, rfl⟩ | ⟨_, _, rfl⟩⟩ := memReadWord_error.mp h
  · exact Option.some.inj ha
  · exact Option.some.inj ha
  · cases ha
  · cases ha

theorem accessAddress_of_memReadByte {s : State} {ea a : Word} {f : Fault}
    (h : memReadByte s ea = .error f) (ha : f.accessAddress = some a) : ea = a := by
  obtain ⟨_, rfl⟩ | ⟨_, _, rfl⟩ := memReadByte_error.mp h
  · exact Option.some.inj ha
  · cases ha

/-- An address stop comes from a load or a store, and carries the address of its access; a register shift stops with
its distance only. -/
theorem dataAccess_of_exec_fault {i : Instr} {s : State} {f : Fault} {a : Word} (h : exec i s = .fault f)
    (ha : f.accessAddress = some a) : ∃ size, dataAccess s i = some (size, a) := by
  cases i
  case lw | lwsp =>
    obtain rfl := accessAddress_of_memReadWord (loadWordInto_fault.mp h) ha
    exact ⟨.word, rfl⟩
  case lb | lbu =>
    obtain rfl := accessAddress_of_memReadByte (loadByteInto_fault.mp h) ha
    exact ⟨.byte, rfl⟩
  case sw | swsp =>
    obtain rfl := accessAddress_of_checkStore (storeWordAt_fault.mp h) ha
    exact ⟨.word, rfl⟩
  case sb =>
    obtain rfl := accessAddress_of_checkStore (storeByteAt_fault.mp h) ha
    exact ⟨.byte, rfl⟩
  case lsl | lsr | asr =>
    obtain ⟨_, rfl⟩ := shift24_fault.mp h
    cases ha
  case lsl2 | lsr2 | asr2 =>
    obtain ⟨_, rfl⟩ := shift16_fault.mp h
    cases ha
  all_goals cases h

/-- Settles O46: the table's part is that of O45. -/
theorem stopsFollowTheTable : Obligations.StopsFollowTheTable :=
  fun _ _ _ h => ⟨mayRaise_of_exec_fault h, fun _ ha =>
    dataAccess_of_exec_fault h (Fault.accessAddress_eq_some.mpr ha)⟩

end Sys2Proof.Machine
end

section
/-! SUPPORT. Steps that leave the state as it is, and so repeat for ever. -/

namespace Sys2Proof.Machine

theorem jumpTarget_zero (pc : Word) : jumpTarget pc 0 = pc := by
  simp [jumpTarget, sext16]

theorem branchTarget_zero (pc : Word) : branchTarget pc 0 = pc := by
  simp [branchTarget, sext16]

/-- What moves the pc to where it is leaves the whole state as it is. -/
theorem setPc_of_eq {s : State} {target : Word} (h : target = s.pc) : s.setPc target = s := by
  rw [h]
  rfl

theorem exec_beq_self (s : State) (r : Reg) : exec (.beq r r 0) s = .next s := by
  have htaken : condEq (s.reg r) (s.reg r) = true := beq_self_eq_true _
  change branchOn s (condEq (s.reg r) (s.reg r)) 0 = .next s
  rw [branchOn_eq, if_pos htaken, setPc_of_eq (branchTarget_zero s.pc)]

theorem exec_jr_self {s : State} {r : Reg} (h : s.reg r = s.pc) : exec (.jr r) s = .next s :=
  congrArg Host.Outcome.next (setPc_of_eq h)

theorem exec_js_zero (s : State) : exec (.js 0) s = .next s :=
  congrArg Host.Outcome.next (setPc_of_eq (jumpTarget_zero s.pc))

theorem decodeWord_jsZero (p : Params) : decodeWord p jsZero = some (.js 0) := rfl

/-- At the end of a run the step is that of `JS 0`. -/
theorem step_of_ended {s : State} (h : ended s = true) : step s = .next s :=
  (step_of_decoded (ended_iff.mp h) (decodeWord_jsZero s.params)).trans (exec_js_zero s)

/-- A step that leads from a state to itself repeats for ever (R212). -/
theorem steps_of_self_loop {s : State} (h : step s = .next s) (n : Nat) : Host.Core.run core n s = .next s := by
  induction n with
  | zero => rfl
  | succ n ih => exact steps_next.mpr ⟨s, ih, h⟩

/-- Settles O51: each of the three is a jump to its own address. -/
theorem selfLoopsRepeatForever : Obligations.SelfLoopsRepeatForever :=
  ⟨fun _ n h => steps_of_self_loop h n, fun _ n h => steps_of_self_loop (step_of_ended h) n, exec_beq_self,
    fun _ _ => exec_jr_self⟩

end Sys2Proof.Machine
end

section
/-! SUPPORT. The budgeted run by the steps of the machine: the states that it passes, and its four outcomes. -/

namespace Sys2Proof.Machine

/-- None of the first `n` states of the run from `s` fetches `JS 0`. -/
def NoEndBefore (n : Nat) (s : State) : Prop :=
  ∀ k < n, ∀ u, Host.Core.run core k s = .next u → fetch u ≠ .ok jsZero

theorem NoEndBefore.zero (s : State) : NoEndBefore 0 s := fun _ hk => absurd hk (Nat.not_lt_zero _)

/-- Nor does any state that `n` steps lead to. -/
def NoEndUpTo (n : Nat) (s : State) : Prop :=
  ∀ k ≤ n, ∀ u, Host.Core.run core k s = .next u → fetch u ≠ .ok jsZero

theorem noEndUpTo_iff {n : Nat} {s : State} : NoEndUpTo n s ↔ NoEndBefore (n + 1) s := by
  simp only [NoEndUpTo, NoEndBefore, Nat.lt_succ_iff]

/-- Where `n` steps lead to `t`, `t` is the one state more that is not to fetch `JS 0`. -/
theorem noEndUpTo_iff_of_steps {n : Nat} {s t : State} (h : Host.Core.run core n s = .next t) :
    NoEndUpTo n s ↔ NoEndBefore n s ∧ ended t = false := by
  rw [noEndUpTo_iff, Bool.eq_false_iff, ne_eq, ended_iff]
  refine Nat.forall_lt_succ_right.trans (and_congr_right fun _ => ⟨fun hu => hu t h, fun ht u hu => ?_⟩)
  cases h.symm.trans hu
  exact ht

/-- A run goes on from a state that steps lead to past no `JS 0`, with the rest of its budget. -/
theorem run_of_steps {m : Nat} {s t : State} (hsteps : Host.Core.run core m s = .next t)
    (hno : NoEndBefore m s) (k : Nat) : run (m + k) s = run k t := by
  induction m generalizing t k with
  | zero =>
    obtain rfl := steps_zero.mp hsteps
    rw [Nat.zero_add]
  | succ m ih =>
    obtain ⟨u, hu, hstep⟩ := steps_next.mp hsteps
    obtain ⟨hbefore, hend⟩ := (noEndUpTo_iff_of_steps hu).mp (noEndUpTo_iff.mpr hno)
    calc run (m + 1 + k) s = run (m + (k + 1)) s := by rw [Nat.add_right_comm, Nat.add_assoc]
      _ = run (k + 1) u := ih hu hbefore (k + 1)
      _ = run k t := by rw [run_succ_of_not_ended k hend, hstep]

/-- The outcomes of a run of budget `n` from `s`, each by the steps that lead to it. -/
inductive RunShape (n : Nat) (s : State) : RunEnd → Prop where
  | ended {m : Nat} {t : State} (hm : m ≤ n) (hsteps : Host.Core.run core m s = .next t)
      (hend : fetch t = .ok jsZero) (hno : NoEndBefore m s) : RunShape n s (.ended t)
  | fault {m : Nat} {u : State} {f : Fault} (hm : m < n) (hsteps : Host.Core.run core m s = .next u)
      (hstep : step u = .fault f) (hno : NoEndUpTo m s) : RunShape n s (.fault f)
  | refused {m : Nat} {u : State} {r : Refusal} (hm : m < n) (hsteps : Host.Core.run core m s = .next u)
      (hstep : step u = .refused r) (hno : NoEndUpTo m s) : RunShape n s (.refused r)
  | unfinished {t : State} (hsteps : Host.Core.run core n s = .next t) (hno : NoEndUpTo n s) :
      RunShape n s (.unfinished t)

/-- A run stands at a state with no budget left: it has ended or is unfinished. -/
theorem exists_runShape_of_steps {n : Nat} {s t : State} (hsteps : Host.Core.run core n s = .next t)
    (hno : NoEndBefore n s) : ∃ o, RunShape n s o := by
  cases hend : ended t with
  | true => exact ⟨_, .ended le_rfl hsteps (ended_iff.mp hend) hno⟩
  | false => exact ⟨_, .unfinished hsteps ((noEndUpTo_iff_of_steps hsteps).mpr ⟨hno, hend⟩)⟩

/-- Every run has one of the shapes: only an unfinished one is changed by one step more of budget. -/
theorem exists_runShape (n : Nat) (s : State) : ∃ o, RunShape n s o := by
  induction n with
  | zero => exact exists_runShape_of_steps (steps_zero.mpr rfl) (.zero s)
  | succ n ih =>
    obtain ⟨o, h⟩ := ih
    cases h with
    | ended hm hsteps hend hno => exact ⟨_, .ended (Nat.le_succ_of_le hm) hsteps hend hno⟩
    | fault hm hsteps hstep hno => exact ⟨_, .fault (Nat.lt_succ_of_lt hm) hsteps hstep hno⟩
    | refused hm hsteps hstep hno => exact ⟨_, .refused (Nat.lt_succ_of_lt hm) hsteps hstep hno⟩
    | @unfinished t hsteps hno =>
      cases hstep : step t with
      | next u => exact exists_runShape_of_steps (steps_next.mpr ⟨t, hsteps, hstep⟩) (noEndUpTo_iff.mp hno)
      | fault f => exact ⟨_, .fault (Nat.lt_succ_self n) hsteps hstep hno⟩
      | refused r => exact ⟨_, .refused (Nat.lt_succ_self n) hsteps hstep hno⟩

/-- A run that comes to a state past no `JS 0`, itself included, and has budget left goes on from there. -/
theorem run_of_steps_lt {m n : Nat} {s u : State} (hm : m < n) (hsteps : Host.Core.run core m s = .next u)
    (hno : NoEndUpTo m s) : ended u = false ∧ ∃ k, run n s = run (k + 1) u := by
  obtain ⟨k, rfl⟩ := Nat.exists_eq_add_of_lt hm
  obtain ⟨hbefore, hend⟩ := (noEndUpTo_iff_of_steps hsteps).mp hno
  exact ⟨hend, k, run_of_steps hsteps hbefore (k + 1)⟩

theorem RunShape.run_eq {n : Nat} {s : State} {o : RunEnd} (h : RunShape n s o) : run n s = o := by
  cases h with
  | ended hm hsteps hend hno =>
    obtain ⟨k, rfl⟩ := Nat.exists_eq_add_of_le hm
    exact (run_of_steps hsteps hno k).trans (run_of_ended k (ended_iff.mpr hend))
  | fault hm hsteps hstep hno =>
    obtain ⟨hend, k, hrun⟩ := run_of_steps_lt hm hsteps hno
    rw [hrun, run_succ_of_not_ended k hend, hstep]
  | refused hm hsteps hstep hno =>
    obtain ⟨hend, k, hrun⟩ := run_of_steps_lt hm hsteps hno
    rw [hrun, run_succ_of_not_ended k hend, hstep]
  | unfinished hsteps hno =>
    obtain ⟨hbefore, hend⟩ := (noEndUpTo_iff_of_steps hsteps).mp hno
    rw [← Nat.add_zero n, run_of_steps hsteps hbefore 0, run, hend]
    rfl

theorem run_eq_iff {n : Nat} {s : State} {o : RunEnd} : run n s = o ↔ RunShape n s o := by
  refine ⟨?_, RunShape.run_eq⟩
  rintro rfl
  obtain ⟨o, h⟩ := exists_runShape n s
  rwa [h.run_eq]

theorem run_ended_iff {n : Nat} {s t : State} :
    run n s = .ended t ↔
      ∃ m ≤ n, Host.Core.run core m s = .next t ∧ fetch t = .ok jsZero ∧ NoEndBefore m s := by
  refine run_eq_iff.trans ⟨fun h => ?_, fun ⟨_, hm, hsteps, hend, hno⟩ => .ended hm hsteps hend hno⟩
  cases h with
  | ended hm hsteps hend hno => exact ⟨_, hm, hsteps, hend, hno⟩

theorem run_fault_iff {n : Nat} {s : State} {f : Fault} :
    run n s = .fault f ↔ ∃ m < n, ∃ u : State, Host.Core.run core m s = .next u ∧ step u = .fault f ∧
      NoEndUpTo m s := by
  refine run_eq_iff.trans ⟨fun h => ?_, fun ⟨_, hm, _, hsteps, hstep, hno⟩ => .fault hm hsteps hstep hno⟩
  cases h with
  | fault hm hsteps hstep hno => exact ⟨_, hm, _, hsteps, hstep, hno⟩

theorem run_refused_iff {n : Nat} {s : State} {r : Refusal} :
    run n s = .refused r ↔ ∃ m < n, ∃ u : State, Host.Core.run core m s = .next u ∧ step u = .refused r ∧
      NoEndUpTo m s := by
  refine run_eq_iff.trans ⟨fun h => ?_, fun ⟨_, hm, _, hsteps, hstep, hno⟩ => .refused hm hsteps hstep hno⟩
  cases h with
  | refused hm hsteps hstep hno => exact ⟨_, hm, _, hsteps, hstep, hno⟩

theorem run_unfinished_iff {n : Nat} {s t : State} :
    run n s = .unfinished t ↔ Host.Core.run core n s = .next t ∧ NoEndUpTo n s := by
  refine run_eq_iff.trans ⟨fun h => ?_, fun ⟨hsteps, hno⟩ => .unfinished hsteps hno⟩
  cases h with
  | unfinished hsteps hno => exact ⟨hsteps, hno⟩

/-- A run that is not unfinished has the same shape under any larger budget. -/
theorem RunShape.add {n : Nat} {s : State} {o : RunEnd} (h : RunShape n s o) (ho : ∀ t, o ≠ .unfinished t)
    (k : Nat) : RunShape (n + k) s o := by
  cases h with
  | ended hm hsteps hend hno => exact .ended (Nat.le_add_right_of_le hm) hsteps hend hno
  | fault hm hsteps hstep hno => exact .fault (Nat.lt_add_right k hm) hsteps hstep hno
  | refused hm hsteps hstep hno => exact .refused (Nat.lt_add_right k hm) hsteps hstep hno
  | unfinished hsteps hno => exact absurd rfl (ho _)

theorem run_add_of_reached {n : Nat} {s : State} {o : RunEnd} (h : run n s = o) (ho : ∀ t, o ≠ .unfinished t)
    (k : Nat) : run (n + k) s = o :=
  ((run_eq_iff.mp h).add ho k).run_eq

/-- Where a run has ended in `t`, the steps of any larger number lead to `t`: they repeat `JS 0` (R212). -/
theorem steps_of_run_ended {n : Nat} {s t : State} (h : run n s = .ended t) (k : Nat) :
    Host.Core.run core (n + k) s = .next t := by
  obtain ⟨m, hm, hsteps, hend, -⟩ := run_ended_iff.mp h
  obtain ⟨j, rfl⟩ := Nat.exists_eq_add_of_le hm
  rw [Nat.add_assoc, steps_add hsteps]
  exact steps_of_self_loop (step_of_ended (ended_iff.mpr hend)) (j + k)

/-- Settles O52: the shape of a run is its outcome, and no outcome but an unfinished one depends on the budget left. -/
theorem runsEndOnlyAtJsZero : Obligations.RunsEndOnlyAtJsZero :=
  fun _ _ => ⟨fun _ => run_ended_iff, fun _ => run_fault_iff, fun _ => run_refused_iff, fun _ => run_unfinished_iff,
    fun k => ⟨fun _ h => ⟨run_add_of_reached h nofun k, steps_of_run_ended h k⟩,
      fun _ h => run_add_of_reached h nofun k, fun _ h => run_add_of_reached h nofun k⟩⟩

end Sys2Proof.Machine
end

section
/-! SUPPORT. The launch: what each field of the first state is, and that a memory loaded from a canonical image reads as
the image laid over what was there before. -/

namespace Sys2Proof.Machine

/-! ## What a loaded memory reads as -/

/-- A memory whose addresses rise from a bound lists nothing below it. -/
theorem Memory.read_of_risingFrom {m : Memory} {lo a : Nat} (h : Memory.risingFrom lo m = true) (ha : a < lo) :
    m.read a = none := by
  induction m generalizing lo with
  | nil => rfl
  | cons c m ih =>
    obtain ⟨k, v⟩ := c
    simp only [Memory.risingFrom, Bool.and_eq_true, decide_eq_true_eq] at h
    obtain ⟨hk, hm⟩ := h
    rw [Memory.read, if_neg (by omega), ih hm (by omega)]

/-- An image cell that lies inside the memory is written before the rest of the image is loaded. -/
theorem Memory.load_cons {size k : Nat} (hk : k < size) (m : Memory) (v : Byte) (image : List Host.Cell) :
    Memory.load size m ((k, v) :: image) = Memory.load size (m.write k v) image := by
  simp only [Memory.load, List.foldl_cons, if_pos hk]

/-- The induction behind `Memory.read_load`: a loaded cell stays, since the rest of the image lists only higher
addresses. -/
theorem Memory.read_load_of_risingFrom {size lo : Nat} {image : Memory} (m : Memory)
    (hrise : Memory.risingFrom lo image = true) (hin : image.within size = true) (a : Nat) :
    (Memory.load size m image).read a = (image.read a).or (m.read a) := by
  induction image generalizing lo m with
  | nil => rfl
  | cons c image ih =>
    obtain ⟨k, v⟩ := c
    simp only [Memory.risingFrom, Bool.and_eq_true, decide_eq_true_eq] at hrise
    simp only [Memory.within, List.all_cons, Bool.and_eq_true, decide_eq_true_eq] at hin
    obtain ⟨-, hrest⟩ := hrise
    obtain ⟨hk, hinrest⟩ := hin
    rw [Memory.load_cons hk, ih _ hrest hinrest, Memory.read_write, Memory.read]
    by_cases hak : a = k
    · rw [if_pos hak, if_pos hak, Memory.read_of_risingFrom hrest (by omega), Option.none_or, Option.some_or]
    · rw [if_neg hak, if_neg hak]

/-- A memory loaded from a canonical image that fits reads as the image where that sets a byte, and as before
elsewhere. -/
theorem Memory.read_load {size : Nat} {image : Memory} (m : Memory) (hwf : image.wf = true)
    (hin : image.within size = true) (a : Nat) :
    (Memory.load size m image).read a = (image.read a).or (m.read a) :=
  Memory.read_load_of_risingFrom m hwf hin a

/-- Loaded into an empty memory, such an image is read back (`ImageLoaded`). -/
theorem Memory.imageLoaded_load_nil {size : Nat} {image : Memory} (hwf : image.wf = true)
    (hin : image.within size = true) : ImageLoaded (Memory.load size [] image) image := fun a => by
  rw [Memory.read_load [] hwf hin, Memory.read_nil, Option.or_none]

/-! ## The fields of the first state -/

section
variable (p : Params) (imemInit dmemInit : List Host.Cell)

@[simp] theorem launch_pc : (State.launch p imemInit dmemInit).pc = p.resetPc := rfl
@[simp] theorem launch_params : (State.launch p imemInit dmemInit).params = p := rfl
@[simp] theorem launch_isWritten (r : Reg) : (State.launch p imemInit dmemInit).isWritten r = false := by
  simp [State.isWritten, State.launch]

variable {p}

theorem launch_imem_harvard (h : p.memOrg = .harvard) :
    (State.launch p imemInit dmemInit).imem = Memory.load p.imemSize [] imemInit := by
  simp only [State.launch, h]

theorem launch_dmem_harvard (h : p.memOrg = .harvard) :
    (State.launch p imemInit dmemInit).dmem = Memory.load p.dmemSize [] dmemInit := by
  simp only [State.launch, h]

theorem launch_imem_unified {lo hi : Word} (h : p.memOrg = .unified lo hi) :
    (State.launch p imemInit dmemInit).imem = [] := by
  simp only [State.launch, h]

theorem launch_dmem_unified {lo hi : Word} (h : p.memOrg = .unified lo hi) :
    (State.launch p imemInit dmemInit).dmem =
      Memory.load p.dmemSize (Memory.load p.dmemSize [] dmemInit) imemInit := by
  simp only [State.launch, h]

end

/-- Under `unified` the one memory reads as the program image laid over the data image (log 17). -/
theorem launch_read_unified {p : Params} {lo hi : Word} {imemInit dmemInit : Memory}
    (h : p.memOrg = .unified lo hi)
    (hiwf : imemInit.wf = true) (hiin : imemInit.within p.dmemSize = true)
    (hdwf : dmemInit.wf = true) (hdin : dmemInit.within p.dmemSize = true) (a : Nat) :
    (State.launch p imemInit dmemInit).dmem.read a = (imemInit.read a).or (dmemInit.read a) := by
  rw [launch_dmem_unified _ _ h, Memory.read_load _ hiwf hiin, Memory.imageLoaded_load_nil hdwf hdin a]

/-- Settles O1: each premise is a field of the launched state, and each memory reads as what was loaded into it. -/
theorem launchBuildsFirstState : Obligations.LaunchBuildsFirstState := by
  refine ⟨fun p imemInit dmemInit => ⟨⟨_, rfl⟩, rfl, launch_pc .., launch_isWritten _ _ _, launch_params ..⟩, ?harvard,
    ?unified, reset_eq_launch, rfl⟩
  case harvard =>
    intro p imemInit dmemInit horg hiwf hiin hdwf hdin
    rw [launch_imem_harvard _ _ horg, launch_dmem_harvard _ _ horg]
    exact ⟨Memory.imageLoaded_load_nil hiwf hiin, Memory.imageLoaded_load_nil hdwf hdin⟩
  case unified =>
    intro p lo hi imemInit dmemInit horg hiwf hiin hdwf hdin
    have hread := launch_read_unified horg hiwf hiin hdwf hdin
    refine ⟨fun a b hset => ?_, fun a hunset => ?_, launch_imem_unified _ _ horg⟩
    · rw [hread, hset, Option.some_or]
    · rw [hread, hunset, Option.none_or]

end Sys2Proof.Machine
end
